-- ==== Sys2Proof/Word.lean ====
section
/-! DEFINITION. The two word types of the block: the byte of the wire and the 32-bit register word (00_scope.md R8, R11, R12). -/

namespace Sys2Proof

/-- "A byte is an unsigned 8-bit value 0..255" (R12): addresses, command codes, frame bytes, handler ids. -/
abbrev Byte := BitVec 8

/-- A register of the host interface is 32 bits (R11). -/
abbrev Word := BitVec 32

/-- A byte address of the register window, 12 bits (R60). -/
abbrev CsrAddr := BitVec 12

end Sys2Proof
end

