-- ==== Sys2Proof/Syntax.lean ====
section
/-! DEFINITION. The instructions: one constructor per row of spec/opcode_table.json (30_encoding.md R95), with the message and the flow errors the wire format speaks of. -/

namespace Sys2Proof

/-- The block's "instructions" (R95): the seven host commands written to `CMD` (R90, R91) and the three classes of
received frame, told apart by the frame's CMD byte (R85). -/
inductive Instr where
  /-- START, OP 0x01 (R180). -/
  | start
  /-- CANCEL, OP 0x02 (R181). -/
  | cancel
  /-- REGISTER, OP 0x03 (R182): A = the command code, B = the handler id, K = the kind field as written. -/
  | register (code hid : Byte) (kind : BitVec 2)
  /-- SEND, OP 0x04 (R183): A = the frame's CMD, B = its DEST. -/
  | send (cmd dest : Byte)
  /-- BROADCAST, OP 0x05 (R184): A = the frame's CMD. -/
  | broadcast (cmd : Byte)
  /-- MSG_DONE, OP 0x06 (R185). -/
  | msgDone
  /-- A reserved OP value, 0x00 or 0x07..0xFF (R186). -/
  | reservedOp (op : Byte)
  /-- A received frame with CMD = 0x05 (R220). -/
  | rxPing (dest orig : Byte) (payload : List Byte)
  /-- A received frame with CMD = 0x06 (R175). -/
  | rxPong (dest orig : Byte) (payload : List Byte)
  /-- A received frame with any other CMD (R174). -/
  | rxApp (dest orig cmd : Byte) (payload : List Byte)
deriving DecidableEq, Repr

/-- A decoded Message, `(dest, orig, cmd, length, payload)` (R17, R129). -/
structure Message where
  dest : Byte
  orig : Byte
  cmd : Byte
  length : Byte
  payload : List Byte
deriving DecidableEq, Repr, Inhabited

/-- The closed taxonomy of R231, in its order. The codes are `FlowError.code`. -/
inductive FlowError where
  /-- Every check passed; not an error, never reported. It is what ERR_LAST holds before the first report (R29). -/
  | noError
  /-- Reserved, never produced (R233). -/
  | badFormat
  /-- Reserved, never produced (R233). -/
  | voidMsg
  /-- Fewer than 9 bytes in the cycle (R121). -/
  | tooShortMsg
  /-- Reserved, never produced (R233). -/
  | unexpectedOrigin
  /-- Reserved, never produced (R233). -/
  | unexpectedCmd
  /-- DEST is neither this station nor 0x00 (R123). -/
  | wrongDestStation
  /-- Byte count differs from 9 + LEN (R122, R130). -/
  | badLenField
  /-- CHK differs from the checksum (R128). -/
  | badChecksum
  /-- Byte 0 is not SOH (R124). -/
  | missingSoh
  /-- Byte 5 is not STX (R125). -/
  | missingStx
  /-- Byte 6 + LEN is not ETX (R126). -/
  | missingEtx
  /-- Byte 8 + LEN is not EOT (R127). -/
  | missingEot
  /-- Reserved, never produced (R233): idle timeouts are not errors. -/
  | timeout
  /-- Reserved, never produced (R233): there is no retry counter. -/
  | manyRetries
deriving DecidableEq, Repr, Inhabited

/-- What carries an instruction to the block: a host command is the 32-bit word written to `CMD` (R90), a received
frame is a byte sequence, SOH first (R69, R80). -/
inductive Code where
  | command (w : Word)
  | frame (bytes : List Byte)
deriving DecidableEq, Repr

end Sys2Proof
end

