-- ==== Sys2Proof/Machine/Ports.lean ====
section
/-! DEFINITION. The vocabulary at the block's boundary (20_memory.md, 41_reassembly.md R141, 42_station_engine.md R200, 70_reset_and_hazards.md R270): host accesses, transport outcomes, whose turn it is, reset parameters. -/

namespace Sys2Proof.Machine

/-- The outcome of one `TransportRead` (R141). -/
inductive RxOutcome where
  | byte (b : Byte)
  | timeout
  | endOfStream
  | fault
deriving DecidableEq, Repr, Inhabited

/-- The outcome of one `TransportWrite` (R200). -/
inductive TxOutcome where
  | ok
  | fault
deriving DecidableEq, Repr, Inhabited

/-- Which pending frame a transmit step writes (R201). -/
inductive TxSource where
  | host
  | pong
deriving DecidableEq, Repr, Inhabited

/-- The width of a host access; only 32 bits is legal (R62). -/
inductive AccessWidth where
  | w8
  | w16
  | w32
deriving DecidableEq, Repr, Inhabited

/-- One access of the host at the register port (R60, R61, R62). -/
inductive HostAccess where
  | read (addr : CsrAddr) (width : AccessWidth)
  | write (addr : CsrAddr) (width : AccessWidth) (value : Word)
deriving DecidableEq, Repr, Inhabited

/-- A statement of a host program (R96): one access, or `POLL off, mask, value`, which repeats a read of off until
`(data & mask) = value`. -/
inductive HostStmt where
  | access (a : HostAccess)
  | poll (addr : CsrAddr) (mask value : Word)
deriving DecidableEq, Repr, Inhabited

/-- The response of the register port (R60, R61): `ok = false` is the bus error. A write returns no data. -/
inductive BusResponse where
  | read (data : Word) (ok : Bool)
  | write (ok : Bool)
deriving DecidableEq, Repr

/-- The parameters of R9: the station address strap, the reset value of TIMEOUT, the contents of TX_BUF after reset. -/
structure ResetParams where
  station : Byte
  timeoutReset : Word
  txBufInit : Vector Byte 256
deriving DecidableEq, Repr, Inhabited

/-- Whose step is next (R16: steps of different agents interleave in any order). `transmit first` names the frame
written first when both are pending (R202). `reset p` is `rst_n` asserted (R270). -/
inductive Turn where
  | host
  | receive
  | transmit (first : TxSource)
  | reset (p : ResetParams)
deriving DecidableEq, Repr, Inhabited

/-- The host-visible registers of R63, by name. -/
inductive Csr where
  | station
  | cmd
  | status
  | cmdResult
  | timeout
  | txLen
  | errLast
  | errCount
  | msgInfo
  | msgHid
  | txBuf (k : BitVec 6)
  | msgBuf (k : BitVec 6)
  | reg (c : Byte)
deriving DecidableEq, Repr, Inhabited

end Sys2Proof.Machine
end

