-- ==== Sys2Proof/Config.lean ====
section
/-! DEFINITION. The parameters of the instance (00_scope.md R9) and the free values: what the spec leaves to the instance, the host and the transport. An opaque constant has no value a proof could see. -/

namespace Sys2Proof.Config

/-- P_STATION less 1: the strap is OPEN in 1..255 (R9, R10; log 1). -/
opaque stationLessOne : Fin 255

/-- P_STATION, this station's address, "set per instance; 0 is refused" (R9, log 1). -/
def pStation : Byte := BitVec.ofNat 8 (stationLessOne.val + 1)

/-- P_TIMEOUT_RESET at its default: "default 1, from one time unit, configurable" (R9, log 2). A reset turn may bring
any other value. -/
def pTimeoutReset : Word := 1

/-- P_TXBUF_INIT, contents of TX_BUF after reset: "OPEN: any value (a draw)" (R9, R33, log 3). -/
opaque pTxBufInit : Vector Byte 256

/-- The parameters of the instance State.reset builds. -/
def params : Sys2Proof.Machine.ResetParams :=
  { station := pStation, timeoutReset := pTimeoutReset, txBufInit := pTxBufInit }

/-- Whose step is next once `schedule` is used up: any (R16, log 6). -/
opaque freeTurn : Nat → Sys2Proof.Machine.Turn

/-- What the host does once `hostProgram` is used up: any access (R60, R61, log 6). -/
opaque freeHost : Nat → Sys2Proof.Machine.HostStmt

/-- The outcome of a transport read once `rxIn` is used up: "an oracle answer under no law" (R141, log 6). -/
opaque freeRx : Nat → Sys2Proof.Machine.RxOutcome

/-- The outcome of a transport write once `txIn` is used up: the transport's choice (R200, log 6). -/
opaque freeTx : Nat → Sys2Proof.Machine.TxOutcome

/-- What `err_code_o` shows while `err_valid_o` is low, by the draw index: the spec gives the code "for this step only"
(R48, R236) and no value otherwise, so it is free (DESIGN CHOICE, log 27). -/
opaque freeErrCode : Nat → Byte

end Sys2Proof.Config
end

