-- ==== Sys2Proof/WellFormed.lean ====
section
/-! DEFINITION. Which terms of Instr some encoding stands for (30_encoding.md R82, R85, R91). -/

namespace Sys2Proof

/-- A payload fits the LEN byte: "the payload length (0–255)" (R80, R112). -/
def payloadFits (payload : List Byte) : Bool := decide (payload.length ≤ 255)

/-- The OP values R91 leaves reserved: 0x00 and 0x07..0xFF. -/
def opReserved (op : Byte) : Bool := decide (op.toNat = 0 ∨ 7 ≤ op.toNat)

/-- The term is one an encoding stands for: a reserved OP is reserved, a payload fits LEN, and an application frame's
CMD is neither PING nor PONG. Every operand value of a host command is admitted, the illegal kinds of REGISTER too (R93
gives them an outcome). -/
def Instr.wellFormed : Instr → Bool
  | .start => true
  | .cancel => true
  | .register _ _ _ => true
  | .send _ _ => true
  | .broadcast _ => true
  | .msgDone => true
  | .reservedOp op => opReserved op
  | .rxPing _ _ payload => payloadFits payload
  | .rxPong _ _ payload => payloadFits payload
  | .rxApp _ _ cmd payload => payloadFits payload && (cmd != 0x05 && cmd != 0x06)

/-- Decode accepts a frame for this station or for the broadcast address only (R123); a host command has no address. -/
def Instr.addressedTo (station : Byte) : Instr → Bool
  | .start => true
  | .cancel => true
  | .register _ _ _ => true
  | .send _ _ => true
  | .broadcast _ => true
  | .msgDone => true
  | .reservedOp _ => true
  | .rxPing dest _ _ => dest == 0x00 || dest == station
  | .rxPong dest _ _ => dest == 0x00 || dest == station
  | .rxApp dest _ _ _ => dest == 0x00 || dest == station

end Sys2Proof
end

