-- ==== Sys2Proof/Decode.lean ====
section
/-! DEFINITION. The two encodings (30_encoding.md) and the frame codec (40_frame_codec.md): the host command word, the wire frame, the checksum, decode and encode, and the table-word reader the host asks for. -/

namespace Sys2Proof

/-! ## Constants of the wire format (R8, R83) -/

def Frame.soh : Byte := 0x01
def Frame.stx : Byte := 0x02
def Frame.etx : Byte := 0x03
def Frame.eot : Byte := 0x04
def Frame.ping : Byte := 0x05
def Frame.pong : Byte := 0x06
def Frame.broadcast : Byte := 0x00

/-- Byte i of a sequence, 0-based (R14). Every rule reads it below the length. -/
def byteAt (buf : List Byte) (i : Nat) : Byte := buf.getD i 0

/-! ## Checksum -/

/-- The exact sum of R110, `dest + orig + cmd + len + sum(payload)`, "unsigned, no wrap". -/
def checksumSum (dest orig cmd len : Byte) (payload : List Byte) : Nat :=
  dest.toNat + orig.toNat + cmd.toNat + len.toNat + (payload.map BitVec.toNat).sum

/-- `Checksum` (R110): the exact sum mod 256. -/
def checksum (dest orig cmd len : Byte) (payload : List Byte) : Byte :=
  BitVec.ofNat 8 (checksumSum dest orig cmd len payload)

/-! ## Frames -/

/-- `Encode` (R113). -/
def Frame.encode (dest orig cmd : Byte) (payload : List Byte) : List Byte :=
  let len : Byte := BitVec.ofNat 8 payload.length
  [Frame.soh, dest, orig, cmd, len, Frame.stx] ++ payload
    ++ [Frame.etx, checksum dest orig cmd len payload, Frame.eot]

/-- DEST is this station or the broadcast address (R123). -/
def Frame.accepts (station dest : Byte) : Bool := dest == Frame.broadcast || dest == station

/-- The payload bytes `buf[6 .. 5+L]` (R129). -/
def Frame.payloadOf (buf : List Byte) : List Byte := (buf.drop 6).take (byteAt buf 4).toNat

/-- `Decode(buf, over, station)` (R120 to R131): the checks in their fixed order, "first failure wins". -/
def Frame.decode (buf : List Byte) (overlong : Bool) (station : Byte) : Except FlowError Message :=
  if overlong then .error .badLenField
  else if buf.length < 9 then .error .tooShortMsg
  else if buf.length ≠ 9 + (byteAt buf 4).toNat then .error .badLenField
  else if Frame.accepts station (byteAt buf 1) = false then .error .wrongDestStation
  else if byteAt buf 0 ≠ Frame.soh then .error .missingSoh
  else if byteAt buf 5 ≠ Frame.stx then .error .missingStx
  else if byteAt buf (6 + (byteAt buf 4).toNat) ≠ Frame.etx then .error .missingEtx
  else if byteAt buf (8 + (byteAt buf 4).toNat) ≠ Frame.eot then .error .missingEot
  else if checksum (byteAt buf 1) (byteAt buf 2) (byteAt buf 3) (byteAt buf 4) (Frame.payloadOf buf)
      ≠ byteAt buf (7 + (byteAt buf 4).toNat) then .error .badChecksum
  else .ok
    { dest := byteAt buf 1, orig := byteAt buf 2, cmd := byteAt buf 3, length := byteAt buf 4,
      payload := Frame.payloadOf buf }

/-- The Message a frame of these operands carries; LEN is the payload's length (R80). -/
def Message.of (dest orig cmd : Byte) (payload : List Byte) : Message :=
  { dest := dest, orig := orig, cmd := cmd, length := BitVec.ofNat 8 payload.length, payload := payload }

/-- The received-frame class of a message, told by its CMD byte (R95). -/
def Instr.ofMessage (m : Message) : Instr :=
  if m.cmd = Frame.ping then .rxPing m.dest m.orig m.payload
  else if m.cmd = Frame.pong then .rxPong m.dest m.orig m.payload
  else .rxApp m.dest m.orig m.cmd m.payload

/-! ## The host command word (R90) -/

/-- OP, `w[7:0]`. -/
def Cmd.op (w : Word) : Byte := w.extractLsb' 0 8
/-- A, `w[15:8]`. -/
def Cmd.a (w : Word) : Byte := w.extractLsb' 8 8
/-- B, `w[23:16]`. -/
def Cmd.b (w : Word) : Byte := w.extractLsb' 16 8
/-- K, `w[25:24]`. -/
def Cmd.k (w : Word) : BitVec 2 := w.extractLsb' 24 2

/-- The command a word selects (R91): total, every other OP being reserved. Bits a command does not use are not read
(R92). -/
def decodeCommand (w : Word) : Instr :=
  match (Cmd.op w).toNat with
  | 1 => .start
  | 2 => .cancel
  | 3 => .register (Cmd.a w) (Cmd.b w) (Cmd.k w)
  | 4 => .send (Cmd.a w) (Cmd.b w)
  | 5 => .broadcast (Cmd.a w)
  | 6 => .msgDone
  | _ => .reservedOp (Cmd.op w)

/-- The decoder: a command word always is an instruction; a frame is one, or is rejected by the name of its flow error
(R94, R120). -/
def decode (station : Byte) : Code → Except FlowError Instr
  | .command w => .ok (decodeCommand w)
  | .frame bytes =>
    match Frame.decode bytes false station with
    | .ok m => .ok (Instr.ofMessage m)
    | .error e => .error e

/-! ## The encoder -/

/-- A command word of these fields, bits [31:26] zero (R90). -/
def Cmd.word (op a b : Byte) (k : BitVec 2) : Word := (0 : BitVec 6) ++ k ++ b ++ a ++ op

/-- The encoding of an instruction: the words of R96's table for the host commands (unused bits zero, R92), the frame
of R80 for a received frame. -/
def encode : Instr → Code
  | .start => .command (Cmd.word 0x01 0 0 0)
  | .cancel => .command (Cmd.word 0x02 0 0 0)
  | .register code hid kind => .command (Cmd.word 0x03 code hid kind)
  | .send cmd dest => .command (Cmd.word 0x04 cmd dest 0)
  | .broadcast cmd => .command (Cmd.word 0x05 cmd 0 0)
  | .msgDone => .command (Cmd.word 0x06 0 0 0)
  | .reservedOp op => .command (Cmd.word op 0 0 0)
  | .rxPing dest orig payload => .frame (Frame.encode dest orig Frame.ping payload)
  | .rxPong dest orig payload => .frame (Frame.encode dest orig Frame.pong payload)
  | .rxApp dest orig cmd payload => .frame (Frame.encode dest orig cmd payload)

/-! ## Words of spec/opcode_table.json -/

/-- What a table word stands for (log 9). The table's pattern of a host command is its OP byte inside the 32-bit CMD
word; the pattern of a received frame is its CMD byte alone. An 8-bit 0x05 or 0x06 is read as the frame class the table
gives that byte, no bits at all as RX_APP (the one row without a pattern), anything else as the CMD word, its other bits
zero. The frame's other operands are zeros: DEST 0x00, ORIG 0x00, no payload; its sentinels and CHK are what the format
fixes. -/
def tableCode (nbits w : Nat) : Option Code :=
  if nbits = 0 ∨ (nbits ≤ 8 ∧ (w = 5 ∨ w = 6)) then
    some (.frame (Frame.encode 0x00 0x00 (BitVec.ofNat 8 w) []))
  else if nbits ≤ 32 ∧ w < 4294967296 then some (.command (BitVec.ofNat 32 w))
  else none

/-- The instruction the decoder reads from a table word. -/
def decodeTableWord (nbits w : Nat) : Option Instr :=
  match tableCode nbits w with
  | none => none
  | some code =>
    match decode Config.pStation code with
    | .ok i => some i
    | .error _ => none

end Sys2Proof
end

