-- ==== Sys2Proof/Machine/State.lean ====
section
/-! DEFINITION. The state of one station instance (10_state.md), plain data, and the state after reset (70_reset_and_hazards.md R270). -/

namespace Sys2Proof.Machine

/-- The receive-engine state (R37). Codes 6 and 7 "are never held" and have no constructor. -/
inductive RxState where
  | stopped
  | readFirst
  | readCont
  | dispatchExt
  | dispatchPing
  | fatal
deriving DecidableEq, Repr, Inhabited

/-- The values of CMD_RESULT (R26); "Values 4..255 are never written" and have no constructor (log 20). -/
inductive CmdResult where
  | ok
  | busy
  | illegal
  | fatal
deriving DecidableEq, Repr, Inhabited

/-- KIND of a registry entry (R35); 11 is "never stored" and has no constructor (log 20). -/
inductive RegKind where
  | absent
  | external
  | builtinPing
deriving DecidableEq, Repr, Inhabited

/-- A registry entry: (kind, hid) (R22, R35). -/
structure RegEntry where
  kind : RegKind
  hid : Byte
deriving DecidableEq, Repr, Inhabited

/-- Why the block entered FATAL (R240). "The cause is not recorded in a register." -/
inductive FatalCause where
  | rxFault
  | txFault
deriving DecidableEq, Repr, Inhabited

/-- Reasons a step stops with a fault. There are none: flow errors, fatal transport failures and bus errors are all next
states (R230, R240, R60; log 15). -/
inductive Fault : Type
deriving DecidableEq, Repr

/-- Reasons the model gives no next state. -/
inductive Refusal where
  /-- Raised by exec's arm of an instruction that has no meaning yet. Safe: no claim about it can be proved. -/
  | notModelled (mnemonic : String)
  /-- Raised by a reset turn whose strap is 0: "an instance built with 0 has no meaning in the model (refusal)" (R10,
  log 12). Safe. -/
  | stationZero
deriving DecidableEq, Repr

/-- The state of one instance. The first group is R22's list, word for word; then the one-step outputs (R48), the
traces (R49), the host's record of bus responses (R49, R60), and the environment's inputs (log 6). -/
structure State where
  /-- STATION (R23). -/
  station : Byte
  /-- TIMEOUT (R27). -/
  timeout : Word
  /-- CMD_RESULT (R26). -/
  cmdResult : CmdResult
  /-- TX_LEN (R28). -/
  txLen : Byte
  /-- TX_BUF, 256 bytes (R33). -/
  txBuf : Vector Byte 256
  /-- ERR_LAST (R29). -/
  errLast : FlowError
  /-- ERR_COUNT (R30). -/
  errCount : Word
  /-- REG[0..255], the command registry (R35, R36). -/
  regs : Vector RegEntry 256
  /-- The receive-engine state (R37). -/
  rxState : RxState
  /-- The bytes of the current read cycle, at most 264 (R38). -/
  rxBuf : List Byte
  /-- More than 264 bytes arrived in the cycle (R38). -/
  rxOver : Bool
  /-- The last byte received (R39). -/
  rxLast : Byte
  /-- The current continuation read has received a byte (R40). -/
  rxNew : Bool
  /-- The flow error that led to the continuation read (R41). -/
  rxPendErr : FlowError
  /-- The host asked the loop to stop (R42). -/
  cancelReq : Bool
  /-- A message is handed to the host (R43). -/
  msgPending : Bool
  /-- That message (R43). -/
  msg : Message
  /-- The handler id it was dispatched to (R43). -/
  msgHid : Byte
  /-- A host frame waits to be written (R44). -/
  hostTxPend : Bool
  /-- Its DEST (R44). -/
  hostTxDest : Byte
  /-- Its CMD (R44). -/
  hostTxCmd : Byte
  /-- A PONG waits to be written (R45). -/
  pongReq : Bool
  /-- The address it goes to (R45). -/
  pongDest : Byte
  /-- A transport failure ended the loop (R46). -/
  fatal : Bool
  /-- err_valid_o with err_code_o of the step just taken (R48, R236, log 5). -/
  errPulse : Option FlowError
  /-- The transmit trace, oldest first (R49). -/
  txTrace : List (List Byte × TxOutcome)
  /-- The error trace, oldest first (R49). -/
  errTrace : List FlowError
  /-- The dispatch trace, oldest first (R49). -/
  dispatchTrace : List (Message × Byte)
  /-- What the host's accesses returned, oldest first (R49, log 13). -/
  responses : List BusResponse
  /-- Whose steps come next (R16, log 6). -/
  schedule : List Turn
  /-- What the host does next (log 6). -/
  hostProgram : List HostStmt
  /-- The outcomes of the transport reads to come (R98, R141, log 7). -/
  rxIn : List RxOutcome
  /-- The outcomes of the transport writes to come (R98, R200, log 6). -/
  txIn : List TxOutcome
  /-- The index of the next free value (log 6, log 26). -/
  draws : Nat
deriving DecidableEq, Repr

/-- The registry after reset (R35): PING is pre-registered, every other code is absent. -/
def State.resetRegs : Vector RegEntry 256 :=
  (Vector.replicate 256 { kind := .absent, hid := 0 }).set 5 { kind := .builtinPing, hid := 0 }

/-- The state after a reset with the parameters p, with an environment that lists nothing (R270). -/
def State.resetWith (p : ResetParams) : State :=
  { station := p.station, timeout := p.timeoutReset, cmdResult := .ok, txLen := 0, txBuf := p.txBufInit,
    errLast := .noError, errCount := 0, regs := State.resetRegs,
    rxState := .stopped, rxBuf := [], rxOver := false, rxLast := 0, rxNew := false, rxPendErr := .noError,
    cancelReq := false, msgPending := false,
    msg := { dest := 0, orig := 0, cmd := 0, length := 0, payload := [] }, msgHid := 0,
    hostTxPend := false, hostTxDest := 0, hostTxCmd := 0, pongReq := false, pongDest := 0, fatal := false,
    errPulse := none, txTrace := [], errTrace := [], dispatchTrace := [], responses := [],
    schedule := [], hostProgram := [], rxIn := [], txIn := [], draws := 0 }

/-- The machine right after reset (R270) with the instance's parameters (R9; log 1, log 2, log 3). -/
def State.reset : State := State.resetWith Config.params

end Sys2Proof.Machine
end

