-- ==== Sys2Proof/Machine/Flags.lean ====
section
/-! DEFINITION. Field codes, the STATUS flags and the output signals (10_state.md R25, R26, R35, R37, R47, R48; 60_exceptions.md R231). -/

namespace Sys2Proof.Machine

/-- The code of a receive-engine state (R37). -/
def rxStateCode : RxState → BitVec 3
  | .stopped => 0
  | .readFirst => 1
  | .readCont => 2
  | .dispatchExt => 3
  | .dispatchPing => 4
  | .fatal => 5

/-- The value of CMD_RESULT (R26). -/
def cmdResultCode : CmdResult → Byte
  | .ok => 0
  | .busy => 1
  | .illegal => 2
  | .fatal => 3

/-- The KIND field of a registry entry (R35). -/
def regKindCode : RegKind → BitVec 2
  | .absent => 0
  | .external => 1
  | .builtinPing => 2

/-- The 8-bit code of a flow error (R231). -/
def flowErrorCode : FlowError → Byte
  | .noError => 0
  | .badFormat => 1
  | .voidMsg => 2
  | .tooShortMsg => 3
  | .unexpectedOrigin => 4
  | .unexpectedCmd => 5
  | .wrongDestStation => 6
  | .badLenField => 7
  | .badChecksum => 8
  | .missingSoh => 9
  | .missingStx => 10
  | .missingEtx => 11
  | .missingEot => 12
  | .timeout => 13
  | .manyRetries => 14

/-- The engine is reading the transport (R140). -/
def rxReading : RxState → Bool
  | .stopped => false
  | .readFirst => true
  | .readCont => true
  | .dispatchExt => false
  | .dispatchPing => false
  | .fatal => false

/-- STATUS.RUNNING (R25). -/
def rxRunning : RxState → Bool
  | .stopped => false
  | .readFirst => true
  | .readCont => true
  | .dispatchExt => true
  | .dispatchPing => true
  | .fatal => false

/-- The STATUS register (R25), "a pure function of the state". -/
def statusWord (s : State) : Word :=
  (0 : BitVec 21) ++ rxStateCode s.rxState ++ (0 : BitVec 2) ++ BitVec.ofBool s.fatal
    ++ BitVec.ofBool s.pongReq ++ BitVec.ofBool s.hostTxPend ++ BitVec.ofBool s.msgPending
    ++ BitVec.ofBool s.cancelReq ++ BitVec.ofBool (rxRunning s.rxState)

/-- `msg_valid_o` (R48). -/
def msgValidO (s : State) : Bool := s.msgPending
/-- `fatal_o` (R48). -/
def fatalO (s : State) : Bool := s.fatal
/-- `rx_ready_o` (R48). -/
def rxReadyO (s : State) : Bool := rxReading s.rxState
/-- `err_valid_o`, high for the one step in which an error is reported (R48). -/
def errValidO (s : State) : Bool := s.errPulse.isSome
/-- `err_code_o` (R48, R236): the code of the error reported in the step just taken. While `err_valid_o` is low the spec
gives it no value: it is a free value then, the model's choice (DESIGN CHOICE, log 27). -/
def errCodeO (s : State) : Byte :=
  match s.errPulse with
  | some e => flowErrorCode e
  | none => Config.freeErrCode s.draws

end Sys2Proof.Machine
end

