-- ==== Sys2Proof/Machine/Ops.lean ====
section
/-! DEFINITION. The named operations over the state that the rules share: LoopTop, ReportError, Fatal, Append, Dispatch, the registry, reset. -/

namespace Sys2Proof.Machine

/-! ## Fields -/

/-- Writes CMD_RESULT (R26, R245). -/
def setResult (r : CmdResult) (s : State) : State := { s with cmdResult := r }

/-- `REG[c]` (R35). -/
def regEntry (s : State) (c : Byte) : RegEntry := s.regs[c.toNat]'(c.isLt)

/-- `reg[c] <- e`: the last registration for a code wins (R36). -/
def setRegEntry (c : Byte) (e : RegEntry) (s : State) : State :=
  { s with regs := s.regs.set c.toNat e c.isLt }

/-- The payload of the next host frame, `tx_buf[0 .. tx_len-1]` (R33, R183). -/
def hostPayload (s : State) : List Byte := s.txBuf.toList.take s.txLen.toNat

/-! ## The read cycle -/

/-- `Append(b)` (R143): the buffer keeps 264 bytes, the largest frame (R11, R38). -/
def appendByte (b : Byte) (s : State) : State :=
  { s with
    rxBuf := if s.rxBuf.length < 264 then s.rxBuf ++ [b] else s.rxBuf
    rxOver := if s.rxBuf.length < 264 then s.rxOver else true
    rxLast := b }

/-- `LoopTop()` (R150): the boundary between iterations, where cancellation is checked. -/
def loopTop (s : State) : State :=
  if s.cancelReq then { s with cancelReq := false, rxState := .stopped }
  else { s with rxBuf := [], rxOver := false, rxNew := false, rxState := .readFirst }

/-! ## Abnormal outcomes -/

/-- `ReportError(e)` (R236): the error channel. -/
def reportError (e : FlowError) (s : State) : State :=
  { s with
    errLast := e
    errCount := s.errCount + 1
    errPulse := some e
    errTrace := s.errTrace ++ [e] }

/-- `Fatal(cause)` (R240): entering the fatal state. The cause is recorded nowhere. -/
def raiseFatal (_cause : FatalCause) (s : State) : State :=
  { s with
    fatal := true
    rxState := .fatal
    msgPending := false
    pongReq := false
    hostTxPend := false
    cancelReq := false }

/-- A read Fault (R145): "The bytes of the current cycle are discarded with it and nothing is reported" (log 22). -/
def rxFaultEntry (s : State) : State :=
  raiseFatal .rxFault { s with rxBuf := [], rxOver := false }

/-! ## Dispatch -/

/-- `PingRespond(m)` (R220). -/
def pingRespond (m : Message) (s : State) : State :=
  { s with pongReq := true, pongDest := m.orig, rxState := .dispatchPing }

/-- Handing a message to the host as the handler hid (R176). -/
def dispatchExternal (m : Message) (hid : Byte) (s : State) : State :=
  { s with
    msg := m
    msgHid := hid
    msgPending := true
    dispatchTrace := s.dispatchTrace ++ [(m, hid)]
    rxState := .dispatchExt }

/-- `Dispatch(m)` (R174): the registry entry of the message's code decides. -/
def dispatch (m : Message) (s : State) : State :=
  match (regEntry s m.cmd).kind with
  | .absent => loopTop s
  | .external => dispatchExternal m (regEntry s m.cmd).hid s
  | .builtinPing => pingRespond m s

/-- The return from an external handler (R185) and from the Ping Responder (R222) both end in LoopTop; this is the
first: `msg_pending <- 0; LoopTop()`. -/
def returnFromHandler (s : State) : State := loopTop { s with msgPending := false }

/-- What receiving the whole frame of message m does (R140, R153, R172, R173; log 11): an engine that is not reading
takes no byte; a frame for another station is a WRONG_DEST_STATION report; any other is dispatched. -/
def receiveMessage (m : Message) (s : State) : State :=
  if rxReading s.rxState then
    if Frame.accepts s.station m.dest then dispatch m s
    else loopTop (reportError .wrongDestStation s)
  else s

/-! ## Reset -/

/-- A reset of a running instance (R270): every piece of the block's state at its reset value and the traces empty; the
environment, and the host's record of its own accesses, are not the block's (log 13, log 21). -/
def resetBlock (p : ResetParams) (s : State) : State :=
  { State.resetWith p with
    responses := s.responses
    schedule := s.schedule
    hostProgram := s.hostProgram
    rxIn := s.rxIn
    txIn := s.txIn
    draws := s.draws }

/-! ## Outcomes -/

/-- Goes on from a next state; a fault or a refusal stays. -/
def afterNext (f : State → State) (o : Host.Outcome State Fault Refusal) : Host.Outcome State Fault Refusal :=
  match o with
  | .next s => .next (f s)
  | .fault r => .fault r
  | .refused r => .refused r

/-- Appends a response of the register port to the host's record (R60, R61, log 13). -/
def respond (r : BusResponse) (s : State) : State := { s with responses := s.responses ++ [r] }

end Sys2Proof.Machine
end

