-- ==== Sys2Proof/Machine/Operands.lean ====
section
/-! DEFINITION. The operands of the register interface: which register an access names (20_memory.md R62 to R64), the packing of bytes into words (R70), what each register reads as and what a write to it stores (R60, R61, R65, R66; 10_state.md R23 to R35). -/

namespace Sys2Proof.Machine

/-! ## Addresses -/

/-- The single registers of the register map, by offset (R63). -/
def csrSingle (n : Nat) : Option Csr :=
  match n with
  | 0x000 => some .station
  | 0x004 => some .cmd
  | 0x008 => some .status
  | 0x00C => some .cmdResult
  | 0x010 => some .timeout
  | 0x014 => some .txLen
  | 0x018 => some .errLast
  | 0x01C => some .errCount
  | 0x020 => some .msgInfo
  | 0x024 => some .msgHid
  | _ => none

/-- The register map (R63), for an address that is a multiple of 4: the single registers, TX_BUF at 0x100 to 0x1FC,
MSG_BUF at 0x200 to 0x2FC, REG at 0x400 to 0x7FC. Every other offset is unmapped (R64). -/
def csrAt (addr : CsrAddr) : Option Csr :=
  if addr.toNat < 0x100 then csrSingle addr.toNat
  else if addr.toNat < 0x200 then some (.txBuf (addr.extractLsb' 2 6))
  else if addr.toNat < 0x300 then some (.msgBuf (addr.extractLsb' 2 6))
  else if addr.toNat < 0x400 then none
  else if addr.toNat < 0x800 then some (.reg (addr.extractLsb' 2 8))
  else none

/-- The register a legal access names: "Every host access is a 32-bit access at an address that is a multiple of 4"
(R62); anything else is a bus error. -/
def csrOfAccess (addr : CsrAddr) (width : AccessWidth) : Option Csr :=
  match width with
  | .w8 => none
  | .w16 => none
  | .w32 => if addr.toNat % 4 = 0 then csrAt addr else none

/-! ## Byte packing -/

/-- Little-endian packing of four bytes (R33, R70). -/
def packWord (b0 b1 b2 b3 : Byte) : Word := b3 ++ b2 ++ b1 ++ b0

/-- Byte j of a word, bits `[8j+7 : 8j]` (R70). -/
def wordByte (w : Word) (j : Nat) : Byte := w.extractLsb' (8 * j) 8

/-- Byte index 4k + j lies inside the 256-byte buffer. -/
theorem bufIndex_lt (k : BitVec 6) (j : Fin 4) : 4 * k.toNat + j.val < 256 := by
  have hk := k.isLt
  have hj := j.isLt
  omega

/-- `tx_buf[4k + j]` (R33). -/
def txByte (s : State) (k : BitVec 6) (j : Fin 4) : Byte := s.txBuf[4 * k.toNat + j.val]'(bufIndex_lt k j)

/-- The four bytes of word k of TX_BUF replaced by the bytes of v (R33). -/
def storeTxWord (k : BitVec 6) (v : Word) (buf : Vector Byte 256) : Vector Byte 256 :=
  (((buf.set (4 * k.toNat + 0) (wordByte v 0) (bufIndex_lt k 0)).set
    (4 * k.toNat + 1) (wordByte v 1) (bufIndex_lt k 1)).set
    (4 * k.toNat + 2) (wordByte v 2) (bufIndex_lt k 2)).set
    (4 * k.toNat + 3) (wordByte v 3) (bufIndex_lt k 3)

/-- Byte i of MSG_BUF: the pending message's payload byte, and 0 past its length or with nothing pending (R34). -/
def msgByte (s : State) (i : Nat) : Byte :=
  if s.msgPending && decide (i < s.msg.length.toNat) then byteAt s.msg.payload i else 0

/-! ## What a register reads as -/

/-- The value of a register (R60; 10_state.md R23 to R35). A read of the write-only CMD is 0 (R24, R65). -/
def csrValue (r : Csr) (s : State) : Word :=
  match r with
  | .station => s.station.setWidth 32
  | .cmd => 0
  | .status => statusWord s
  | .cmdResult => (cmdResultCode s.cmdResult).setWidth 32
  | .timeout => s.timeout
  | .txLen => s.txLen.setWidth 32
  | .errLast => (flowErrorCode s.errLast).setWidth 32
  | .errCount => s.errCount
  | .msgInfo => if s.msgPending then packWord s.msg.dest s.msg.orig s.msg.cmd s.msg.length else 0
  | .msgHid => if s.msgPending then s.msgHid.setWidth 32 else 0
  | .txBuf k => packWord (txByte s k 0) (txByte s k 1) (txByte s k 2) (txByte s k 3)
  | .msgBuf k =>
    packWord (msgByte s (4 * k.toNat)) (msgByte s (4 * k.toNat + 1)) (msgByte s (4 * k.toNat + 2))
      (msgByte s (4 * k.toNat + 3))
  | .reg c => ((regKindCode (regEntry s c).kind) ++ (regEntry s c).hid : BitVec 10).setWidth 32

/-- `CsrRead(addr) -> (data, ok)` (R60): a read changes no state, and a bus error reads 0. -/
def csrRead (addr : CsrAddr) (width : AccessWidth) (s : State) : Word × Bool :=
  match csrOfAccess addr width with
  | none => (0, false)
  | some r => (csrValue r s, true)

/-! ## What a write stores -/

/-- The store of a write to a register other than CMD (R66): TIMEOUT always, TX_LEN and TX_BUF only when no host frame
is pending, the read-only registers never (R65). -/
def csrStore (r : Csr) (v : Word) (s : State) : State :=
  match r with
  | .station => s
  | .cmd => s
  | .status => s
  | .cmdResult => s
  | .timeout => { s with timeout := v }
  | .txLen => if s.hostTxPend then s else { s with txLen := wordByte v 0 }
  | .errLast => s
  | .errCount => s
  | .msgInfo => s
  | .msgHid => s
  | .txBuf k => if s.hostTxPend then s else { s with txBuf := storeTxWord k v s.txBuf }
  | .msgBuf _ => s
  | .reg _ => s

end Sys2Proof.Machine
end

