-- ==== Sys2Proof/Machine/HostCommand.lean ====
section
/-! DEFINITION. The meanings of the host commands (42_station_engine.md R179 to R186). -/

namespace Sys2Proof.Machine

/-- The head of `HostCommand(w)` for a legal OP (R179): in FATAL the command is refused and nothing else happens (R244). -/
def legalCommand (body : State → State) (s : State) : Host.Outcome State Fault Refusal :=
  if s.fatal then .next (setResult .fatal s) else .next (body s)

/-- The request of a host frame (R183): BUSY while one is pending, else DEST and CMD are latched. -/
def requestHostFrame (cmd dest : Byte) (s : State) : State :=
  if s.hostTxPend then setResult .busy s
  else setResult .ok { s with hostTxPend := true, hostTxDest := dest, hostTxCmd := cmd }

/-- START (R180). -/
def execStart (s : State) : Host.Outcome State Fault Refusal :=
  legalCommand
    (fun s => if s.rxState ≠ .stopped then setResult .busy s else setResult .ok (loopTop s)) s

/-- CANCEL (R181). -/
def execCancel (s : State) : Host.Outcome State Fault Refusal :=
  legalCommand
    (fun s => if s.rxState = .stopped then setResult .ok s else setResult .ok { s with cancelReq := true }) s

/-- REGISTER (R182): K = 01 EXTERNAL with the handler id, K = 10 BUILTIN_PING, 00 and 11 ILLEGAL (R93). -/
def execRegister (code hid : Byte) (kind : BitVec 2) (s : State) : Host.Outcome State Fault Refusal :=
  legalCommand
    (fun s =>
      if kind = 1 then setResult .ok (setRegEntry code { kind := .external, hid := hid } s)
      else if kind = 2 then setResult .ok (setRegEntry code { kind := .builtinPing, hid := 0 } s)
      else setResult .illegal s) s

/-- SEND (R183). -/
def execSend (cmd dest : Byte) (s : State) : Host.Outcome State Fault Refusal :=
  legalCommand (requestHostFrame cmd dest) s

/-- BROADCAST (R184): SEND with DEST = 0x00. -/
def execBroadcast (cmd : Byte) (s : State) : Host.Outcome State Fault Refusal :=
  legalCommand (requestHostFrame cmd Frame.broadcast) s

/-- MSG_DONE (R185): the host's return from an external handler. -/
def execMsgDone (s : State) : Host.Outcome State Fault Refusal :=
  legalCommand
    (fun s => if s.msgPending then setResult .ok (returnFromHandler s) else setResult .illegal s) s

/-- A reserved OP (R186): ILLEGAL "and has no other effect, whatever fatal holds". -/
def execReservedOp (_op : Byte) (s : State) : Host.Outcome State Fault Refusal :=
  .next (setResult .illegal s)

end Sys2Proof.Machine
end

