-- ==== Sys2Proof/Machine/Receive.lean ====
section
/-! DEFINITION. The meanings of the received-frame classes (42_station_engine.md R173 to R177, 43_ping_responder.md R220): what a frame that passed every check does. The registry entry of its CMD byte decides, for every class alike (R95). -/

namespace Sys2Proof.Machine

/-- RX_PING, a frame with CMD 0x05: at the reset registry the Ping Responder answers it (R220); once the host has
registered 0x05 otherwise, that entry decides (R225). -/
def execRxPing (dest orig : Byte) (payload : List Byte) (s : State) : Host.Outcome State Fault Refusal :=
  .next (receiveMessage (Message.of dest orig Frame.ping payload) s)

/-- RX_PONG, a frame with CMD 0x06: dropped at the reset registry (R175), handed to the host once registered (R182). -/
def execRxPong (dest orig : Byte) (payload : List Byte) (s : State) : Host.Outcome State Fault Refusal :=
  .next (receiveMessage (Message.of dest orig Frame.pong payload) s)

/-- RX_APP, a frame with any other CMD (R174). -/
def execRxApp (dest orig cmd : Byte) (payload : List Byte) (s : State) : Host.Outcome State Fault Refusal :=
  .next (receiveMessage (Message.of dest orig cmd payload) s)

end Sys2Proof.Machine
end

