-- ==== Sys2Proof/Machine/Dispatch.lean ====
section
/-! DEFINITION. exec: one arm per constructor of Instr, each one direct call of its meaning. -/

namespace Sys2Proof.Machine

def exec (i : Instr) (s : State) : Host.Outcome State Fault Refusal :=
  match i with
  -- host commands (42_station_engine.md R180 to R186)
  | .start => Sys2Proof.Machine.execStart s
  | .cancel => Sys2Proof.Machine.execCancel s
  | .register code hid kind => Sys2Proof.Machine.execRegister code hid kind s
  | .send cmd dest => Sys2Proof.Machine.execSend cmd dest s
  | .broadcast cmd => Sys2Proof.Machine.execBroadcast cmd s
  | .msgDone => Sys2Proof.Machine.execMsgDone s
  | .reservedOp op => Sys2Proof.Machine.execReservedOp op s
  -- received frames (42_station_engine.md R174 to R177, 43_ping_responder.md R220)
  | .rxPing dest orig payload => Sys2Proof.Machine.execRxPing dest orig payload s
  | .rxPong dest orig payload => Sys2Proof.Machine.execRxPong dest orig payload s
  | .rxApp dest orig cmd payload => Sys2Proof.Machine.execRxApp dest orig cmd payload s

end Sys2Proof.Machine
end

