-- ==== Sys2Proof/Machine/Engine.lean ====
section
/-! DEFINITION. The agents' turns: the host at the register port (20_memory.md), the receive engine (41_reassembly.md), the transmit engine (42_station_engine.md R200 to R203), reset (R270); and how an instruction comes to be the next one run. -/

namespace Sys2Proof.Machine

/-! ## The environment's next input, and a free value once its list is used up (log 6) -/

def nextTurn (s : State) : Turn := s.schedule.head?.getD (Config.freeTurn s.draws)
def nextHost (s : State) : HostStmt := s.hostProgram.head?.getD (Config.freeHost s.draws)
def nextRx (s : State) : RxOutcome := s.rxIn.head?.getD (Config.freeRx s.draws)
def nextTx (s : State) : TxOutcome := s.txIn.head?.getD (Config.freeTx s.draws)

/-- What every step does around its turn: the turn is taken off the schedule, the error pulse of the step before ends
(R48: "high for the one step in which an error is reported"). -/
def beginStep (s : State) : State := { s with schedule := s.schedule.tail, errPulse := none }

/-- The draw index moves on, so that every step reads fresh free values (log 26). -/
def endStep (s : State) : State := { s with draws := s.draws + 1 }

def popHost (s : State) : State := { s with hostProgram := s.hostProgram.tail }
def popRx (s : State) : State := { s with rxIn := s.rxIn.tail }
def popTx (s : State) : State := { s with txIn := s.txIn.tail }

/-! ## The host -/

/-- One access at the register port: `CsrRead` (R60) or `CsrWrite` (R61). A write to CMD performs the host command its
word encodes (R66, R179); an access that is not legal or not mapped is a bus error and changes nothing (R62, R64). -/
def hostAccess (a : HostAccess) (s : State) : Host.Outcome State Fault Refusal :=
  match a with
  | .read addr width => .next (respond (.read (csrRead addr width s).1 (csrRead addr width s).2) s)
  | .write addr width v =>
    match csrOfAccess addr width with
    | none => .next (respond (.write false) s)
    | some .cmd => afterNext (respond (.write true)) (exec (decodeCommand v) s)
    | some r => .next (respond (.write true) (csrStore r v s))

/-- `POLL off, mask, value` (R96): one read of off; the statement is repeated until `(data & mask) = value` (log 14). -/
def hostPoll (addr : CsrAddr) (mask value : Word) (s : State) : State :=
  let s' := respond (.read (csrRead addr .w32 s).1 (csrRead addr .w32 s).2) s
  if (csrRead addr .w32 s).1 &&& mask = value then s'
  else { s' with hostProgram := .poll addr mask value :: s'.hostProgram }

/-- One step of the host. -/
def hostTurn (s : State) : Host.Outcome State Fault Refusal :=
  match nextHost s with
  | .access a => hostAccess a (popHost s)
  | .poll addr mask value => .next (hostPoll addr mask value (popHost s))

/-! ## The receive engine -/

/-- The retry condition (R154): "last byte is EOT-valued AND error is BAD_LEN_FIELD/TOO_SHORT". -/
def retryNeeded (e : FlowError) (last : Byte) : Bool :=
  (e == .badLenField || e == .tooShortMsg) && last == Frame.eot

/-- `Evaluate()` (R153): decode the cycle's buffer; a Message is the received-frame instruction of its CMD byte. -/
def evaluate (s : State) : Host.Outcome State Fault Refusal :=
  match Frame.decode s.rxBuf s.rxOver s.station with
  | .ok m => exec (Instr.ofMessage m) s
  | .error e =>
    if retryNeeded e s.rxLast then
      .next { s with rxPendErr := e, rxNew := false, rxState := .readCont }
    else .next (loopTop (reportError e s))

/-- A received byte: it is appended, and an EOT byte ends the bounded read (R142, R151, R155). -/
def byteRead (b : Byte) (s : State) : Host.Outcome State Fault Refusal :=
  if b = Frame.eot then evaluate (appendByte b s) else .next (appendByte b s)

/-- A bounded read that ends on Timeout or EndOfStream: in READ_FIRST an empty cycle is idle (R152); in READ_CONT a
read that brought no byte is exhausted and its pending error is reported (R156). -/
def readEnded (s : State) : Host.Outcome State Fault Refusal :=
  if s.rxState = .readCont then
    if s.rxNew then evaluate s else .next (loopTop (reportError s.rxPendErr s))
  else if s.rxBuf.length = 0 && !s.rxOver then .next (loopTop s)
  else evaluate s

/-- The effect of one `TransportRead` outcome in READ_FIRST or READ_CONT (R144, R145, R151, R152, R155, R156). -/
def readOutcome (o : RxOutcome) (s : State) : Host.Outcome State Fault Refusal :=
  match o with
  | .byte b => byteRead b (if s.rxState = .readCont then { s with rxNew := true } else s)
  | .timeout => readEnded s
  | .endOfStream => readEnded s
  | .fault => .next (rxFaultEntry s)

/-- One step of the receive engine. It reads the transport only in READ_FIRST and READ_CONT (R140); in DISPATCH_PING it
resumes once the PONG has been written (R222); otherwise it is not enabled and nothing happens (log 7). -/
def receiveTurn (s : State) : Host.Outcome State Fault Refusal :=
  if rxReading s.rxState then readOutcome (nextRx s) (popRx s)
  else if s.rxState = .dispatchPing ∧ s.pongReq = false ∧ s.fatal = false then .next (loopTop s)
  else .next s

/-! ## The transmit engine -/

/-- The frame a transmit step writes (R201): none when it is not enabled; either one when both are pending (R202). -/
def chooseSource (first : TxSource) (s : State) : Option TxSource :=
  if s.fatal then none
  else if s.hostTxPend && s.pongReq then some first
  else if s.hostTxPend then some .host
  else if s.pongReq then some .pong
  else none

/-- The frame of a source (R201, R221): ORIG is this station. -/
def frameOf (src : TxSource) (s : State) : List Byte :=
  match src with
  | .host => Frame.encode s.hostTxDest s.station s.hostTxCmd (hostPayload s)
  | .pong => Frame.encode s.pongDest s.station Frame.pong []

/-- The request of a source ends (R201). -/
def clearSource (src : TxSource) (s : State) : State :=
  match src with
  | .host => { s with hostTxPend := false }
  | .pong => { s with pongReq := false }

/-- One `TransportWrite` of the source's frame, its trace entry and its outcome (R201). -/
def writeFrame (src : TxSource) (r : TxOutcome) (s : State) : State :=
  let s' := { s with txTrace := s.txTrace ++ [(frameOf src s, r)] }
  match r with
  | .ok => clearSource src s'
  | .fault => raiseFatal .txFault s'

/-- One step of the transmit engine; not enabled, nothing happens (log 7). -/
def transmitTurn (first : TxSource) (s : State) : State :=
  match chooseSource first s with
  | none => s
  | some src => writeFrame src (nextTx s) (popTx s)

/-! ## A turn -/

/-- The step of the agent whose turn it is. A reset with the strap at 0 is refused (R10, log 12). -/
def runTurn (t : Turn) (s : State) : Host.Outcome State Fault Refusal :=
  match t with
  | .host => hostTurn s
  | .receive => receiveTurn s
  | .transmit first => .next (transmitTurn first s)
  | .reset p => if p.station = 0 then .refused .stationZero else .next (resetBlock p s)

/-- A whole step: the turn, with the bookkeeping around it. -/
def stepTurn (s : State) : Host.Outcome State Fault Refusal :=
  afterNext endStep (runTurn (nextTurn s) (beginStep s))

/-! ## How an instruction comes to be the next one run (log 10) -/

/-- A command word: the host's next statement is its write to CMD, and the next turn is the host's. -/
def placeCommand (w : Word) (s : State) : State :=
  { s with
    schedule := .host :: s.schedule
    hostProgram := .access (.write 0x004 .w32 w) :: s.hostProgram }

/-- A frame: the receive engine is reading and has received all of it but its last byte, which is the next read's
outcome, and the next turn is the receive engine's. -/
def placeFrame (bytes : List Byte) (s : State) : State :=
  { s with
    schedule := .receive :: s.schedule
    rxIn := bytes.getLast?.toList.map RxOutcome.byte ++ s.rxIn
    rxState := if rxReading s.rxState then s.rxState else .readFirst
    rxBuf := bytes.dropLast
    rxOver := false }

/-- Places the instruction of a code. -/
def placeCode (c : Code) (s : State) : State :=
  match c with
  | .command w => placeCommand w s
  | .frame bytes => placeFrame bytes s

end Sys2Proof.Machine
end

