-- ==== Sys2Proof/Machine/Step.lean ====
section
/-! DEFINITION. step: one atomic step of one agent (00_scope.md R16); and the placing of a table word as the next instruction. -/

namespace Sys2Proof.Machine

/-- One step of the block (R16, R71). -/
def step (s : State) : Host.Outcome State Fault Refusal := stepTurn s

/-- s with the instruction of the table word w where the next step runs it (log 9, log 10). -/
def State.withFetchWord (s : State) (nbits w : Nat) : State :=
  match tableCode nbits w with
  | none => s
  | some c => placeCode c s

end Sys2Proof.Machine
end

