-- ==== Sys2Proof/Machine/Assembler.lean ====
section
/-! DEFINITION. The host's assembly notation, its pseudo-instructions and the stimulus notation (30_encoding.md R96 to R98): functions that build host statements and transport outcomes. -/

namespace Sys2Proof.Machine

/-! ## Statements (R96) -/

/-- `WR off, value`. -/
def asmWr (off : CsrAddr) (value : Word) : HostStmt := .access (.write off .w32 value)
/-- `RD off`. -/
def asmRd (off : CsrAddr) : HostStmt := .access (.read off .w32)
/-- `POLL off, mask, value`. -/
def asmPoll (off : CsrAddr) (mask value : Word) : HostStmt := .poll off mask value

/-- A write to `CMD`, offset 0x004. -/
def asmCmd (w : Word) : HostStmt := asmWr 0x004 w

def asmStart : HostStmt := asmCmd 0x00000001
def asmCancel : HostStmt := asmCmd 0x00000002
/-- `REGISTER code, EXT, hid`: `0x01000003 | code<<8 | hid<<16`. -/
def asmRegisterExt (code hid : Byte) : HostStmt :=
  asmCmd (0x01000003 ||| code.setWidth 32 <<< 8 ||| hid.setWidth 32 <<< 16)
/-- `REGISTER code, PING`: `0x02000003 | code<<8`. -/
def asmRegisterPing (code : Byte) : HostStmt := asmCmd (0x02000003 ||| code.setWidth 32 <<< 8)
/-- `SEND dest, cmd`: `0x00000004 | cmd<<8 | dest<<16`. -/
def asmSend (dest cmd : Byte) : HostStmt :=
  asmCmd (0x00000004 ||| cmd.setWidth 32 <<< 8 ||| dest.setWidth 32 <<< 16)
/-- `BROADCAST cmd`: `0x00000005 | cmd<<8`. -/
def asmBroadcast (cmd : Byte) : HostStmt := asmCmd (0x00000005 ||| cmd.setWidth 32 <<< 8)
def asmMsgDone : HostStmt := asmCmd 0x00000006

/-! ## Pseudo-instructions (R97) -/

/-- Word k of a payload, `b(4k) | b(4k+1)<<8 | b(4k+2)<<16 | b(4k+3)<<24`, missing bytes 0. -/
def asmPayloadWord (bytes : List Byte) (k : Nat) : Word :=
  (bytes.getD (4 * k) 0).setWidth 32 ||| (bytes.getD (4 * k + 1) 0).setWidth 32 <<< 8
    ||| (bytes.getD (4 * k + 2) 0).setWidth 32 <<< 16 ||| (bytes.getD (4 * k + 3) 0).setWidth 32 <<< 24

/-- `LOADTX b0, ..., b(n-1)`: TX_LEN, then each word k with 4k < n. -/
def asmLoadTx (bytes : List Byte) : List HostStmt :=
  asmWr 0x014 (BitVec.ofNat 32 bytes.length)
    :: (List.range ((bytes.length + 3) / 4)).map
        (fun k => asmWr (0x100 + BitVec.ofNat 12 (4 * k)) (asmPayloadWord bytes k))

/-- `WAITMSG`. -/
def asmWaitMsg : HostStmt := asmPoll 0x008 0x4 0x4
/-- `WAITTX`. -/
def asmWaitTx : HostStmt := asmPoll 0x008 0x8 0x0
/-- `SENDP dest, cmd, b0, ..., b(n-1)`. -/
def asmSendP (dest cmd : Byte) (bytes : List Byte) : List HostStmt :=
  asmWaitTx :: asmLoadTx bytes ++ [asmSend dest cmd]
/-- `PING dest`. -/
def asmPing (dest : Byte) : List HostStmt := asmWaitTx :: asmLoadTx [] ++ [asmSend dest 0x05]

/-! ## Stimulus (R98) -/

/-- `rx: b0 b1 ...` "delivers those bytes to successive TransportReads". -/
def stimRx (bytes : List Byte) : List RxOutcome := bytes.map .byte

end Sys2Proof.Machine
end

