-- ==== Sys2Proof/Safety.lean ====
section
/-! DEFINITION. The terms claims are stated in: the invariant of R50, the account of the error trace, turns that are not a reset, and the source's receive loop over a buffer without a bound, which R159 compares the block with. -/

namespace Sys2Proof.Machine

/-- What every reachable state satisfies (R50, with R10, R35, R38, R135). -/
structure State.Inv (s : State) : Prop where
  /-- "no station may claim" 0 (R10). -/
  station_ne_zero : s.station ≠ 0
  /-- `msg_pending = 1` iff `rx_state = DISPATCH_EXT`. -/
  pending_iff_dispatchExt : s.msgPending = true ↔ s.rxState = .dispatchExt
  /-- `pong_req = 1` implies `rx_state = DISPATCH_PING`. -/
  pong_in_dispatchPing : s.pongReq = true → s.rxState = .dispatchPing
  /-- `fatal = 1` iff `rx_state = FATAL`. -/
  fatal_iff_state : s.fatal = true ↔ s.rxState = .fatal
  /-- `fatal = 1` implies no request is left. -/
  fatal_clears : s.fatal = true →
    s.hostTxPend = false ∧ s.pongReq = false ∧ s.msgPending = false ∧ s.cancelReq = false
  /-- `cancel_req = 1` implies RUNNING. -/
  cancel_running : s.cancelReq = true → rxRunning s.rxState = true
  /-- `|rx_buf|` is at most 264 (R38). -/
  buf_bounded : s.rxBuf.length ≤ 264
  /-- `rx_over = 1` implies `|rx_buf| = 264`. -/
  over_full : s.rxOver = true → s.rxBuf.length = 264
  /-- `rx_last` is the last byte received, kept or not (R39). -/
  last_byte : s.rxOver = false → s.rxBuf ≠ [] → s.rxBuf.getLast? = some s.rxLast
  /-- In READ_CONT the pending error is TOO_SHORT_MSG or BAD_LEN_FIELD, and the cycle has a byte. -/
  cont_pending : s.rxState = .readCont →
    (s.rxPendErr = .tooShortMsg ∨ s.rxPendErr = .badLenField) ∧ 1 ≤ s.rxBuf.length + s.rxOver.toNat
  /-- In READ_CONT `rx_new = 0` "or the cycle received a byte in this continuation read". An EOT ends every bounded read
  (R142), so the bytes of this read are those after the last EOT: it has brought one exactly when the last byte of the
  cycle is no EOT (R156), and then the cycle holds that byte and the EOT before it. -/
  cont_new : s.rxState = .readCont →
    (s.rxNew = true ↔ s.rxLast ≠ 0x04) ∧ (s.rxNew = true → 2 ≤ s.rxBuf.length + s.rxOver.toNat)
  /-- "HID: handler id, meaningful when KIND = 01; 0 otherwise" (R35). -/
  hid_zero : ∀ c : Byte, (regEntry s c).kind ≠ .external → (regEntry s c).hid = 0
  /-- The pending message is one decode produced (R135). -/
  msg_fields : s.msgPending = true →
    s.msg.payload.length = s.msg.length.toNat ∧ (s.msg.dest = s.station ∨ s.msg.dest = 0)

/-- ERR_COUNT is the number of reports since reset modulo 2^32, ERR_LAST the last of them (R29, R30, R236). -/
structure State.ErrInv (s : State) : Prop where
  count_is_length : s.errCount = BitVec.ofNat 32 s.errTrace.length
  last_is_last : s.errLast = s.errTrace.getLast?.getD .noError

/-- s with other transport outcomes to come: what a step that makes no transport access cannot tell apart. -/
def State.withTransport (rx : List RxOutcome) (tx : List TxOutcome) (s : State) : State :=
  { s with rxIn := rx, txIn := tx }

/-- The turn is no reset. -/
def Turn.running : Turn → Bool
  | .host => true
  | .receive => true
  | .transmit _ => true
  | .reset _ => false

/-- The instruction is one of the seven host commands. -/
def isHostCommand : Instr → Bool
  | .start => true
  | .cancel => true
  | .register _ _ _ => true
  | .send _ _ => true
  | .broadcast _ => true
  | .msgDone => true
  | .reservedOp _ => true
  | .rxPing _ _ _ => false
  | .rxPong _ _ _ => false
  | .rxApp _ _ _ _ => false

/-- A byte with bit k inverted (R134). -/
def flipBit (b : Byte) (k : Nat) : Byte := b ^^^ ((1 : Byte) <<< k)

/-- The sum of R111 computed "as an 8-bit sum that wraps modulo 256 after every addition". -/
def wrappingChecksum (dest orig cmd len : Byte) (payload : List Byte) : Byte :=
  payload.foldl (fun acc b => acc + b) (dest + orig + cmd + len)

/-- The error codes Decode can return (R132). -/
def decodeErrors : List FlowError :=
  [.tooShortMsg, .badLenField, .wrongDestStation, .missingSoh, .missingStx, .missingEtx, .missingEot, .badChecksum]

/-! ## The source's loop, with no bound on the buffer (R159)

`rx_buf` here is the source's own buffer: every byte is kept and `rx_over` is never set. -/

/-- "read more bytes, append": without a limit. -/
def unboundedAppend (b : Byte) (s : State) : State := { s with rxBuf := s.rxBuf ++ [b], rxLast := b }

/-- Decode the whole buffer; the policy of R153. -/
def unboundedEvaluate (s : State) : State :=
  match Frame.decode s.rxBuf false s.station with
  | .ok m => dispatch m s
  | .error e =>
    if retryNeeded e s.rxLast then { s with rxPendErr := e, rxNew := false, rxState := .readCont }
    else loopTop (reportError e s)

/-- The end of a bounded read without an EOT (R152, R156). -/
def unboundedReadEnded (s : State) : State :=
  if s.rxState = .readCont then
    if s.rxNew then unboundedEvaluate s else loopTop (reportError s.rxPendErr s)
  else if s.rxBuf.length = 0 then loopTop s
  else unboundedEvaluate s

/-- One transport outcome; an engine that is not reading takes none. -/
def unboundedRead (s : State) (o : RxOutcome) : State :=
  if rxReading s.rxState then
    match o with
    | .byte b =>
      let s' := unboundedAppend b (if s.rxState = .readCont then { s with rxNew := true } else s)
      if b = Frame.eot then unboundedEvaluate s' else s'
    | .timeout => unboundedReadEnded s
    | .endOfStream => unboundedReadEnded s
    | .fault => rxFaultEntry s
  else s

/-- The block's own receive engine on one transport outcome. -/
def boundedRead (s : State) (o : RxOutcome) : State :=
  if rxReading s.rxState then
    match readOutcome o s with
    | .next t => t
    | .fault _ => s
    | .refused _ => s
  else s

end Sys2Proof.Machine
end

