-- ==== Sys2Proof/Certificates/Slice0/Obligations.lean ====
section
/-! DEFINITION. The statements about this block, made from the numbered rules of spec/. Each docstring names the rule. -/

open Sys2Proof Sys2Proof.Machine

/-! ## Encodings and the codec -/

/-- Words written out from R81, R91, R96 decode to the instructions they stand for, one or more per family. -/
def Obligations.SampleWordsDecode : Prop :=
  decodeCommand 0x00000001 = .start ∧ decodeCommand 0x00000002 = .cancel ∧
  decodeCommand 0x01074403 = .register 0x44 0x07 1 ∧ decodeCommand 0x02002003 = .register 0x20 0x00 2 ∧
  decodeCommand 0x00424804 = .send 0x48 0x42 ∧ decodeCommand 0x00004105 = .broadcast 0x41 ∧
  decodeCommand 0x00000006 = .msgDone ∧ decodeCommand 0x00000007 = .reservedOp 0x07 ∧
  decode 0x42 (.frame [0x01, 0x42, 0x41, 0x05, 0x00, 0x02, 0x03, 0x88, 0x04]) = .ok (.rxPing 0x42 0x41 []) ∧
  decode 0x42 (.frame [0x01, 0x42, 0x41, 0x06, 0x00, 0x02, 0x03, 0x89, 0x04]) = .ok (.rxPong 0x42 0x41 []) ∧
  decode 0x42 (.frame [0x01, 0x42, 0x41, 0x48, 0x02, 0x02, 0x48, 0x69, 0x03, 0x7E, 0x04])
    = .ok (.rxApp 0x42 0x41 0x48 [0x48, 0x69])

/-- R92: bits a command does not use are ignored. -/
def Obligations.UnusedCommandBitsIgnored : Prop :=
  ∀ w x : Word,
    (w.extractLsb' 0 8 = x.extractLsb' 0 8 →
      (Cmd.op w = 0x01 ∨ Cmd.op w = 0x02 ∨ Cmd.op w = 0x06) → decodeCommand w = decodeCommand x) ∧
    (w.extractLsb' 0 24 = x.extractLsb' 0 24 → Cmd.op w = 0x04 → decodeCommand w = decodeCommand x) ∧
    (w.extractLsb' 0 16 = x.extractLsb' 0 16 → Cmd.op w = 0x05 → decodeCommand w = decodeCommand x) ∧
    (w.extractLsb' 0 26 = x.extractLsb' 0 26 → Cmd.op w = 0x03 → decodeCommand w = decodeCommand x)

/-- Decode of the encoding of a well-formed instruction is that instruction, at every value of every operand, for a
station the frame is addressed to (R90 to R92, R80, R133). -/
def Obligations.DecodeOfEncodeIsTheInstruction : Prop :=
  ∀ (i : Instr) (st : Byte), i.wellFormed = true → i.addressedTo st = true → decode st (encode i) = .ok i

/-- R133, both halves. -/
def Obligations.FrameRoundTrip : Prop :=
  ∀ (d o c st : Byte) (p : List Byte), p.length ≤ 255 →
    ((d = st ∨ d = 0x00) → Frame.decode (Frame.encode d o c p) false st
      = .ok { dest := d, orig := o, cmd := c, length := BitVec.ofNat 8 p.length, payload := p }) ∧
    (¬ (d = st ∨ d = 0x00) → Frame.decode (Frame.encode d o c p) false st = .error .wrongDestStation)

/-- R134: the outcome of each single-bit corruption of a valid frame. -/
def Obligations.SingleBitFlipOutcome : Prop :=
  ∀ (st d o c : Byte) (p : List Byte) (i k : Nat),
    p.length ≤ 255 → (d = st ∨ d = 0x00) → i < 9 + p.length → k < 8 →
    Frame.decode
        ((Frame.encode d o c p).set i (flipBit (byteAt (Frame.encode d o c p) i) k)) false st
      = .error (
          if i = 0 then .missingSoh
          else if i = 1 then
            (if flipBit d k ≠ st ∧ flipBit d k ≠ 0x00 then .wrongDestStation else .badChecksum)
          else if i = 4 then .badLenField
          else if i = 5 then .missingStx
          else if i = 6 + p.length then .missingEtx
          else if i = 8 + p.length then .missingEot
          else .badChecksum)

/-- R111: the exact sum fits 17 bits, and the wrapping 8-bit sum gives the same checksum. -/
def Obligations.ChecksumMayWrapAtEachAddition : Prop :=
  ∀ (d o c l : Byte) (p : List Byte),
    checksum d o c l p = wrappingChecksum d o c l p ∧
    (p.length ≤ 255 → checksumSum d o c l p ≤ 66045)

/-- R114: the layout of every output of Encode. -/
def Obligations.EncodeLayout : Prop :=
  ∀ (d o c : Byte) (p : List Byte), p.length ≤ 255 →
    (Frame.encode d o c p).length = 9 + p.length ∧
    byteAt (Frame.encode d o c p) 4 = BitVec.ofNat 8 p.length ∧
    byteAt (Frame.encode d o c p) (6 + p.length) = 0x03 ∧
    byteAt (Frame.encode d o c p) (8 + p.length) = 0x04 ∧
    byteAt (Frame.encode d o c p) (7 + p.length) = checksum d o c (BitVec.ofNat 8 p.length) p ∧
    (Frame.encode d o c p).getLast? = some 0x04

/-- R121 to R128: the checks in order, each under the premise that the earlier ones passed, and R131's Message when all
passed; R130: an overlong buffer, and the source's decode of any buffer longer than 264 bytes. -/
def Obligations.DecodeChecksInOrder : Prop :=
  ∀ (buf : List Byte) (st : Byte),
    Frame.decode buf true st = .error .badLenField ∧
    (264 < buf.length → Frame.decode buf false st = .error .badLenField) ∧
    (buf.length < 9 → Frame.decode buf false st = .error .tooShortMsg) ∧
    (9 ≤ buf.length →
      (buf.length ≠ 9 + (byteAt buf 4).toNat → Frame.decode buf false st = .error .badLenField) ∧
      (buf.length = 9 + (byteAt buf 4).toNat →
        (byteAt buf 1 ≠ st ∧ byteAt buf 1 ≠ 0x00 → Frame.decode buf false st = .error .wrongDestStation) ∧
        (byteAt buf 1 = st ∨ byteAt buf 1 = 0x00 →
          (byteAt buf 0 ≠ 0x01 → Frame.decode buf false st = .error .missingSoh) ∧
          (byteAt buf 0 = 0x01 →
            (byteAt buf 5 ≠ 0x02 → Frame.decode buf false st = .error .missingStx) ∧
            (byteAt buf 5 = 0x02 →
              (byteAt buf (6 + (byteAt buf 4).toNat) ≠ 0x03 →
                Frame.decode buf false st = .error .missingEtx) ∧
              (byteAt buf (6 + (byteAt buf 4).toNat) = 0x03 →
                (byteAt buf (8 + (byteAt buf 4).toNat) ≠ 0x04 →
                  Frame.decode buf false st = .error .missingEot) ∧
                (byteAt buf (8 + (byteAt buf 4).toNat) = 0x04 →
                  Frame.decode buf false st =
                    if checksum (byteAt buf 1) (byteAt buf 2) (byteAt buf 3) (byteAt buf 4)
                        ((buf.drop 6).take (byteAt buf 4).toNat) ≠ byteAt buf (buf.length - 2)
                    then .error .badChecksum
                    else .ok
                      { dest := byteAt buf 1, orig := byteAt buf 2, cmd := byteAt buf 3, length := byteAt buf 4
                        payload := (buf.drop 6).take (byteAt buf 4).toNat })))))))

/-- R132: the codes Decode can return, and that it can return each of them. -/
def Obligations.DecodeReturnsOnlyItsCodes : Prop :=
  (∀ (buf : List Byte) (ov : Bool) (st : Byte) (e : FlowError),
    Frame.decode buf ov st = .error e → e ∈ decodeErrors) ∧
  (∀ (st : Byte) (e : FlowError), e ∈ decodeErrors → ∃ buf, Frame.decode buf false st = .error e) ∧
  (∀ st : Byte, ∃ buf m, Frame.decode buf false st = .ok m)

/-- R135: the ranges of a decoded Message's fields. -/
def Obligations.DecodedMessageRanges : Prop :=
  (∀ (buf : List Byte) (ov : Bool) (st : Byte) (m : Message), Frame.decode buf ov st = .ok m →
    (m.dest = st ∨ m.dest = 0x00) ∧ m.length.toNat ≤ 255 ∧ m.payload.length = m.length.toNat) ∧
  (∀ (st o c : Byte), ∃ buf m, Frame.decode buf false st = .ok m ∧ m.orig = o ∧ m.cmd = c)

/-! ## Host commands: result, completion and frame in one equality -/

/-- R180: START. The last clause but one is LoopTop's other branch, in a state no run reaches. -/
def Obligations.StartOutcome : Prop :=
  (∀ s : State,
    (s.fatal = true → exec .start s = .next { s with cmdResult := .fatal }) ∧
    (s.fatal = false → s.rxState ≠ .stopped → exec .start s = .next { s with cmdResult := .busy }) ∧
    (s.fatal = false → s.rxState = .stopped → s.cancelReq = false →
      exec .start s = .next { s with
        rxBuf := [], rxOver := false, rxNew := false, rxState := .readFirst, cmdResult := .ok }) ∧
    (s.fatal = false → s.rxState = .stopped → s.cancelReq = true →
      exec .start s = .next { s with cancelReq := false, cmdResult := .ok })) ∧
  (∀ p : ResetParams, ∃ t, exec .start (State.resetWith p) = .next t ∧
    csrValue .cmdResult t = 0 ∧ csrValue .status t = 0x00000101)

/-- R181: CANCEL, and the stop at the next LoopTop. -/
def Obligations.CancelOutcome : Prop :=
  ∀ s : State,
    (s.fatal = true → exec .cancel s = .next { s with cmdResult := .fatal }) ∧
    (s.fatal = false → s.rxState = .stopped → exec .cancel s = .next { s with cmdResult := .ok }) ∧
    (s.fatal = false → s.rxState ≠ .stopped →
      exec .cancel s = .next { s with cancelReq := true, cmdResult := .ok } ∧
      (loopTop { s with cancelReq := true, cmdResult := .ok }).rxState = .stopped ∧
      (loopTop { s with cancelReq := true, cmdResult := .ok }).cancelReq = false)

/-- R182: REGISTER writes the one entry its code names, whatever it held, or is refused. -/
def Obligations.RegisterOutcome : Prop :=
  ∀ (s : State) (a b : Byte) (k : BitVec 2),
    (s.fatal = true → exec (.register a b k) s = .next { s with cmdResult := .fatal }) ∧
    (s.fatal = false → k ≠ 1 → k ≠ 2 → exec (.register a b k) s = .next { s with cmdResult := .illegal }) ∧
    (s.fatal = false → k = 1 ∨ k = 2 → ∃ t,
      exec (.register a b k) s = .next t ∧ t = { s with regs := t.regs, cmdResult := .ok } ∧
      (k = 1 → regEntry t a = { kind := .external, hid := b } ∧ csrValue (.reg a) t = 0x00000100 ||| b.setWidth 32) ∧
      (k = 2 → regEntry t a = { kind := .builtinPing, hid := 0 } ∧ csrValue (.reg a) t = 0x00000200) ∧
      ∀ c, c ≠ a → regEntry t c = regEntry s c)

/-- R183: SEND latches the request of a host frame, or is BUSY. -/
def Obligations.SendOutcome : Prop :=
  (∀ (s : State) (cmd dest : Byte),
    (s.fatal = true → exec (.send cmd dest) s = .next { s with cmdResult := .fatal }) ∧
    (s.fatal = false → s.hostTxPend = true → exec (.send cmd dest) s = .next { s with cmdResult := .busy }) ∧
    (s.fatal = false → s.hostTxPend = false → exec (.send cmd dest) s = .next { s with
      hostTxPend := true, hostTxDest := dest, hostTxCmd := cmd, cmdResult := .ok })) ∧
  (∀ s : State, s.fatal = false → s.hostTxPend = false → s.station = 0x41 → s.txLen = 0 →
    ∃ t, exec (decodeCommand 0x00420504) s = .next t ∧
      frameOf .host t = [0x01, 0x42, 0x41, 0x05, 0x00, 0x02, 0x03, 0x88, 0x04])

/-- R184: BROADCAST is SEND with DEST 0x00, in every state. -/
def Obligations.BroadcastIsSendToZero : Prop :=
  (∀ (s : State) (cmd : Byte), exec (.broadcast cmd) s = exec (.send cmd 0x00) s) ∧
  (∀ (s : State) (cmd : Byte), s.fatal = false → s.hostTxPend = false →
    exec (.broadcast cmd) s = .next { s with
      hostTxPend := true, hostTxDest := 0x00, hostTxCmd := cmd, cmdResult := .ok }) ∧
  (∀ s : State, s.fatal = false → s.hostTxPend = false → s.station = 0x42 → s.txLen = 0 →
    ∃ t, exec (decodeCommand 0x00004105) s = .next t ∧
      frameOf .host t = [0x01, 0x00, 0x42, 0x41, 0x00, 0x02, 0x03, 0x83, 0x04])

/-- R185: MSG_DONE returns from the handler and hides the message, or is refused. -/
def Obligations.MsgDoneOutcome : Prop :=
  ∀ s : State,
    (s.fatal = true → exec .msgDone s = .next { s with cmdResult := .fatal }) ∧
    (s.fatal = false → s.msgPending = false → exec .msgDone s = .next { s with cmdResult := .illegal }) ∧
    (s.fatal = false → s.msgPending = true → ∃ t, exec .msgDone s = .next t ∧
      (s.cancelReq = false → t = { s with
        msgPending := false, rxBuf := [], rxOver := false, rxNew := false, rxState := .readFirst,
        cmdResult := .ok }) ∧
      (s.cancelReq = true → t = { s with
        msgPending := false, cancelReq := false, rxState := .stopped, cmdResult := .ok }) ∧
      csrValue .msgInfo t = 0 ∧ csrValue .msgHid t = 0 ∧ ∀ k, csrValue (.msgBuf k) t = 0)

/-- R186: a reserved OP is ILLEGAL and nothing else, whatever fatal holds. -/
def Obligations.ReservedOpIsIllegal : Prop :=
  ∀ (s : State) (w : Word), ((Cmd.op w).toNat = 0 ∨ 7 ≤ (Cmd.op w).toNat) →
    decodeCommand w = .reservedOp (Cmd.op w) ∧
    exec (decodeCommand w) s = .next { s with cmdResult := .illegal }

/-- R245, with the numbers of R26: every CMD write sets CMD_RESULT, whatever it held, and a refused command has no other
effect. -/
def Obligations.RefusedCommandOnlyWritesResult : Prop :=
  ∀ (w : Word) (s : State), ∃ t, exec (decodeCommand w) s = .next t ∧
    (∀ r, exec (decodeCommand w) { s with cmdResult := r } = .next t) ∧
    ((t.cmdResult = .ok ∧ csrValue .cmdResult t = 0) ∨ (t.cmdResult = .busy ∧ csrValue .cmdResult t = 1) ∨
      (t.cmdResult = .illegal ∧ csrValue .cmdResult t = 2) ∨ (t.cmdResult = .fatal ∧ csrValue .cmdResult t = 3)) ∧
    (t.cmdResult ≠ .ok → t = { s with cmdResult := t.cmdResult })

/-- R244: in FATAL a legal command is refused with FATAL, a reserved one with ILLEGAL, register writes store as ever, and
only reset ends it. -/
def Obligations.FatalRefusesCommandsUntilReset : Prop :=
  (∀ (w : Word) (s : State), s.fatal = true → 1 ≤ (Cmd.op w).toNat → (Cmd.op w).toNat ≤ 6 →
    exec (decodeCommand w) s = .next { s with cmdResult := .fatal }) ∧
  (∀ (w : Word) (s : State), s.fatal = true → ((Cmd.op w).toNat = 0 ∨ 7 ≤ (Cmd.op w).toNat) →
    exec (decodeCommand w) s = .next { s with cmdResult := .illegal }) ∧
  (∀ (r : Csr) (v : Word) (s : State) (f : Bool),
    csrStore r v { s with fatal := f } = { csrStore r v s with fatal := f } ∧
    (r ≠ .status → csrValue r { s with fatal := f } = csrValue r s)) ∧
  (∀ s t : State, s.fatal = true → (nextTurn s).running = true → step s = .next t → t.fatal = true)

/-- The frame of the host commands (R180 to R186): what none of them writes, and what only some of them do. -/
def Obligations.HostCommandFrame : Prop :=
  ∀ (i : Instr) (s t : State), isHostCommand i = true → exec i s = .next t →
    t.station = s.station ∧ t.timeout = s.timeout ∧ t.txLen = s.txLen ∧ t.txBuf = s.txBuf ∧
    t.errLast = s.errLast ∧ t.errCount = s.errCount ∧ t.errPulse = s.errPulse ∧
    t.rxLast = s.rxLast ∧ t.rxPendErr = s.rxPendErr ∧ t.msg = s.msg ∧ t.msgHid = s.msgHid ∧
    t.pongReq = s.pongReq ∧ t.pongDest = s.pongDest ∧ t.fatal = s.fatal ∧
    t.txTrace = s.txTrace ∧ t.errTrace = s.errTrace ∧ t.dispatchTrace = s.dispatchTrace ∧
    t.responses = s.responses ∧ t.schedule = s.schedule ∧ t.hostProgram = s.hostProgram ∧
    t.rxIn = s.rxIn ∧ t.txIn = s.txIn ∧ t.draws = s.draws ∧
    ((∀ a b k, i ≠ .register a b k) → t.regs = s.regs) ∧
    ((∀ c d, i ≠ .send c d) → (∀ c, i ≠ .broadcast c) →
      t.hostTxPend = s.hostTxPend ∧ t.hostTxDest = s.hostTxDest ∧ t.hostTxCmd = s.hostTxCmd) ∧
    (i ≠ .msgDone → t.msgPending = s.msgPending) ∧
    (i ≠ .start → i ≠ .msgDone →
      t.rxState = s.rxState ∧ t.rxBuf = s.rxBuf ∧ t.rxOver = s.rxOver ∧ t.rxNew = s.rxNew) ∧
    (i ≠ .start → i ≠ .cancel → i ≠ .msgDone → t.cancelReq = s.cancelReq)

/-! ## Received frames -/

/-- R220, R221, R224: a frame whose code's entry is BUILTIN_PING asks for a PONG to its origin, whatever its CMD and
payload; the reply is nine bytes. That an RX_APP term with CMD 5 or 6, or with a payload over 255 bytes, which no
encoding stands for, goes the same way is the model's choice (log 24). -/
def Obligations.PingIsAnsweredWithPong : Prop :=
  ∀ (s : State) (d o c : Byte) (p : List Byte),
    rxReading s.rxState = true → (d = s.station ∨ d = 0x00) →
    ((regEntry s 0x05).kind = .builtinPing → exec (.rxPing d o p) s = .next { s with
      pongReq := true, pongDest := o, rxState := .dispatchPing }) ∧
    ((regEntry s 0x06).kind = .builtinPing → exec (.rxPong d o p) s = .next { s with
      pongReq := true, pongDest := o, rxState := .dispatchPing }) ∧
    ((regEntry s c).kind = .builtinPing → exec (.rxApp d o c p) s = .next { s with
      pongReq := true, pongDest := o, rxState := .dispatchPing }) ∧
    (∀ t : State, t.pongDest = o → frameOf .pong t
      = [0x01, o, t.station, 0x06, 0x00, 0x02, 0x03, o + t.station + 0x06, 0x04])

/-- R176, with R31, R32, R34: a frame whose code's entry is EXTERNAL is handed to the host, which sees it in the message
registers; the engine then reads nothing. That its idle turn is a next state that changes nothing is the model's choice
(log 7, log 8), and so is the message of a term no encoding stands for: LEN modulo 256 for a payload over 255 bytes, an
RX_APP with CMD 5 or 6 (log 24). -/
def Obligations.ExternalFrameIsHandedToHost : Prop :=
  ∀ (s : State) (d o c : Byte) (p : List Byte) (i : Instr),
    rxReading s.rxState = true → (d = s.station ∨ d = 0x00) → (regEntry s c).kind = .external →
    ((i = .rxPing d o p ∧ c = 0x05) ∨ (i = .rxPong d o p ∧ c = 0x06) ∨ i = .rxApp d o c p) →
    ∃ t, exec i s = .next t ∧
      t = { s with
        msg := { dest := d, orig := o, cmd := c, length := BitVec.ofNat 8 p.length, payload := p }
        msgHid := (regEntry s c).hid
        msgPending := true
        dispatchTrace := s.dispatchTrace ++
          [({ dest := d, orig := o, cmd := c, length := BitVec.ofNat 8 p.length, payload := p },
            (regEntry s c).hid)]
        rxState := .dispatchExt } ∧
      csrValue .msgInfo t = packWord d o c (BitVec.ofNat 8 p.length) ∧
      csrValue .msgHid t = (regEntry s c).hid.setWidth 32 ∧
      (∀ k, csrValue (.msgBuf k) t = packWord (msgByte t (4 * k.toNat)) (msgByte t (4 * k.toNat + 1))
        (msgByte t (4 * k.toNat + 2)) (msgByte t (4 * k.toNat + 3))) ∧
      (p.length ≤ 255 → ∀ j, j < p.length → msgByte t j = byteAt p j) ∧
      (csrValue .status t).getLsbD 2 = true ∧ msgValidO t = true ∧ receiveTurn t = .next t

/-- R175: a frame whose code has no handler is dropped without a trace, and with the reset registry that is every code
but 0x05. That a term no encoding stands for (an RX_APP with CMD 5 or 6, a payload over 255 bytes) goes the same way is
the model's choice (log 24). -/
def Obligations.UnregisteredFrameIsDropped : Prop :=
  (∀ (s : State) (d o c : Byte) (p : List Byte) (i : Instr),
    rxReading s.rxState = true → (d = s.station ∨ d = 0x00) → (regEntry s c).kind = .absent →
    ((i = .rxPing d o p ∧ c = 0x05) ∨ (i = .rxPong d o p ∧ c = 0x06) ∨ i = .rxApp d o c p) →
    (s.cancelReq = false → exec i s = .next { s with
      rxBuf := [], rxOver := false, rxNew := false, rxState := .readFirst }) ∧
    (s.cancelReq = true → exec i s = .next { s with cancelReq := false, rxState := .stopped })) ∧
  (∀ (p : ResetParams) (c : Byte), c ≠ 0x05 → (regEntry (State.resetWith p) c).kind = .absent)

/-- The forms the three statements above leave: an engine that is not reading takes no byte (R140), and a frame for
another station is a WRONG_DEST_STATION report (R123, R172). That exec says so for a whole frame is the model's reading
(log 11). -/
def Obligations.FrameNotForThisMoment : Prop :=
  ∀ (s : State) (d o c : Byte) (p : List Byte) (i : Instr),
    (i = .rxPing d o p ∨ i = .rxPong d o p ∨ i = .rxApp d o c p) →
    (rxReading s.rxState = false → exec i s = .next s) ∧
    (rxReading s.rxState = true → d ≠ s.station → d ≠ 0x00 → ∃ t, exec i s = .next t ∧
      t.errLast = .wrongDestStation ∧ t.errCount = s.errCount + 1 ∧
      t.errTrace = s.errTrace ++ [.wrongDestStation] ∧ t.dispatchTrace = s.dispatchTrace ∧
      t.rxState = (if s.cancelReq then .stopped else .readFirst))

/-- The frame of the received frames: what none of the three classes writes (R174, R175, R176, R220). -/
def Obligations.ReceivedFrameFrame : Prop :=
  ∀ (i : Instr) (s t : State), isHostCommand i = false → exec i s = .next t →
    t.station = s.station ∧ t.timeout = s.timeout ∧ t.cmdResult = s.cmdResult ∧ t.txLen = s.txLen ∧
    t.txBuf = s.txBuf ∧ t.regs = s.regs ∧ t.rxLast = s.rxLast ∧ t.rxPendErr = s.rxPendErr ∧
    t.hostTxPend = s.hostTxPend ∧ t.hostTxDest = s.hostTxDest ∧ t.hostTxCmd = s.hostTxCmd ∧
    t.fatal = s.fatal ∧ t.txTrace = s.txTrace ∧ t.responses = s.responses ∧ t.schedule = s.schedule ∧
    t.hostProgram = s.hostProgram ∧ t.rxIn = s.rxIn ∧ t.txIn = s.txIn ∧ t.draws = s.draws ∧
    (t.rxState ≠ .dispatchExt ∨ s.rxState = .dispatchExt →
      t.msg = s.msg ∧ t.msgHid = s.msgHid ∧ t.msgPending = s.msgPending ∧ t.dispatchTrace = s.dispatchTrace) ∧
    (t.rxState ≠ .dispatchPing ∨ s.rxState = .dispatchPing → t.pongReq = s.pongReq ∧ t.pongDest = s.pongDest)

/-! ## The read cycle -/

/-- R153: a decoded message is dispatched in the same step. -/
def Obligations.EvaluateFollowsTheDecode : Prop :=
  ∀ s : State, rxReading s.rxState = true →
    (∀ m, Frame.decode s.rxBuf s.rxOver s.station = .ok m → evaluate s = .next (dispatch m s)) ∧
    (∀ e, Frame.decode s.rxBuf s.rxOver s.station = .error e →
      ((e = .badLenField ∨ e = .tooShortMsg) ∧ s.rxLast = 0x04 →
        evaluate s = .next { s with rxPendErr := e, rxNew := false, rxState := .readCont }) ∧
      (¬ ((e = .badLenField ∨ e = .tooShortMsg) ∧ s.rxLast = 0x04) →
        evaluate s = .next (loopTop (reportError e s))))

/-- R151, R155, R143: a byte is appended while the buffer has room, is counted always, and an EOT ends the read. -/
def Obligations.ByteIsAppendedAndEotEvaluates : Prop :=
  ∀ (s u : State) (b : Byte), rxReading s.rxState = true →
    u = { s with
      rxBuf := if s.rxBuf.length < 264 then s.rxBuf ++ [b] else s.rxBuf
      rxOver := if s.rxBuf.length < 264 then s.rxOver else true
      rxLast := b
      rxNew := if s.rxState = .readCont then true else s.rxNew } →
    (b ≠ 0x04 → readOutcome (.byte b) s = .next u) ∧ (b = 0x04 → readOutcome (.byte b) s = evaluate u)

/-- R172, R236, R238: a cycle that ends in a flow error reports it once, ERR_LAST reading its code, and goes to LoopTop;
with the codes of R231. The error outputs are as the model holds them (log 5). -/
def Obligations.FlowErrorIsReportedAndLoopGoesOn : Prop :=
  (flowErrorCode .noError = 0 ∧ flowErrorCode .badFormat = 1 ∧ flowErrorCode .voidMsg = 2 ∧
    flowErrorCode .tooShortMsg = 3 ∧ flowErrorCode .unexpectedOrigin = 4 ∧ flowErrorCode .unexpectedCmd = 5 ∧
    flowErrorCode .wrongDestStation = 6 ∧ flowErrorCode .badLenField = 7 ∧ flowErrorCode .badChecksum = 8 ∧
    flowErrorCode .missingSoh = 9 ∧ flowErrorCode .missingStx = 10 ∧ flowErrorCode .missingEtx = 11 ∧
    flowErrorCode .missingEot = 12 ∧ flowErrorCode .timeout = 13 ∧ flowErrorCode .manyRetries = 14) ∧
  ∀ (s : State) (e : FlowError), Frame.decode s.rxBuf s.rxOver s.station = .error e →
    ¬ ((e = .badLenField ∨ e = .tooShortMsg) ∧ s.rxLast = 0x04) →
    ∃ t, evaluate s = .next t ∧ t.errLast = e ∧ csrValue .errLast t = (flowErrorCode e).setWidth 32 ∧
      t.errCount = s.errCount + 1 ∧ csrValue .errCount t = csrValue .errCount s + 1 ∧
      errValidO t = true ∧ errCodeO t = flowErrorCode e ∧ t.errTrace = s.errTrace ++ [e] ∧
      t.dispatchTrace = s.dispatchTrace ∧ t.msgPending = s.msgPending ∧ t.pongReq = s.pongReq ∧
      (s.cancelReq = false → t.rxState = .readFirst ∧ t.rxBuf = []) ∧
      (s.cancelReq = true → t.rxState = .stopped ∧ t.cancelReq = false)

/-- R152, R171: a first read that ends with no byte is idle: nothing is reported, called or traced. That the outcome is
taken off rxIn (log 6) and that errPulse is none (log 5) is the model's bookkeeping. -/
def Obligations.IdleReadReportsNothing : Prop :=
  ∀ s : State, nextTurn s = .receive → (nextRx s = .timeout ∨ nextRx s = .endOfStream) →
    s.rxState = .readFirst → s.rxBuf = [] → s.rxOver = false →
    ∃ t, step s = .next t ∧
      t.errLast = s.errLast ∧ t.errCount = s.errCount ∧ t.errTrace = s.errTrace ∧ t.errPulse = none ∧
      t.dispatchTrace = s.dispatchTrace ∧ t.txTrace = s.txTrace ∧ t.msgPending = s.msgPending ∧
      t.pongReq = s.pongReq ∧ t.fatal = s.fatal ∧ t.rxIn = s.rxIn.tail ∧
      (s.cancelReq = false → t.rxState = .readFirst ∧ t.cancelReq = false) ∧
      (s.cancelReq = true → t.rxState = .stopped ∧ t.cancelReq = false)

/-- R144: EndOfStream acts as Timeout at every position, and does not stop the loop. -/
def Obligations.EndOfStreamActsAsTimeout : Prop :=
  (∀ s : State, readOutcome .endOfStream s = readOutcome .timeout s) ∧
  (∀ s : State, rxReading s.rxState = true → s.cancelReq = false →
    ∃ t, readOutcome .endOfStream s = .next t ∧ rxRunning t.rxState = true ∧ t.fatal = s.fatal)

/-- R156: the end of a continuation read. In a state that meets the invariant (R50) a read that brought bytes and no EOT
ends in a report. -/
def Obligations.ExhaustedContinuationReportsPendingError : Prop :=
  ∀ (s : State) (o : RxOutcome), (o = .timeout ∨ o = .endOfStream) → s.rxState = .readCont →
    (s.rxNew = false → readOutcome o s = .next (loopTop (reportError s.rxPendErr s))) ∧
    (s.rxNew = true → readOutcome o s = evaluate s) ∧
    (s.rxNew = true → s.rxLast ≠ 0x04 → (s.rxOver = true ∨ s.rxBuf.getLast? = some s.rxLast) →
      ∃ e, readOutcome o s = .next (loopTop (reportError e s))) ∧
    (s.Inv → s.rxNew = true → s.rxLast ≠ 0x04 ∧ ∃ e, readOutcome o s = .next (loopTop (reportError e s)))

/-- R145, R240: a read Fault enters FATAL, reports nothing and discards the cycle. That the discarded cycle leaves rx_buf
empty and rx_over 0 is the model's reading of R145 (log 22). -/
def Obligations.ReadFaultEntersFatal : Prop :=
  ∀ s : State, rxReading s.rxState = true →
    readOutcome .fault s = .next { s with
      rxBuf := [], rxOver := false, fatal := true, rxState := .fatal, msgPending := false, pongReq := false,
      hostTxPend := false, cancelReq := false } ∧
    ∀ t, readOutcome .fault s = .next t → csrValue .status t = 0x00000520

/-- R140: outside READ_FIRST and READ_CONT no read is made, whatever step is taken: what the transport holds stays, and
the step is the same whatever that is. What the transport holds is the list rxIn (log 6, log 7), which a reset turn
keeps (log 21): the model's choices. -/
def Obligations.NoReadOutsideReadingStates : Prop :=
  ∀ s t : State, rxReading s.rxState = false → step s = .next t →
    t.rxIn = s.rxIn ∧ ∀ rx, step { s with rxIn := rx } = .next { t with rxIn := rx }

/-- From R160: a whole valid frame for this station, starting in READ_FIRST with an empty buffer and arriving without a
Timeout, EndOfStream or Fault, is dispatched exactly, whatever EOT-valued bytes it holds. It speaks of 9 + L receive
turns in a row; that rxIn and schedule have moved on is the model's bookkeeping (log 6). -/
def Obligations.TruncationRecovery : Prop :=
  ∀ (s : State) (d o c : Byte) (p : List Byte) (rest : List RxOutcome) (turns : List Turn),
    p.length ≤ 255 → (d = s.station ∨ d = 0x00) →
    s.rxState = .readFirst → s.rxBuf = [] → s.rxOver = false →
    s.rxIn = stimRx (Frame.encode d o c p) ++ rest →
    s.schedule = List.replicate (9 + p.length) .receive ++ turns →
    ∃ t, Sys2Proof.core.run (9 + p.length) s = .next t ∧
      t.rxIn = rest ∧ t.schedule = turns ∧ t.errTrace = s.errTrace ∧ t.errCount = s.errCount ∧
      ((regEntry s c).kind = .external →
        t.dispatchTrace = s.dispatchTrace ++ [(Message.of d o c p, (regEntry s c).hid)] ∧
        t.msg = Message.of d o c p ∧ t.msgHid = (regEntry s c).hid ∧ t.msgPending = true ∧
        t.rxState = .dispatchExt) ∧
      ((regEntry s c).kind = .builtinPing →
        t.dispatchTrace = s.dispatchTrace ∧ t.pongReq = true ∧ t.pongDest = o ∧ t.rxState = .dispatchPing) ∧
      ((regEntry s c).kind = .absent →
        t.dispatchTrace = s.dispatchTrace ∧ t.rxState = (if s.cancelReq then .stopped else .readFirst))

/-- R159: with the 264-byte buffer every sequence of transport outcomes has the effect it has with the source's
unbounded buffer: the two states differ in the kept bytes alone. -/
def Obligations.BoundedBufferKeepsEveryOutcome : Prop :=
  ∀ (s : State) (os : List RxOutcome), s.rxOver = false → s.rxBuf.length ≤ 264 →
    os.foldl boundedRead s =
      { os.foldl unboundedRead s with
        rxBuf := (os.foldl unboundedRead s).rxBuf.take 264
        rxOver := decide (264 < (os.foldl unboundedRead s).rxBuf.length) }

/-! ## The transmit engine and the Ping Responder's return -/

/-- R201, R202: the frame a transmit step writes, its trace entry and all it changes; with both pending, either order. The
tails of schedule and txIn (log 6), the ended error pulse (log 5) and the draw index (log 26) are the model's own. -/
def Obligations.TransmitStepWritesOneFrame : Prop :=
  ∀ (s u : State) (first src : TxSource) (f : List Byte), s.fatal = false →
    ((src = .host ∧ s.hostTxPend = true ∧ (first = .host ∨ s.pongReq = false) ∧
        f = Frame.encode s.hostTxDest s.station s.hostTxCmd (s.txBuf.toList.take s.txLen.toNat)) ∨
     (src = .pong ∧ s.pongReq = true ∧ (first = .pong ∨ s.hostTxPend = false) ∧
        f = Frame.encode s.pongDest s.station 0x06 [])) →
    nextTurn s = .transmit first →
    u = { s with
      schedule := s.schedule.tail, errPulse := none, txIn := s.txIn.tail, draws := s.draws + 1
      txTrace := s.txTrace ++ [(f, nextTx s)] } →
    (nextTx s = .ok → src = .host → step s = .next { u with hostTxPend := false }) ∧
    (nextTx s = .ok → src = .pong → step s = .next { u with pongReq := false }) ∧
    (nextTx s = .fault → step s = .next { u with
      fatal := true, rxState := .fatal, msgPending := false, pongReq := false, hostTxPend := false
      cancelReq := false })

/-- R201, R203: no step writes anything but one whole frame of this station, and nothing in FATAL or with nothing
pending; a step that writes nothing is the same whatever the transport would answer. Its answers are the model's list
(log 6). -/
def Obligations.OnlyTransmitStepsWrite : Prop :=
  ∀ s t : State, (nextTurn s).running = true → step s = .next t →
    (t.txTrace = s.txTrace ∧ t.txIn = s.txIn ∧
      ∀ tx, step { s with txIn := tx } = .next { t with txIn := tx }) ∨
    (∃ first src, nextTurn s = .transmit first ∧ s.fatal = false ∧
      (src = .host → s.hostTxPend = true) ∧ (src = .pong → s.pongReq = true) ∧
      t.txTrace = s.txTrace ++ [(frameOf src s, nextTx s)] ∧ t.txIn = s.txIn.tail)

/-- R222: in DISPATCH_PING the loop resumes only once the PONG has been written. That a receive turn which is not
enabled is a next state and changes nothing is the model's choice (log 7, log 8). -/
def Obligations.LoopResumesAfterPong : Prop :=
  ∀ s : State, s.rxState = .dispatchPing →
    (s.pongReq = false → s.fatal = false → receiveTurn s = .next (loopTop s)) ∧
    (s.pongReq = true → receiveTurn s = .next s) ∧
    (s.fatal = true → receiveTurn s = .next s)

/-- A PONG request is written and the loop resumes within two steps, when the transmit engine and then the receive
engine move and the write succeeds (R201, R222). The order of the turns and the outcome stand in the model's lists (log
6). -/
def Obligations.PongIsWrittenThenLoopResumes : Prop :=
  ∀ (s : State) (turns : List Turn) (txs : List TxOutcome),
    s.rxState = .dispatchPing → s.pongReq = true → s.fatal = false → s.cancelReq = false →
    s.schedule = .transmit .pong :: .receive :: turns → s.txIn = .ok :: txs →
    ∃ t, Sys2Proof.core.run 2 s = .next t ∧
      t.txTrace = s.txTrace ++ [(Frame.encode s.pongDest s.station 0x06 [], .ok)] ∧
      t.pongReq = false ∧ t.rxState = .readFirst ∧ t.rxBuf = [] ∧ t.hostTxPend = s.hostTxPend

/-- R44: while a host frame is pending nothing but a reset changes the frame that will be sent. -/
def Obligations.PendingHostFrameIsFrozen : Prop :=
  ∀ s t : State, s.hostTxPend = true → (nextTurn s).running = true → step s = .next t →
    frameOf .host t = frameOf .host s ∧ t.txLen = s.txLen ∧ t.txBuf = s.txBuf

/-! ## The register interface -/

/-- R25, R37: every bit of STATUS, and its value after reset; R48, R236: the output signals, the error outputs as the
model holds them (log 5). The code output is stated only for a step that reports: it has no value otherwise (log 27). -/
def Obligations.StatusBits : Prop :=
  ∀ s : State,
    ((csrValue .status s).getLsbD 0 = true ↔
      (s.rxState = .readFirst ∨ s.rxState = .readCont ∨ s.rxState = .dispatchExt ∨ s.rxState = .dispatchPing)) ∧
    (csrValue .status s).getLsbD 1 = s.cancelReq ∧ (csrValue .status s).getLsbD 2 = s.msgPending ∧
    (csrValue .status s).getLsbD 3 = s.hostTxPend ∧ (csrValue .status s).getLsbD 4 = s.pongReq ∧
    (csrValue .status s).getLsbD 5 = s.fatal ∧ (csrValue .status s).extractLsb' 6 2 = 0 ∧
    (csrValue .status s).extractLsb' 8 3 =
      (if s.rxState = .stopped then 0 else if s.rxState = .readFirst then 1 else if s.rxState = .readCont then 2
        else if s.rxState = .dispatchExt then 3 else if s.rxState = .dispatchPing then 4 else 5) ∧
    (csrValue .status s).extractLsb' 11 21 = 0 ∧
    msgValidO s = s.msgPending ∧ fatalO s = s.fatal ∧
    (rxReadyO s = true ↔ (s.rxState = .readFirst ∨ s.rxState = .readCont)) ∧
    (∀ e, s.errPulse = some e → errValidO s = true ∧ errCodeO s = flowErrorCode e) ∧
    (s.errPulse = none → errValidO s = false) ∧
    ∀ p : ResetParams, csrValue .status (State.resetWith p) = 0

/-- R62, R63, R64: the offsets of the register map; exactly the aligned 32-bit accesses to them are legal, and every
other one is a bus error that changes nothing but the host's response (R60: data 0 and ok 0; R61). The record of the
responses is the model's (log 13). -/
def Obligations.RegisterMapAndBusErrors : Prop :=
  (csrOfAccess 0x000 .w32 = some .station ∧ csrOfAccess 0x004 .w32 = some .cmd ∧
  csrOfAccess 0x008 .w32 = some .status ∧ csrOfAccess 0x00C .w32 = some .cmdResult ∧
  csrOfAccess 0x010 .w32 = some .timeout ∧ csrOfAccess 0x014 .w32 = some .txLen ∧
  csrOfAccess 0x018 .w32 = some .errLast ∧ csrOfAccess 0x01C .w32 = some .errCount ∧
  csrOfAccess 0x020 .w32 = some .msgInfo ∧ csrOfAccess 0x024 .w32 = some .msgHid ∧
  (∀ k : BitVec 6, csrOfAccess (0x100 + k.setWidth 12 <<< 2) .w32 = some (.txBuf k)) ∧
  (∀ k : BitVec 6, csrOfAccess (0x200 + k.setWidth 12 <<< 2) .w32 = some (.msgBuf k)) ∧
  (∀ c : Byte, csrOfAccess (0x400 + c.setWidth 12 <<< 2) .w32 = some (.reg c))) ∧
  ∀ (addr : CsrAddr) (width : AccessWidth) (v : Word) (s : State),
    (csrOfAccess addr width = none ↔
      (width ≠ .w32 ∨ addr.toNat % 4 ≠ 0 ∨ (0x028 ≤ addr.toNat ∧ addr.toNat < 0x100) ∨
        (0x300 ≤ addr.toNat ∧ addr.toNat < 0x400) ∨ 0x800 ≤ addr.toNat)) ∧
    (csrOfAccess addr width = none →
      hostAccess (.read addr width) s = .next { s with responses := s.responses ++ [.read 0 false] } ∧
      hostAccess (.write addr width v) s = .next { s with responses := s.responses ++ [.write false] })

/-- R65: a read changes no state and is a function of it; a write to a read-only register is accepted and ignored; CMD
reads 0. R23, R26 to R30: what STATION, CMD_RESULT, TIMEOUT, TX_LEN, ERR_LAST and ERR_COUNT read as. The record of the
responses is the model's (log 13). -/
def Obligations.ReadsAndReadOnlyWritesHaveNoEffect : Prop :=
  ∀ (addr : CsrAddr) (r : Csr) (v : Word) (s : State), csrOfAccess addr .w32 = some r →
    hostAccess (.read addr .w32) s = .next { s with responses := s.responses ++ [.read (csrValue r s) true] } ∧
    (r ≠ .cmd → r ≠ .timeout → r ≠ .txLen → (∀ k, r ≠ .txBuf k) →
      hostAccess (.write addr .w32 v) s = .next { s with responses := s.responses ++ [.write true] }) ∧
    csrValue .cmd s = 0 ∧ csrValue .station s = s.station.setWidth 32 ∧ csrValue .timeout s = s.timeout ∧
    csrValue .txLen s = s.txLen.setWidth 32 ∧ csrValue .errLast s = (flowErrorCode s.errLast).setWidth 32 ∧
    csrValue .errCount s = s.errCount ∧
    (s.cmdResult = .ok → csrValue .cmdResult s = 0) ∧ (s.cmdResult = .busy → csrValue .cmdResult s = 1) ∧
    (s.cmdResult = .illegal → csrValue .cmdResult s = 2) ∧ (s.cmdResult = .fatal → csrValue .cmdResult s = 3)

/-- R27, R28, R66: what a write to TIMEOUT and to TX_LEN stores, and that CMD performs a host command. The record of the
responses is the model's (log 13). -/
def Obligations.RegisterWritesStore : Prop :=
  ∀ (v : Word) (s : State),
    hostAccess (.write 0x010 .w32 v) s
      = .next { s with timeout := v, responses := s.responses ++ [.write true] } ∧
    (s.hostTxPend = false → hostAccess (.write 0x014 .w32 v) s
      = .next { s with txLen := v.extractLsb' 0 8, responses := s.responses ++ [.write true] }) ∧
    (s.hostTxPend = true → hostAccess (.write 0x014 .w32 v) s
      = .next { s with responses := s.responses ++ [.write true] }) ∧
    (∀ t, exec (decodeCommand v) s = .next t → hostAccess (.write 0x004 .w32 v) s
      = .next { t with responses := t.responses ++ [.write true] })

/-- R33, R70, R281: TX_BUF is stored little-endian, four bytes a write, and is frozen while a host frame is pending; the
host's write at 0x100 + 4k is that store, accepted either way (R66; its record is the model's, log 13). -/
def Obligations.TxBufStoresLittleEndianWords : Prop :=
  ∀ (k : BitVec 6) (v : Word) (s : State),
    (s.hostTxPend = false →
      csrValue (.txBuf k) (csrStore (.txBuf k) v s) = v ∧
      (∀ j : Fin 4, txByte (csrStore (.txBuf k) v s) k j = v.extractLsb' (8 * j.val) 8) ∧
      (∀ k' : BitVec 6, k' ≠ k → csrValue (.txBuf k') (csrStore (.txBuf k) v s) = csrValue (.txBuf k') s) ∧
      csrStore (.txBuf k) v s = { s with txBuf := (csrStore (.txBuf k) v s).txBuf }) ∧
    (s.hostTxPend = true → csrStore (.txBuf k) v s = s) ∧
    hostAccess (.write (0x100 + k.setWidth 12 <<< 2) .w32 v) s = .next { csrStore (.txBuf k) v s with
      responses := s.responses ++ [.write true] }

/-- R31, R32, R34: what the message registers read, with a message pending and without. -/
def Obligations.MessageRegisters : Prop :=
  ∀ s : State,
    (s.msgPending = true →
      (csrValue .msgInfo s).extractLsb' 0 8 = s.msg.dest ∧ (csrValue .msgInfo s).extractLsb' 8 8 = s.msg.orig ∧
      (csrValue .msgInfo s).extractLsb' 16 8 = s.msg.cmd ∧ (csrValue .msgInfo s).extractLsb' 24 8 = s.msg.length ∧
      csrValue .msgHid s = s.msgHid.setWidth 32) ∧
    (s.msgPending = false → csrValue .msgInfo s = 0 ∧ csrValue .msgHid s = 0) ∧
    (∀ (k : BitVec 6) (j : Nat), j < 4 →
      (csrValue (.msgBuf k) s).extractLsb' (8 * j) 8 =
        if s.msgPending = true ∧ 4 * k.toNat + j < s.msg.length.toNat
        then byteAt s.msg.payload (4 * k.toNat + j) else 0)

/-- R35: the fields of a registry entry's word (HID 0 where the kind is not EXTERNAL, by the invariant), and the registry
after reset. -/
def Obligations.RegistryEntryWord : Prop :=
  (∀ (c : Byte) (s : State),
    (csrValue (.reg c) s).extractLsb' 0 8 = (regEntry s c).hid ∧
    ((regEntry s c).kind = .absent → (csrValue (.reg c) s).extractLsb' 8 2 = 0) ∧
    ((regEntry s c).kind = .external → (csrValue (.reg c) s).extractLsb' 8 2 = 1) ∧
    ((regEntry s c).kind = .builtinPing → (csrValue (.reg c) s).extractLsb' 8 2 = 2) ∧
    (s.Inv → (regEntry s c).kind ≠ .external → (csrValue (.reg c) s).extractLsb' 0 8 = 0) ∧
    (csrValue (.reg c) s).extractLsb' 10 22 = 0) ∧
  (∀ p : ResetParams, csrValue (.reg 0x05) (State.resetWith p) = 0x00000200 ∧
    ∀ c, c ≠ 0x05 → csrValue (.reg c) (State.resetWith p) = 0)

/-- LOADTX, run by the host with no frame pending, leaves exactly its bytes as the next payload (R97, R28, R33). The
host's statements and turns stand in the model's lists (log 6). -/
def Obligations.LoadTxLoadsThePayload : Prop :=
  ∀ (s : State) (bytes : List Byte) (rest : List HostStmt) (turns : List Turn),
    bytes.length ≤ 255 → s.hostTxPend = false →
    s.hostProgram = asmLoadTx bytes ++ rest →
    s.schedule = List.replicate (asmLoadTx bytes).length .host ++ turns →
    ∃ t, Sys2Proof.core.run (asmLoadTx bytes).length s = .next t ∧
      hostPayload t = bytes ∧ t.txLen = BitVec.ofNat 8 bytes.length ∧ t.hostProgram = rest ∧
      t.hostTxPend = false ∧ t.rxState = s.rxState ∧ t.cmdResult = s.cmdResult

/-! ## Steps -/

/-- When the host's turn writes a word to CMD, the step is exec of the instruction the word decodes to (R71, R179), with
the model's bookkeeping around it: the turn and the statement taken off their lists (log 6), the error pulse ended (log
5), the response recorded (log 13) and the draw index moved (log 26). -/
def Obligations.StepRunsTheHostCommand : Prop :=
  ∀ (s : State) (w : Word) (t : State),
    nextTurn s = .host → nextHost s = .access (.write 0x004 .w32 w) →
    exec (decodeCommand w) { s with
      schedule := s.schedule.tail, errPulse := none, hostProgram := s.hostProgram.tail } = .next t →
    step s = .next { t with responses := t.responses ++ [.write true], draws := t.draws + 1 }

/-- When a receive turn reads the EOT that completes a frame, the step is exec of the instruction the buffered bytes
decode to (R151, R153, R155, R173), with the model's bookkeeping around it: the turn and the outcome taken off their
lists (log 6), the error pulse ended (log 5) and the draw index moved (log 26). -/
def Obligations.StepRunsTheReceivedFrame : Prop :=
  ∀ (s : State) (i : Instr) (t : State),
    nextTurn s = .receive → rxReading s.rxState = true → nextRx s = .byte 0x04 →
    s.rxOver = false → s.rxBuf.length < 264 →
    decode s.station (.frame (s.rxBuf ++ [0x04])) = .ok i →
    exec i { s with
      schedule := s.schedule.tail, errPulse := none, rxIn := s.rxIn.tail,
      rxBuf := s.rxBuf ++ [0x04], rxLast := 0x04,
      rxNew := if s.rxState = .readCont then true else s.rxNew } = .next t →
    step s = .next { t with draws := t.draws + 1 }

/-! ## Reset and the whole machine -/

/-- R270: a reset turn sets every piece of the block's state and empties the traces. R10, R272: an instance whose strap
gives 0 is refused; that such a reset turn is a refusal of the step, by the name stationZero, is the model's reading
(log 12). -/
def Obligations.ResetTurn : Prop :=
  ∀ (s : State) (p : ResetParams), nextTurn s = .reset p →
    (p.station = 0 → step s = .refused .stationZero) ∧
    (p.station ≠ 0 → ∃ t, step s = .next t ∧
      t.station = p.station ∧ t.timeout = p.timeoutReset ∧ t.cmdResult = .ok ∧ t.txLen = 0 ∧
      t.txBuf = p.txBufInit ∧ t.errLast = .noError ∧ t.errCount = 0 ∧
      regEntry t 0x05 = { kind := .builtinPing, hid := 0 } ∧
      (∀ c, c ≠ 0x05 → regEntry t c = { kind := .absent, hid := 0 }) ∧
      t.rxState = .stopped ∧ t.rxBuf = [] ∧ t.rxOver = false ∧ t.rxLast = 0 ∧ t.rxNew = false ∧
      flowErrorCode t.rxPendErr = 0 ∧ t.cancelReq = false ∧ t.msgPending = false ∧ t.hostTxPend = false ∧
      t.hostTxDest = 0 ∧ t.hostTxCmd = 0 ∧ t.pongReq = false ∧ t.pongDest = 0 ∧ t.fatal = false ∧
      t.txTrace = [] ∧ t.errTrace = [] ∧ t.dispatchTrace = [])

/-- R271: a stopped block with nothing pending, as reset leaves it, makes no transport access (its step is the same
whatever the transport would answer), and only the host's write of START, SEND or BROADCAST ends that. What the
transport would answer is the model's two lists (log 6), and the turn of an engine that is not enabled is log 7 and log
8. -/
def Obligations.NoTransportAccessAfterReset : Prop :=
  (∀ p : ResetParams, (State.resetWith p).rxState = .stopped ∧ (State.resetWith p).hostTxPend = false ∧
    (State.resetWith p).pongReq = false ∧ (State.resetWith p).msgPending = false) ∧
  (∀ s t : State, s.rxState = .stopped → s.hostTxPend = false → s.pongReq = false → s.msgPending = false →
    (nextTurn s).running = true → step s = .next t →
    t.rxIn = s.rxIn ∧ t.txIn = s.txIn ∧ t.txTrace = s.txTrace ∧ t.pongReq = false ∧ t.msgPending = false ∧
    (∀ rx tx, step (s.withTransport rx tx) = .next (t.withTransport rx tx)) ∧
    (t.rxState ≠ .stopped ∨ t.hostTxPend = true →
      nextTurn s = .host ∧ ∃ w, nextHost s = .access (.write 0x004 .w32 w) ∧
        (decodeCommand w = .start ∨ (∃ c d, decodeCommand w = .send c d) ∨ ∃ c, decodeCommand w = .broadcast c)))

/-- The invariant holds after reset, for every instance (R50, R270). -/
def Obligations.ResetMeetsInvariant : Prop :=
  (∀ p : ResetParams, p.station ≠ 0 → (State.resetWith p).Inv) ∧ State.reset.Inv ∧ State.reset.ErrInv

/-- Every step keeps the invariant of R50 (with R10, R35, R38, R135). -/
def Obligations.StepKeepsInvariant : Prop :=
  ∀ s t : State, s.Inv → step s = .next t → t.Inv

/-- Every step keeps ERR_COUNT equal to the number of reports modulo 2^32 and ERR_LAST to the last of them (R29, R30,
R236, R270). -/
def Obligations.ErrorRegistersFollowTheTrace : Prop :=
  ∀ s t : State, s.ErrInv → step s = .next t → t.ErrInv

/-- R23, R272: the station address changes at a reset only. -/
def Obligations.StationChangesOnlyAtReset : Prop :=
  ∀ s t : State, (nextTurn s).running = true → step s = .next t → t.station = s.station

/-- R36: a registry entry, once not ABSENT, stays not ABSENT until reset, and only REGISTER of its own code changes
it. -/
def Obligations.RegistryEntriesPersist : Prop :=
  (∀ (s t : State) (c : Byte), (nextTurn s).running = true → step s = .next t →
    (regEntry s c).kind ≠ .absent → (regEntry t c).kind ≠ .absent) ∧
  (∀ (s t : State) (c : Byte), (nextTurn s).running = true → step s = .next t →
    regEntry t c ≠ regEntry s c →
    ∃ w b k, nextTurn s = .host ∧ nextHost s = .access (.write 0x004 .w32 w) ∧
      decodeCommand w = .register c b k)

/-- R49: the traces are appended to and never rewritten, except by a reset; R48: the error outputs are up in just the steps
that report (held as errPulse, log 5). -/
def Obligations.TracesAreOnlyAppended : Prop :=
  ∀ s t : State, (nextTurn s).running = true → step s = .next t →
    s.txTrace <+: t.txTrace ∧ s.errTrace <+: t.errTrace ∧ s.dispatchTrace <+: t.dispatchTrace ∧
    ((t.errPulse = none ∧ t.errTrace = s.errTrace) ∨
      ∃ e, t.errPulse = some e ∧ t.errTrace = s.errTrace ++ [e]) ∧ t.dispatchTrace.length ≤ s.dispatchTrace.length + 1

/-- R178, R239: while a message is pending or a PONG is being sent, no frame is read, dispatched or reported, and a step
is the same whatever the transport has received, the model's list rxIn (log 6, log 7). -/
def Obligations.DispatchIsSerialised : Prop :=
  ∀ s t : State, s.rxState = .dispatchExt ∨ s.rxState = .dispatchPing →
    (nextTurn s).running = true → step s = .next t →
    t.rxIn = s.rxIn ∧ t.errTrace = s.errTrace ∧ t.errCount = s.errCount ∧ t.dispatchTrace = s.dispatchTrace ∧
    ∀ rx, step { s with rxIn := rx } = .next { t with rxIn := rx }

/-- Every turn but a reset with the strap at 0 gives a next state. Bus errors, refused commands, flow errors and transport
failures go on by the rules (R60, R61, R230, R234, R245); that a turn with nothing enabled goes on too is the model's
choice (log 7, log 8), and so are the one exception (log 12) and the absence of faults (log 15). -/
def Obligations.EveryStepGoesOn : Prop :=
  ∀ s : State, (∀ p, nextTurn s = .reset p → p.station ≠ 0) → ∃ t, step s = .next t
end

