-- ==== Sys2Proof/Laws/Codec.lean ====
section
/-! SUPPORT. The codec's small lemmas: the fields of a command word, the header of an encoded frame, and what a successful decode says. -/

namespace Sys2Proof

/-! ### The command word -/

@[simp] theorem op_word (op a b : Byte) (k : BitVec 2) : Cmd.op (Cmd.word op a b k) = op := by
  apply BitVec.eq_of_getLsbD_eq
  intro i hi
  simp only [Cmd.op, Cmd.word, BitVec.getLsbD_extractLsb', BitVec.getLsbD_append]
  simp [hi]

@[simp] theorem a_word (op a b : Byte) (k : BitVec 2) : Cmd.a (Cmd.word op a b k) = a := by
  apply BitVec.eq_of_getLsbD_eq
  intro i hi
  simp only [Cmd.a, Cmd.word, BitVec.getLsbD_extractLsb', BitVec.getLsbD_append]
  simp [hi]

@[simp] theorem b_word (op a b : Byte) (k : BitVec 2) : Cmd.b (Cmd.word op a b k) = b := by
  apply BitVec.eq_of_getLsbD_eq
  intro i hi
  simp only [Cmd.b, Cmd.word, BitVec.getLsbD_extractLsb', BitVec.getLsbD_append]
  simp [hi, show ¬ (16 + i < 8) by omega, show ¬ (16 + i - 8 < 8) by omega, show 16 + i - 8 - 8 = i by omega]

@[simp] theorem k_word (op a b : Byte) (k : BitVec 2) : Cmd.k (Cmd.word op a b k) = k := by
  apply BitVec.eq_of_getLsbD_eq
  intro i hi
  simp only [Cmd.k, Cmd.word, BitVec.getLsbD_extractLsb', BitVec.getLsbD_append]
  simp [hi, show ¬ (24 + i < 8) by omega, show ¬ (24 + i - 8 < 8) by omega,
    show ¬ (24 + i - 8 - 8 < 8) by omega, show 24 + i - 8 - 8 - 8 = i by omega]

/-! ### The frame -/

/-- A frame is 9 bytes and its payload (R82). -/
@[simp] theorem encode_length (d o c : Byte) (p : List Byte) :
    (Frame.encode d o c p).length = 9 + p.length := by
  simp [Frame.encode]
  omega

@[simp] theorem byteAt_encode_soh (d o c : Byte) (p : List Byte) :
    byteAt (Frame.encode d o c p) 0 = Frame.soh := rfl
@[simp] theorem byteAt_encode_dest (d o c : Byte) (p : List Byte) :
    byteAt (Frame.encode d o c p) 1 = d := rfl
@[simp] theorem byteAt_encode_orig (d o c : Byte) (p : List Byte) :
    byteAt (Frame.encode d o c p) 2 = o := rfl
@[simp] theorem byteAt_encode_cmd (d o c : Byte) (p : List Byte) :
    byteAt (Frame.encode d o c p) 3 = c := rfl
@[simp] theorem byteAt_encode_len (d o c : Byte) (p : List Byte) :
    byteAt (Frame.encode d o c p) 4 = BitVec.ofNat 8 p.length := rfl
@[simp] theorem byteAt_encode_stx (d o c : Byte) (p : List Byte) :
    byteAt (Frame.encode d o c p) 5 = Frame.stx := rfl

/-- A byte of a sequence made of two parts. -/
theorem byteAt_append (l r : List Byte) (i : Nat) :
    byteAt (l ++ r) i = if i < l.length then byteAt l i else byteAt r (i - l.length) := by
  unfold byteAt
  split <;> simp [List.getD_eq_getElem?_getD, List.getElem?_append, *]

/-- DEST is accepted when it is the station or the broadcast address (R123). -/
theorem accepts_iff (st d : Byte) : Frame.accepts st d = true ↔ (d = st ∨ d = 0x00) := by
  simp [Frame.accepts, Frame.broadcast, or_comm]

/-- The three bytes after the payload. -/
theorem byteAt_encode_tail (d o c : Byte) (p : List Byte) (j : Nat) :
    byteAt (Frame.encode d o c p) (6 + p.length + j)
      = byteAt [Frame.etx, checksum d o c (BitVec.ofNat 8 p.length) p, Frame.eot] j := by
  simp only [Frame.encode]
  rw [byteAt_append, if_neg (by simp; omega)]
  congr 1
  simp
  omega

/-- The payload of an encoded frame. -/
theorem payloadOf_encode (d o c : Byte) (p : List Byte) (h : p.length ≤ 255) :
    Frame.payloadOf (Frame.encode d o c p) = p := by
  have hl : (BitVec.ofNat 8 p.length).toNat = p.length := by simp; omega
  unfold Frame.payloadOf
  rw [byteAt_encode_len, hl]
  simp [Frame.encode]

/-- What a decode that gives a Message says of the buffer: every check passed, and the Message holds its bytes (R131). -/
theorem decode_ok {buf : List Byte} {ov : Bool} {st : Byte} {m : Message}
    (h : Frame.decode buf ov st = .ok m) :
    ov = false ∧ buf.length = 9 + (byteAt buf 4).toNat ∧ Frame.accepts st (byteAt buf 1) = true ∧
    byteAt buf 0 = Frame.soh ∧ byteAt buf 5 = Frame.stx ∧
    byteAt buf (6 + (byteAt buf 4).toNat) = Frame.etx ∧ byteAt buf (8 + (byteAt buf 4).toNat) = Frame.eot ∧
    checksum (byteAt buf 1) (byteAt buf 2) (byteAt buf 3) (byteAt buf 4) (Frame.payloadOf buf)
      = byteAt buf (7 + (byteAt buf 4).toNat) ∧
    m = { dest := byteAt buf 1, orig := byteAt buf 2, cmd := byteAt buf 3, length := byteAt buf 4,
          payload := Frame.payloadOf buf } := by
  unfold Frame.decode at h
  repeat (split at h; · cases h)
  simp_all

/-- A decoded Message is the one its own fields make: its LENGTH is its payload's (R135). -/
theorem message_of_decode {buf : List Byte} {ov : Bool} {st : Byte} {m : Message}
    (h : Frame.decode buf ov st = .ok m) : Message.of m.dest m.orig m.cmd m.payload = m := by
  obtain ⟨_, hlen, _, _, _, _, _, _, hm⟩ := decode_ok h
  have hb := (byteAt buf 4).isLt
  subst hm
  simp only [Message.of, Message.mk.injEq, true_and, and_true]
  apply BitVec.eq_of_toNat_eq
  simp [Frame.payloadOf, hlen]
  omega

end Sys2Proof
end

