-- ==== Sys2Proof/Laws/State.lean ====
section
/-! SUPPORT. One lemma per field per update of State, so that no later proof unfolds a record update. -/

namespace Sys2Proof.Machine

/-! ### setResult -/

@[simp] theorem setResult_station (r : CmdResult) (s : State) : (setResult r s).station = s.station := rfl
@[simp] theorem setResult_timeout (r : CmdResult) (s : State) : (setResult r s).timeout = s.timeout := rfl
@[simp] theorem setResult_cmdResult (r : CmdResult) (s : State) : (setResult r s).cmdResult = r := rfl
@[simp] theorem setResult_txLen (r : CmdResult) (s : State) : (setResult r s).txLen = s.txLen := rfl
@[simp] theorem setResult_txBuf (r : CmdResult) (s : State) : (setResult r s).txBuf = s.txBuf := rfl
@[simp] theorem setResult_errLast (r : CmdResult) (s : State) : (setResult r s).errLast = s.errLast := rfl
@[simp] theorem setResult_errCount (r : CmdResult) (s : State) : (setResult r s).errCount = s.errCount := rfl
@[simp] theorem setResult_regs (r : CmdResult) (s : State) : (setResult r s).regs = s.regs := rfl
@[simp] theorem setResult_rxState (r : CmdResult) (s : State) : (setResult r s).rxState = s.rxState := rfl
@[simp] theorem setResult_rxBuf (r : CmdResult) (s : State) : (setResult r s).rxBuf = s.rxBuf := rfl
@[simp] theorem setResult_rxOver (r : CmdResult) (s : State) : (setResult r s).rxOver = s.rxOver := rfl
@[simp] theorem setResult_rxLast (r : CmdResult) (s : State) : (setResult r s).rxLast = s.rxLast := rfl
@[simp] theorem setResult_rxNew (r : CmdResult) (s : State) : (setResult r s).rxNew = s.rxNew := rfl
@[simp] theorem setResult_rxPendErr (r : CmdResult) (s : State) : (setResult r s).rxPendErr = s.rxPendErr := rfl
@[simp] theorem setResult_cancelReq (r : CmdResult) (s : State) : (setResult r s).cancelReq = s.cancelReq := rfl
@[simp] theorem setResult_msgPending (r : CmdResult) (s : State) : (setResult r s).msgPending = s.msgPending := rfl
@[simp] theorem setResult_msg (r : CmdResult) (s : State) : (setResult r s).msg = s.msg := rfl
@[simp] theorem setResult_msgHid (r : CmdResult) (s : State) : (setResult r s).msgHid = s.msgHid := rfl
@[simp] theorem setResult_hostTxPend (r : CmdResult) (s : State) : (setResult r s).hostTxPend = s.hostTxPend := rfl
@[simp] theorem setResult_hostTxDest (r : CmdResult) (s : State) : (setResult r s).hostTxDest = s.hostTxDest := rfl
@[simp] theorem setResult_hostTxCmd (r : CmdResult) (s : State) : (setResult r s).hostTxCmd = s.hostTxCmd := rfl
@[simp] theorem setResult_pongReq (r : CmdResult) (s : State) : (setResult r s).pongReq = s.pongReq := rfl
@[simp] theorem setResult_pongDest (r : CmdResult) (s : State) : (setResult r s).pongDest = s.pongDest := rfl
@[simp] theorem setResult_fatal (r : CmdResult) (s : State) : (setResult r s).fatal = s.fatal := rfl
@[simp] theorem setResult_errPulse (r : CmdResult) (s : State) : (setResult r s).errPulse = s.errPulse := rfl
@[simp] theorem setResult_txTrace (r : CmdResult) (s : State) : (setResult r s).txTrace = s.txTrace := rfl
@[simp] theorem setResult_errTrace (r : CmdResult) (s : State) : (setResult r s).errTrace = s.errTrace := rfl
@[simp] theorem setResult_dispatchTrace (r : CmdResult) (s : State) : (setResult r s).dispatchTrace = s.dispatchTrace := rfl
@[simp] theorem setResult_responses (r : CmdResult) (s : State) : (setResult r s).responses = s.responses := rfl
@[simp] theorem setResult_schedule (r : CmdResult) (s : State) : (setResult r s).schedule = s.schedule := rfl
@[simp] theorem setResult_hostProgram (r : CmdResult) (s : State) : (setResult r s).hostProgram = s.hostProgram := rfl
@[simp] theorem setResult_rxIn (r : CmdResult) (s : State) : (setResult r s).rxIn = s.rxIn := rfl
@[simp] theorem setResult_txIn (r : CmdResult) (s : State) : (setResult r s).txIn = s.txIn := rfl
@[simp] theorem setResult_draws (r : CmdResult) (s : State) : (setResult r s).draws = s.draws := rfl

/-! ### setRegEntry -/

@[simp] theorem setRegEntry_station (c : Byte) (e : RegEntry) (s : State) : (setRegEntry c e s).station = s.station := rfl
@[simp] theorem setRegEntry_timeout (c : Byte) (e : RegEntry) (s : State) : (setRegEntry c e s).timeout = s.timeout := rfl
@[simp] theorem setRegEntry_cmdResult (c : Byte) (e : RegEntry) (s : State) : (setRegEntry c e s).cmdResult = s.cmdResult := rfl
@[simp] theorem setRegEntry_txLen (c : Byte) (e : RegEntry) (s : State) : (setRegEntry c e s).txLen = s.txLen := rfl
@[simp] theorem setRegEntry_txBuf (c : Byte) (e : RegEntry) (s : State) : (setRegEntry c e s).txBuf = s.txBuf := rfl
@[simp] theorem setRegEntry_errLast (c : Byte) (e : RegEntry) (s : State) : (setRegEntry c e s).errLast = s.errLast := rfl
@[simp] theorem setRegEntry_errCount (c : Byte) (e : RegEntry) (s : State) : (setRegEntry c e s).errCount = s.errCount := rfl
@[simp] theorem setRegEntry_regs (c : Byte) (e : RegEntry) (s : State) : (setRegEntry c e s).regs = s.regs.set c.toNat e c.isLt := rfl
@[simp] theorem setRegEntry_rxState (c : Byte) (e : RegEntry) (s : State) : (setRegEntry c e s).rxState = s.rxState := rfl
@[simp] theorem setRegEntry_rxBuf (c : Byte) (e : RegEntry) (s : State) : (setRegEntry c e s).rxBuf = s.rxBuf := rfl
@[simp] theorem setRegEntry_rxOver (c : Byte) (e : RegEntry) (s : State) : (setRegEntry c e s).rxOver = s.rxOver := rfl
@[simp] theorem setRegEntry_rxLast (c : Byte) (e : RegEntry) (s : State) : (setRegEntry c e s).rxLast = s.rxLast := rfl
@[simp] theorem setRegEntry_rxNew (c : Byte) (e : RegEntry) (s : State) : (setRegEntry c e s).rxNew = s.rxNew := rfl
@[simp] theorem setRegEntry_rxPendErr (c : Byte) (e : RegEntry) (s : State) : (setRegEntry c e s).rxPendErr = s.rxPendErr := rfl
@[simp] theorem setRegEntry_cancelReq (c : Byte) (e : RegEntry) (s : State) : (setRegEntry c e s).cancelReq = s.cancelReq := rfl
@[simp] theorem setRegEntry_msgPending (c : Byte) (e : RegEntry) (s : State) : (setRegEntry c e s).msgPending = s.msgPending := rfl
@[simp] theorem setRegEntry_msg (c : Byte) (e : RegEntry) (s : State) : (setRegEntry c e s).msg = s.msg := rfl
@[simp] theorem setRegEntry_msgHid (c : Byte) (e : RegEntry) (s : State) : (setRegEntry c e s).msgHid = s.msgHid := rfl
@[simp] theorem setRegEntry_hostTxPend (c : Byte) (e : RegEntry) (s : State) : (setRegEntry c e s).hostTxPend = s.hostTxPend := rfl
@[simp] theorem setRegEntry_hostTxDest (c : Byte) (e : RegEntry) (s : State) : (setRegEntry c e s).hostTxDest = s.hostTxDest := rfl
@[simp] theorem setRegEntry_hostTxCmd (c : Byte) (e : RegEntry) (s : State) : (setRegEntry c e s).hostTxCmd = s.hostTxCmd := rfl
@[simp] theorem setRegEntry_pongReq (c : Byte) (e : RegEntry) (s : State) : (setRegEntry c e s).pongReq = s.pongReq := rfl
@[simp] theorem setRegEntry_pongDest (c : Byte) (e : RegEntry) (s : State) : (setRegEntry c e s).pongDest = s.pongDest := rfl
@[simp] theorem setRegEntry_fatal (c : Byte) (e : RegEntry) (s : State) : (setRegEntry c e s).fatal = s.fatal := rfl
@[simp] theorem setRegEntry_errPulse (c : Byte) (e : RegEntry) (s : State) : (setRegEntry c e s).errPulse = s.errPulse := rfl
@[simp] theorem setRegEntry_txTrace (c : Byte) (e : RegEntry) (s : State) : (setRegEntry c e s).txTrace = s.txTrace := rfl
@[simp] theorem setRegEntry_errTrace (c : Byte) (e : RegEntry) (s : State) : (setRegEntry c e s).errTrace = s.errTrace := rfl
@[simp] theorem setRegEntry_dispatchTrace (c : Byte) (e : RegEntry) (s : State) : (setRegEntry c e s).dispatchTrace = s.dispatchTrace := rfl
@[simp] theorem setRegEntry_responses (c : Byte) (e : RegEntry) (s : State) : (setRegEntry c e s).responses = s.responses := rfl
@[simp] theorem setRegEntry_schedule (c : Byte) (e : RegEntry) (s : State) : (setRegEntry c e s).schedule = s.schedule := rfl
@[simp] theorem setRegEntry_hostProgram (c : Byte) (e : RegEntry) (s : State) : (setRegEntry c e s).hostProgram = s.hostProgram := rfl
@[simp] theorem setRegEntry_rxIn (c : Byte) (e : RegEntry) (s : State) : (setRegEntry c e s).rxIn = s.rxIn := rfl
@[simp] theorem setRegEntry_txIn (c : Byte) (e : RegEntry) (s : State) : (setRegEntry c e s).txIn = s.txIn := rfl
@[simp] theorem setRegEntry_draws (c : Byte) (e : RegEntry) (s : State) : (setRegEntry c e s).draws = s.draws := rfl

/-! ### appendByte -/

@[simp] theorem appendByte_station (b : Byte) (s : State) : (appendByte b s).station = s.station := rfl
@[simp] theorem appendByte_timeout (b : Byte) (s : State) : (appendByte b s).timeout = s.timeout := rfl
@[simp] theorem appendByte_cmdResult (b : Byte) (s : State) : (appendByte b s).cmdResult = s.cmdResult := rfl
@[simp] theorem appendByte_txLen (b : Byte) (s : State) : (appendByte b s).txLen = s.txLen := rfl
@[simp] theorem appendByte_txBuf (b : Byte) (s : State) : (appendByte b s).txBuf = s.txBuf := rfl
@[simp] theorem appendByte_errLast (b : Byte) (s : State) : (appendByte b s).errLast = s.errLast := rfl
@[simp] theorem appendByte_errCount (b : Byte) (s : State) : (appendByte b s).errCount = s.errCount := rfl
@[simp] theorem appendByte_regs (b : Byte) (s : State) : (appendByte b s).regs = s.regs := rfl
@[simp] theorem appendByte_rxState (b : Byte) (s : State) : (appendByte b s).rxState = s.rxState := rfl
@[simp] theorem appendByte_rxBuf (b : Byte) (s : State) :
    (appendByte b s).rxBuf = if s.rxBuf.length < 264 then s.rxBuf ++ [b] else s.rxBuf := rfl
@[simp] theorem appendByte_rxOver (b : Byte) (s : State) :
    (appendByte b s).rxOver = if s.rxBuf.length < 264 then s.rxOver else true := rfl
@[simp] theorem appendByte_rxLast (b : Byte) (s : State) : (appendByte b s).rxLast = b := rfl
@[simp] theorem appendByte_rxNew (b : Byte) (s : State) : (appendByte b s).rxNew = s.rxNew := rfl
@[simp] theorem appendByte_rxPendErr (b : Byte) (s : State) : (appendByte b s).rxPendErr = s.rxPendErr := rfl
@[simp] theorem appendByte_cancelReq (b : Byte) (s : State) : (appendByte b s).cancelReq = s.cancelReq := rfl
@[simp] theorem appendByte_msgPending (b : Byte) (s : State) : (appendByte b s).msgPending = s.msgPending := rfl
@[simp] theorem appendByte_msg (b : Byte) (s : State) : (appendByte b s).msg = s.msg := rfl
@[simp] theorem appendByte_msgHid (b : Byte) (s : State) : (appendByte b s).msgHid = s.msgHid := rfl
@[simp] theorem appendByte_hostTxPend (b : Byte) (s : State) : (appendByte b s).hostTxPend = s.hostTxPend := rfl
@[simp] theorem appendByte_hostTxDest (b : Byte) (s : State) : (appendByte b s).hostTxDest = s.hostTxDest := rfl
@[simp] theorem appendByte_hostTxCmd (b : Byte) (s : State) : (appendByte b s).hostTxCmd = s.hostTxCmd := rfl
@[simp] theorem appendByte_pongReq (b : Byte) (s : State) : (appendByte b s).pongReq = s.pongReq := rfl
@[simp] theorem appendByte_pongDest (b : Byte) (s : State) : (appendByte b s).pongDest = s.pongDest := rfl
@[simp] theorem appendByte_fatal (b : Byte) (s : State) : (appendByte b s).fatal = s.fatal := rfl
@[simp] theorem appendByte_errPulse (b : Byte) (s : State) : (appendByte b s).errPulse = s.errPulse := rfl
@[simp] theorem appendByte_txTrace (b : Byte) (s : State) : (appendByte b s).txTrace = s.txTrace := rfl
@[simp] theorem appendByte_errTrace (b : Byte) (s : State) : (appendByte b s).errTrace = s.errTrace := rfl
@[simp] theorem appendByte_dispatchTrace (b : Byte) (s : State) : (appendByte b s).dispatchTrace = s.dispatchTrace := rfl
@[simp] theorem appendByte_responses (b : Byte) (s : State) : (appendByte b s).responses = s.responses := rfl
@[simp] theorem appendByte_schedule (b : Byte) (s : State) : (appendByte b s).schedule = s.schedule := rfl
@[simp] theorem appendByte_hostProgram (b : Byte) (s : State) : (appendByte b s).hostProgram = s.hostProgram := rfl
@[simp] theorem appendByte_rxIn (b : Byte) (s : State) : (appendByte b s).rxIn = s.rxIn := rfl
@[simp] theorem appendByte_txIn (b : Byte) (s : State) : (appendByte b s).txIn = s.txIn := rfl
@[simp] theorem appendByte_draws (b : Byte) (s : State) : (appendByte b s).draws = s.draws := rfl

/-! ### reportError -/

@[simp] theorem reportError_station (e : FlowError) (s : State) : (reportError e s).station = s.station := rfl
@[simp] theorem reportError_timeout (e : FlowError) (s : State) : (reportError e s).timeout = s.timeout := rfl
@[simp] theorem reportError_cmdResult (e : FlowError) (s : State) : (reportError e s).cmdResult = s.cmdResult := rfl
@[simp] theorem reportError_txLen (e : FlowError) (s : State) : (reportError e s).txLen = s.txLen := rfl
@[simp] theorem reportError_txBuf (e : FlowError) (s : State) : (reportError e s).txBuf = s.txBuf := rfl
@[simp] theorem reportError_errLast (e : FlowError) (s : State) : (reportError e s).errLast = e := rfl
@[simp] theorem reportError_errCount (e : FlowError) (s : State) : (reportError e s).errCount = s.errCount + 1 := rfl
@[simp] theorem reportError_regs (e : FlowError) (s : State) : (reportError e s).regs = s.regs := rfl
@[simp] theorem reportError_rxState (e : FlowError) (s : State) : (reportError e s).rxState = s.rxState := rfl
@[simp] theorem reportError_rxBuf (e : FlowError) (s : State) : (reportError e s).rxBuf = s.rxBuf := rfl
@[simp] theorem reportError_rxOver (e : FlowError) (s : State) : (reportError e s).rxOver = s.rxOver := rfl
@[simp] theorem reportError_rxLast (e : FlowError) (s : State) : (reportError e s).rxLast = s.rxLast := rfl
@[simp] theorem reportError_rxNew (e : FlowError) (s : State) : (reportError e s).rxNew = s.rxNew := rfl
@[simp] theorem reportError_rxPendErr (e : FlowError) (s : State) : (reportError e s).rxPendErr = s.rxPendErr := rfl
@[simp] theorem reportError_cancelReq (e : FlowError) (s : State) : (reportError e s).cancelReq = s.cancelReq := rfl
@[simp] theorem reportError_msgPending (e : FlowError) (s : State) : (reportError e s).msgPending = s.msgPending := rfl
@[simp] theorem reportError_msg (e : FlowError) (s : State) : (reportError e s).msg = s.msg := rfl
@[simp] theorem reportError_msgHid (e : FlowError) (s : State) : (reportError e s).msgHid = s.msgHid := rfl
@[simp] theorem reportError_hostTxPend (e : FlowError) (s : State) : (reportError e s).hostTxPend = s.hostTxPend := rfl
@[simp] theorem reportError_hostTxDest (e : FlowError) (s : State) : (reportError e s).hostTxDest = s.hostTxDest := rfl
@[simp] theorem reportError_hostTxCmd (e : FlowError) (s : State) : (reportError e s).hostTxCmd = s.hostTxCmd := rfl
@[simp] theorem reportError_pongReq (e : FlowError) (s : State) : (reportError e s).pongReq = s.pongReq := rfl
@[simp] theorem reportError_pongDest (e : FlowError) (s : State) : (reportError e s).pongDest = s.pongDest := rfl
@[simp] theorem reportError_fatal (e : FlowError) (s : State) : (reportError e s).fatal = s.fatal := rfl
@[simp] theorem reportError_errPulse (e : FlowError) (s : State) : (reportError e s).errPulse = some e := rfl
@[simp] theorem reportError_txTrace (e : FlowError) (s : State) : (reportError e s).txTrace = s.txTrace := rfl
@[simp] theorem reportError_errTrace (e : FlowError) (s : State) : (reportError e s).errTrace = s.errTrace ++ [e] := rfl
@[simp] theorem reportError_dispatchTrace (e : FlowError) (s : State) : (reportError e s).dispatchTrace = s.dispatchTrace := rfl
@[simp] theorem reportError_responses (e : FlowError) (s : State) : (reportError e s).responses = s.responses := rfl
@[simp] theorem reportError_schedule (e : FlowError) (s : State) : (reportError e s).schedule = s.schedule := rfl
@[simp] theorem reportError_hostProgram (e : FlowError) (s : State) : (reportError e s).hostProgram = s.hostProgram := rfl
@[simp] theorem reportError_rxIn (e : FlowError) (s : State) : (reportError e s).rxIn = s.rxIn := rfl
@[simp] theorem reportError_txIn (e : FlowError) (s : State) : (reportError e s).txIn = s.txIn := rfl
@[simp] theorem reportError_draws (e : FlowError) (s : State) : (reportError e s).draws = s.draws := rfl

/-! ### raiseFatal -/

@[simp] theorem raiseFatal_station (c : FatalCause) (s : State) : (raiseFatal c s).station = s.station := rfl
@[simp] theorem raiseFatal_timeout (c : FatalCause) (s : State) : (raiseFatal c s).timeout = s.timeout := rfl
@[simp] theorem raiseFatal_cmdResult (c : FatalCause) (s : State) : (raiseFatal c s).cmdResult = s.cmdResult := rfl
@[simp] theorem raiseFatal_txLen (c : FatalCause) (s : State) : (raiseFatal c s).txLen = s.txLen := rfl
@[simp] theorem raiseFatal_txBuf (c : FatalCause) (s : State) : (raiseFatal c s).txBuf = s.txBuf := rfl
@[simp] theorem raiseFatal_errLast (c : FatalCause) (s : State) : (raiseFatal c s).errLast = s.errLast := rfl
@[simp] theorem raiseFatal_errCount (c : FatalCause) (s : State) : (raiseFatal c s).errCount = s.errCount := rfl
@[simp] theorem raiseFatal_regs (c : FatalCause) (s : State) : (raiseFatal c s).regs = s.regs := rfl
@[simp] theorem raiseFatal_rxState (c : FatalCause) (s : State) : (raiseFatal c s).rxState = .fatal := rfl
@[simp] theorem raiseFatal_rxBuf (c : FatalCause) (s : State) : (raiseFatal c s).rxBuf = s.rxBuf := rfl
@[simp] theorem raiseFatal_rxOver (c : FatalCause) (s : State) : (raiseFatal c s).rxOver = s.rxOver := rfl
@[simp] theorem raiseFatal_rxLast (c : FatalCause) (s : State) : (raiseFatal c s).rxLast = s.rxLast := rfl
@[simp] theorem raiseFatal_rxNew (c : FatalCause) (s : State) : (raiseFatal c s).rxNew = s.rxNew := rfl
@[simp] theorem raiseFatal_rxPendErr (c : FatalCause) (s : State) : (raiseFatal c s).rxPendErr = s.rxPendErr := rfl
@[simp] theorem raiseFatal_cancelReq (c : FatalCause) (s : State) : (raiseFatal c s).cancelReq = false := rfl
@[simp] theorem raiseFatal_msgPending (c : FatalCause) (s : State) : (raiseFatal c s).msgPending = false := rfl
@[simp] theorem raiseFatal_msg (c : FatalCause) (s : State) : (raiseFatal c s).msg = s.msg := rfl
@[simp] theorem raiseFatal_msgHid (c : FatalCause) (s : State) : (raiseFatal c s).msgHid = s.msgHid := rfl
@[simp] theorem raiseFatal_hostTxPend (c : FatalCause) (s : State) : (raiseFatal c s).hostTxPend = false := rfl
@[simp] theorem raiseFatal_hostTxDest (c : FatalCause) (s : State) : (raiseFatal c s).hostTxDest = s.hostTxDest := rfl
@[simp] theorem raiseFatal_hostTxCmd (c : FatalCause) (s : State) : (raiseFatal c s).hostTxCmd = s.hostTxCmd := rfl
@[simp] theorem raiseFatal_pongReq (c : FatalCause) (s : State) : (raiseFatal c s).pongReq = false := rfl
@[simp] theorem raiseFatal_pongDest (c : FatalCause) (s : State) : (raiseFatal c s).pongDest = s.pongDest := rfl
@[simp] theorem raiseFatal_fatal (c : FatalCause) (s : State) : (raiseFatal c s).fatal = true := rfl
@[simp] theorem raiseFatal_errPulse (c : FatalCause) (s : State) : (raiseFatal c s).errPulse = s.errPulse := rfl
@[simp] theorem raiseFatal_txTrace (c : FatalCause) (s : State) : (raiseFatal c s).txTrace = s.txTrace := rfl
@[simp] theorem raiseFatal_errTrace (c : FatalCause) (s : State) : (raiseFatal c s).errTrace = s.errTrace := rfl
@[simp] theorem raiseFatal_dispatchTrace (c : FatalCause) (s : State) : (raiseFatal c s).dispatchTrace = s.dispatchTrace := rfl
@[simp] theorem raiseFatal_responses (c : FatalCause) (s : State) : (raiseFatal c s).responses = s.responses := rfl
@[simp] theorem raiseFatal_schedule (c : FatalCause) (s : State) : (raiseFatal c s).schedule = s.schedule := rfl
@[simp] theorem raiseFatal_hostProgram (c : FatalCause) (s : State) : (raiseFatal c s).hostProgram = s.hostProgram := rfl
@[simp] theorem raiseFatal_rxIn (c : FatalCause) (s : State) : (raiseFatal c s).rxIn = s.rxIn := rfl
@[simp] theorem raiseFatal_txIn (c : FatalCause) (s : State) : (raiseFatal c s).txIn = s.txIn := rfl
@[simp] theorem raiseFatal_draws (c : FatalCause) (s : State) : (raiseFatal c s).draws = s.draws := rfl

/-! ### rxFaultEntry -/

@[simp] theorem rxFaultEntry_station (s : State) : (rxFaultEntry s).station = s.station := rfl
@[simp] theorem rxFaultEntry_timeout (s : State) : (rxFaultEntry s).timeout = s.timeout := rfl
@[simp] theorem rxFaultEntry_cmdResult (s : State) : (rxFaultEntry s).cmdResult = s.cmdResult := rfl
@[simp] theorem rxFaultEntry_txLen (s : State) : (rxFaultEntry s).txLen = s.txLen := rfl
@[simp] theorem rxFaultEntry_txBuf (s : State) : (rxFaultEntry s).txBuf = s.txBuf := rfl
@[simp] theorem rxFaultEntry_errLast (s : State) : (rxFaultEntry s).errLast = s.errLast := rfl
@[simp] theorem rxFaultEntry_errCount (s : State) : (rxFaultEntry s).errCount = s.errCount := rfl
@[simp] theorem rxFaultEntry_regs (s : State) : (rxFaultEntry s).regs = s.regs := rfl
@[simp] theorem rxFaultEntry_rxState (s : State) : (rxFaultEntry s).rxState = .fatal := rfl
@[simp] theorem rxFaultEntry_rxBuf (s : State) : (rxFaultEntry s).rxBuf = [] := rfl
@[simp] theorem rxFaultEntry_rxOver (s : State) : (rxFaultEntry s).rxOver = false := rfl
@[simp] theorem rxFaultEntry_rxLast (s : State) : (rxFaultEntry s).rxLast = s.rxLast := rfl
@[simp] theorem rxFaultEntry_rxNew (s : State) : (rxFaultEntry s).rxNew = s.rxNew := rfl
@[simp] theorem rxFaultEntry_rxPendErr (s : State) : (rxFaultEntry s).rxPendErr = s.rxPendErr := rfl
@[simp] theorem rxFaultEntry_cancelReq (s : State) : (rxFaultEntry s).cancelReq = false := rfl
@[simp] theorem rxFaultEntry_msgPending (s : State) : (rxFaultEntry s).msgPending = false := rfl
@[simp] theorem rxFaultEntry_msg (s : State) : (rxFaultEntry s).msg = s.msg := rfl
@[simp] theorem rxFaultEntry_msgHid (s : State) : (rxFaultEntry s).msgHid = s.msgHid := rfl
@[simp] theorem rxFaultEntry_hostTxPend (s : State) : (rxFaultEntry s).hostTxPend = false := rfl
@[simp] theorem rxFaultEntry_hostTxDest (s : State) : (rxFaultEntry s).hostTxDest = s.hostTxDest := rfl
@[simp] theorem rxFaultEntry_hostTxCmd (s : State) : (rxFaultEntry s).hostTxCmd = s.hostTxCmd := rfl
@[simp] theorem rxFaultEntry_pongReq (s : State) : (rxFaultEntry s).pongReq = false := rfl
@[simp] theorem rxFaultEntry_pongDest (s : State) : (rxFaultEntry s).pongDest = s.pongDest := rfl
@[simp] theorem rxFaultEntry_fatal (s : State) : (rxFaultEntry s).fatal = true := rfl
@[simp] theorem rxFaultEntry_errPulse (s : State) : (rxFaultEntry s).errPulse = s.errPulse := rfl
@[simp] theorem rxFaultEntry_txTrace (s : State) : (rxFaultEntry s).txTrace = s.txTrace := rfl
@[simp] theorem rxFaultEntry_errTrace (s : State) : (rxFaultEntry s).errTrace = s.errTrace := rfl
@[simp] theorem rxFaultEntry_dispatchTrace (s : State) : (rxFaultEntry s).dispatchTrace = s.dispatchTrace := rfl
@[simp] theorem rxFaultEntry_responses (s : State) : (rxFaultEntry s).responses = s.responses := rfl
@[simp] theorem rxFaultEntry_schedule (s : State) : (rxFaultEntry s).schedule = s.schedule := rfl
@[simp] theorem rxFaultEntry_hostProgram (s : State) : (rxFaultEntry s).hostProgram = s.hostProgram := rfl
@[simp] theorem rxFaultEntry_rxIn (s : State) : (rxFaultEntry s).rxIn = s.rxIn := rfl
@[simp] theorem rxFaultEntry_txIn (s : State) : (rxFaultEntry s).txIn = s.txIn := rfl
@[simp] theorem rxFaultEntry_draws (s : State) : (rxFaultEntry s).draws = s.draws := rfl

/-! ### pingRespond -/

@[simp] theorem pingRespond_station (m : Message) (s : State) : (pingRespond m s).station = s.station := rfl
@[simp] theorem pingRespond_timeout (m : Message) (s : State) : (pingRespond m s).timeout = s.timeout := rfl
@[simp] theorem pingRespond_cmdResult (m : Message) (s : State) : (pingRespond m s).cmdResult = s.cmdResult := rfl
@[simp] theorem pingRespond_txLen (m : Message) (s : State) : (pingRespond m s).txLen = s.txLen := rfl
@[simp] theorem pingRespond_txBuf (m : Message) (s : State) : (pingRespond m s).txBuf = s.txBuf := rfl
@[simp] theorem pingRespond_errLast (m : Message) (s : State) : (pingRespond m s).errLast = s.errLast := rfl
@[simp] theorem pingRespond_errCount (m : Message) (s : State) : (pingRespond m s).errCount = s.errCount := rfl
@[simp] theorem pingRespond_regs (m : Message) (s : State) : (pingRespond m s).regs = s.regs := rfl
@[simp] theorem pingRespond_rxState (m : Message) (s : State) : (pingRespond m s).rxState = .dispatchPing := rfl
@[simp] theorem pingRespond_rxBuf (m : Message) (s : State) : (pingRespond m s).rxBuf = s.rxBuf := rfl
@[simp] theorem pingRespond_rxOver (m : Message) (s : State) : (pingRespond m s).rxOver = s.rxOver := rfl
@[simp] theorem pingRespond_rxLast (m : Message) (s : State) : (pingRespond m s).rxLast = s.rxLast := rfl
@[simp] theorem pingRespond_rxNew (m : Message) (s : State) : (pingRespond m s).rxNew = s.rxNew := rfl
@[simp] theorem pingRespond_rxPendErr (m : Message) (s : State) : (pingRespond m s).rxPendErr = s.rxPendErr := rfl
@[simp] theorem pingRespond_cancelReq (m : Message) (s : State) : (pingRespond m s).cancelReq = s.cancelReq := rfl
@[simp] theorem pingRespond_msgPending (m : Message) (s : State) : (pingRespond m s).msgPending = s.msgPending := rfl
@[simp] theorem pingRespond_msg (m : Message) (s : State) : (pingRespond m s).msg = s.msg := rfl
@[simp] theorem pingRespond_msgHid (m : Message) (s : State) : (pingRespond m s).msgHid = s.msgHid := rfl
@[simp] theorem pingRespond_hostTxPend (m : Message) (s : State) : (pingRespond m s).hostTxPend = s.hostTxPend := rfl
@[simp] theorem pingRespond_hostTxDest (m : Message) (s : State) : (pingRespond m s).hostTxDest = s.hostTxDest := rfl
@[simp] theorem pingRespond_hostTxCmd (m : Message) (s : State) : (pingRespond m s).hostTxCmd = s.hostTxCmd := rfl
@[simp] theorem pingRespond_pongReq (m : Message) (s : State) : (pingRespond m s).pongReq = true := rfl
@[simp] theorem pingRespond_pongDest (m : Message) (s : State) : (pingRespond m s).pongDest = m.orig := rfl
@[simp] theorem pingRespond_fatal (m : Message) (s : State) : (pingRespond m s).fatal = s.fatal := rfl
@[simp] theorem pingRespond_errPulse (m : Message) (s : State) : (pingRespond m s).errPulse = s.errPulse := rfl
@[simp] theorem pingRespond_txTrace (m : Message) (s : State) : (pingRespond m s).txTrace = s.txTrace := rfl
@[simp] theorem pingRespond_errTrace (m : Message) (s : State) : (pingRespond m s).errTrace = s.errTrace := rfl
@[simp] theorem pingRespond_dispatchTrace (m : Message) (s : State) : (pingRespond m s).dispatchTrace = s.dispatchTrace := rfl
@[simp] theorem pingRespond_responses (m : Message) (s : State) : (pingRespond m s).responses = s.responses := rfl
@[simp] theorem pingRespond_schedule (m : Message) (s : State) : (pingRespond m s).schedule = s.schedule := rfl
@[simp] theorem pingRespond_hostProgram (m : Message) (s : State) : (pingRespond m s).hostProgram = s.hostProgram := rfl
@[simp] theorem pingRespond_rxIn (m : Message) (s : State) : (pingRespond m s).rxIn = s.rxIn := rfl
@[simp] theorem pingRespond_txIn (m : Message) (s : State) : (pingRespond m s).txIn = s.txIn := rfl
@[simp] theorem pingRespond_draws (m : Message) (s : State) : (pingRespond m s).draws = s.draws := rfl

/-! ### dispatchExternal -/

@[simp] theorem dispatchExternal_station (m : Message) (hid : Byte) (s : State) : (dispatchExternal m hid s).station = s.station := rfl
@[simp] theorem dispatchExternal_timeout (m : Message) (hid : Byte) (s : State) : (dispatchExternal m hid s).timeout = s.timeout := rfl
@[simp] theorem dispatchExternal_cmdResult (m : Message) (hid : Byte) (s : State) : (dispatchExternal m hid s).cmdResult = s.cmdResult := rfl
@[simp] theorem dispatchExternal_txLen (m : Message) (hid : Byte) (s : State) : (dispatchExternal m hid s).txLen = s.txLen := rfl
@[simp] theorem dispatchExternal_txBuf (m : Message) (hid : Byte) (s : State) : (dispatchExternal m hid s).txBuf = s.txBuf := rfl
@[simp] theorem dispatchExternal_errLast (m : Message) (hid : Byte) (s : State) : (dispatchExternal m hid s).errLast = s.errLast := rfl
@[simp] theorem dispatchExternal_errCount (m : Message) (hid : Byte) (s : State) : (dispatchExternal m hid s).errCount = s.errCount := rfl
@[simp] theorem dispatchExternal_regs (m : Message) (hid : Byte) (s : State) : (dispatchExternal m hid s).regs = s.regs := rfl
@[simp] theorem dispatchExternal_rxState (m : Message) (hid : Byte) (s : State) : (dispatchExternal m hid s).rxState = .dispatchExt := rfl
@[simp] theorem dispatchExternal_rxBuf (m : Message) (hid : Byte) (s : State) : (dispatchExternal m hid s).rxBuf = s.rxBuf := rfl
@[simp] theorem dispatchExternal_rxOver (m : Message) (hid : Byte) (s : State) : (dispatchExternal m hid s).rxOver = s.rxOver := rfl
@[simp] theorem dispatchExternal_rxLast (m : Message) (hid : Byte) (s : State) : (dispatchExternal m hid s).rxLast = s.rxLast := rfl
@[simp] theorem dispatchExternal_rxNew (m : Message) (hid : Byte) (s : State) : (dispatchExternal m hid s).rxNew = s.rxNew := rfl
@[simp] theorem dispatchExternal_rxPendErr (m : Message) (hid : Byte) (s : State) : (dispatchExternal m hid s).rxPendErr = s.rxPendErr := rfl
@[simp] theorem dispatchExternal_cancelReq (m : Message) (hid : Byte) (s : State) : (dispatchExternal m hid s).cancelReq = s.cancelReq := rfl
@[simp] theorem dispatchExternal_msgPending (m : Message) (hid : Byte) (s : State) : (dispatchExternal m hid s).msgPending = true := rfl
@[simp] theorem dispatchExternal_msg (m : Message) (hid : Byte) (s : State) : (dispatchExternal m hid s).msg = m := rfl
@[simp] theorem dispatchExternal_msgHid (m : Message) (hid : Byte) (s : State) : (dispatchExternal m hid s).msgHid = hid := rfl
@[simp] theorem dispatchExternal_hostTxPend (m : Message) (hid : Byte) (s : State) : (dispatchExternal m hid s).hostTxPend = s.hostTxPend := rfl
@[simp] theorem dispatchExternal_hostTxDest (m : Message) (hid : Byte) (s : State) : (dispatchExternal m hid s).hostTxDest = s.hostTxDest := rfl
@[simp] theorem dispatchExternal_hostTxCmd (m : Message) (hid : Byte) (s : State) : (dispatchExternal m hid s).hostTxCmd = s.hostTxCmd := rfl
@[simp] theorem dispatchExternal_pongReq (m : Message) (hid : Byte) (s : State) : (dispatchExternal m hid s).pongReq = s.pongReq := rfl
@[simp] theorem dispatchExternal_pongDest (m : Message) (hid : Byte) (s : State) : (dispatchExternal m hid s).pongDest = s.pongDest := rfl
@[simp] theorem dispatchExternal_fatal (m : Message) (hid : Byte) (s : State) : (dispatchExternal m hid s).fatal = s.fatal := rfl
@[simp] theorem dispatchExternal_errPulse (m : Message) (hid : Byte) (s : State) : (dispatchExternal m hid s).errPulse = s.errPulse := rfl
@[simp] theorem dispatchExternal_txTrace (m : Message) (hid : Byte) (s : State) : (dispatchExternal m hid s).txTrace = s.txTrace := rfl
@[simp] theorem dispatchExternal_errTrace (m : Message) (hid : Byte) (s : State) : (dispatchExternal m hid s).errTrace = s.errTrace := rfl
@[simp] theorem dispatchExternal_dispatchTrace (m : Message) (hid : Byte) (s : State) : (dispatchExternal m hid s).dispatchTrace = s.dispatchTrace ++ [(m, hid)] := rfl
@[simp] theorem dispatchExternal_responses (m : Message) (hid : Byte) (s : State) : (dispatchExternal m hid s).responses = s.responses := rfl
@[simp] theorem dispatchExternal_schedule (m : Message) (hid : Byte) (s : State) : (dispatchExternal m hid s).schedule = s.schedule := rfl
@[simp] theorem dispatchExternal_hostProgram (m : Message) (hid : Byte) (s : State) : (dispatchExternal m hid s).hostProgram = s.hostProgram := rfl
@[simp] theorem dispatchExternal_rxIn (m : Message) (hid : Byte) (s : State) : (dispatchExternal m hid s).rxIn = s.rxIn := rfl
@[simp] theorem dispatchExternal_txIn (m : Message) (hid : Byte) (s : State) : (dispatchExternal m hid s).txIn = s.txIn := rfl
@[simp] theorem dispatchExternal_draws (m : Message) (hid : Byte) (s : State) : (dispatchExternal m hid s).draws = s.draws := rfl

/-! ### respond -/

@[simp] theorem respond_station (r : BusResponse) (s : State) : (respond r s).station = s.station := rfl
@[simp] theorem respond_timeout (r : BusResponse) (s : State) : (respond r s).timeout = s.timeout := rfl
@[simp] theorem respond_cmdResult (r : BusResponse) (s : State) : (respond r s).cmdResult = s.cmdResult := rfl
@[simp] theorem respond_txLen (r : BusResponse) (s : State) : (respond r s).txLen = s.txLen := rfl
@[simp] theorem respond_txBuf (r : BusResponse) (s : State) : (respond r s).txBuf = s.txBuf := rfl
@[simp] theorem respond_errLast (r : BusResponse) (s : State) : (respond r s).errLast = s.errLast := rfl
@[simp] theorem respond_errCount (r : BusResponse) (s : State) : (respond r s).errCount = s.errCount := rfl
@[simp] theorem respond_regs (r : BusResponse) (s : State) : (respond r s).regs = s.regs := rfl
@[simp] theorem respond_rxState (r : BusResponse) (s : State) : (respond r s).rxState = s.rxState := rfl
@[simp] theorem respond_rxBuf (r : BusResponse) (s : State) : (respond r s).rxBuf = s.rxBuf := rfl
@[simp] theorem respond_rxOver (r : BusResponse) (s : State) : (respond r s).rxOver = s.rxOver := rfl
@[simp] theorem respond_rxLast (r : BusResponse) (s : State) : (respond r s).rxLast = s.rxLast := rfl
@[simp] theorem respond_rxNew (r : BusResponse) (s : State) : (respond r s).rxNew = s.rxNew := rfl
@[simp] theorem respond_rxPendErr (r : BusResponse) (s : State) : (respond r s).rxPendErr = s.rxPendErr := rfl
@[simp] theorem respond_cancelReq (r : BusResponse) (s : State) : (respond r s).cancelReq = s.cancelReq := rfl
@[simp] theorem respond_msgPending (r : BusResponse) (s : State) : (respond r s).msgPending = s.msgPending := rfl
@[simp] theorem respond_msg (r : BusResponse) (s : State) : (respond r s).msg = s.msg := rfl
@[simp] theorem respond_msgHid (r : BusResponse) (s : State) : (respond r s).msgHid = s.msgHid := rfl
@[simp] theorem respond_hostTxPend (r : BusResponse) (s : State) : (respond r s).hostTxPend = s.hostTxPend := rfl
@[simp] theorem respond_hostTxDest (r : BusResponse) (s : State) : (respond r s).hostTxDest = s.hostTxDest := rfl
@[simp] theorem respond_hostTxCmd (r : BusResponse) (s : State) : (respond r s).hostTxCmd = s.hostTxCmd := rfl
@[simp] theorem respond_pongReq (r : BusResponse) (s : State) : (respond r s).pongReq = s.pongReq := rfl
@[simp] theorem respond_pongDest (r : BusResponse) (s : State) : (respond r s).pongDest = s.pongDest := rfl
@[simp] theorem respond_fatal (r : BusResponse) (s : State) : (respond r s).fatal = s.fatal := rfl
@[simp] theorem respond_errPulse (r : BusResponse) (s : State) : (respond r s).errPulse = s.errPulse := rfl
@[simp] theorem respond_txTrace (r : BusResponse) (s : State) : (respond r s).txTrace = s.txTrace := rfl
@[simp] theorem respond_errTrace (r : BusResponse) (s : State) : (respond r s).errTrace = s.errTrace := rfl
@[simp] theorem respond_dispatchTrace (r : BusResponse) (s : State) : (respond r s).dispatchTrace = s.dispatchTrace := rfl
@[simp] theorem respond_responses (r : BusResponse) (s : State) : (respond r s).responses = s.responses ++ [r] := rfl
@[simp] theorem respond_schedule (r : BusResponse) (s : State) : (respond r s).schedule = s.schedule := rfl
@[simp] theorem respond_hostProgram (r : BusResponse) (s : State) : (respond r s).hostProgram = s.hostProgram := rfl
@[simp] theorem respond_rxIn (r : BusResponse) (s : State) : (respond r s).rxIn = s.rxIn := rfl
@[simp] theorem respond_txIn (r : BusResponse) (s : State) : (respond r s).txIn = s.txIn := rfl
@[simp] theorem respond_draws (r : BusResponse) (s : State) : (respond r s).draws = s.draws := rfl

/-! ### beginStep -/

@[simp] theorem beginStep_station (s : State) : (beginStep s).station = s.station := rfl
@[simp] theorem beginStep_timeout (s : State) : (beginStep s).timeout = s.timeout := rfl
@[simp] theorem beginStep_cmdResult (s : State) : (beginStep s).cmdResult = s.cmdResult := rfl
@[simp] theorem beginStep_txLen (s : State) : (beginStep s).txLen = s.txLen := rfl
@[simp] theorem beginStep_txBuf (s : State) : (beginStep s).txBuf = s.txBuf := rfl
@[simp] theorem beginStep_errLast (s : State) : (beginStep s).errLast = s.errLast := rfl
@[simp] theorem beginStep_errCount (s : State) : (beginStep s).errCount = s.errCount := rfl
@[simp] theorem beginStep_regs (s : State) : (beginStep s).regs = s.regs := rfl
@[simp] theorem beginStep_rxState (s : State) : (beginStep s).rxState = s.rxState := rfl
@[simp] theorem beginStep_rxBuf (s : State) : (beginStep s).rxBuf = s.rxBuf := rfl
@[simp] theorem beginStep_rxOver (s : State) : (beginStep s).rxOver = s.rxOver := rfl
@[simp] theorem beginStep_rxLast (s : State) : (beginStep s).rxLast = s.rxLast := rfl
@[simp] theorem beginStep_rxNew (s : State) : (beginStep s).rxNew = s.rxNew := rfl
@[simp] theorem beginStep_rxPendErr (s : State) : (beginStep s).rxPendErr = s.rxPendErr := rfl
@[simp] theorem beginStep_cancelReq (s : State) : (beginStep s).cancelReq = s.cancelReq := rfl
@[simp] theorem beginStep_msgPending (s : State) : (beginStep s).msgPending = s.msgPending := rfl
@[simp] theorem beginStep_msg (s : State) : (beginStep s).msg = s.msg := rfl
@[simp] theorem beginStep_msgHid (s : State) : (beginStep s).msgHid = s.msgHid := rfl
@[simp] theorem beginStep_hostTxPend (s : State) : (beginStep s).hostTxPend = s.hostTxPend := rfl
@[simp] theorem beginStep_hostTxDest (s : State) : (beginStep s).hostTxDest = s.hostTxDest := rfl
@[simp] theorem beginStep_hostTxCmd (s : State) : (beginStep s).hostTxCmd = s.hostTxCmd := rfl
@[simp] theorem beginStep_pongReq (s : State) : (beginStep s).pongReq = s.pongReq := rfl
@[simp] theorem beginStep_pongDest (s : State) : (beginStep s).pongDest = s.pongDest := rfl
@[simp] theorem beginStep_fatal (s : State) : (beginStep s).fatal = s.fatal := rfl
@[simp] theorem beginStep_errPulse (s : State) : (beginStep s).errPulse = none := rfl
@[simp] theorem beginStep_txTrace (s : State) : (beginStep s).txTrace = s.txTrace := rfl
@[simp] theorem beginStep_errTrace (s : State) : (beginStep s).errTrace = s.errTrace := rfl
@[simp] theorem beginStep_dispatchTrace (s : State) : (beginStep s).dispatchTrace = s.dispatchTrace := rfl
@[simp] theorem beginStep_responses (s : State) : (beginStep s).responses = s.responses := rfl
@[simp] theorem beginStep_schedule (s : State) : (beginStep s).schedule = s.schedule.tail := rfl
@[simp] theorem beginStep_hostProgram (s : State) : (beginStep s).hostProgram = s.hostProgram := rfl
@[simp] theorem beginStep_rxIn (s : State) : (beginStep s).rxIn = s.rxIn := rfl
@[simp] theorem beginStep_txIn (s : State) : (beginStep s).txIn = s.txIn := rfl
@[simp] theorem beginStep_draws (s : State) : (beginStep s).draws = s.draws := rfl

/-! ### endStep -/

@[simp] theorem endStep_station (s : State) : (endStep s).station = s.station := rfl
@[simp] theorem endStep_timeout (s : State) : (endStep s).timeout = s.timeout := rfl
@[simp] theorem endStep_cmdResult (s : State) : (endStep s).cmdResult = s.cmdResult := rfl
@[simp] theorem endStep_txLen (s : State) : (endStep s).txLen = s.txLen := rfl
@[simp] theorem endStep_txBuf (s : State) : (endStep s).txBuf = s.txBuf := rfl
@[simp] theorem endStep_errLast (s : State) : (endStep s).errLast = s.errLast := rfl
@[simp] theorem endStep_errCount (s : State) : (endStep s).errCount = s.errCount := rfl
@[simp] theorem endStep_regs (s : State) : (endStep s).regs = s.regs := rfl
@[simp] theorem endStep_rxState (s : State) : (endStep s).rxState = s.rxState := rfl
@[simp] theorem endStep_rxBuf (s : State) : (endStep s).rxBuf = s.rxBuf := rfl
@[simp] theorem endStep_rxOver (s : State) : (endStep s).rxOver = s.rxOver := rfl
@[simp] theorem endStep_rxLast (s : State) : (endStep s).rxLast = s.rxLast := rfl
@[simp] theorem endStep_rxNew (s : State) : (endStep s).rxNew = s.rxNew := rfl
@[simp] theorem endStep_rxPendErr (s : State) : (endStep s).rxPendErr = s.rxPendErr := rfl
@[simp] theorem endStep_cancelReq (s : State) : (endStep s).cancelReq = s.cancelReq := rfl
@[simp] theorem endStep_msgPending (s : State) : (endStep s).msgPending = s.msgPending := rfl
@[simp] theorem endStep_msg (s : State) : (endStep s).msg = s.msg := rfl
@[simp] theorem endStep_msgHid (s : State) : (endStep s).msgHid = s.msgHid := rfl
@[simp] theorem endStep_hostTxPend (s : State) : (endStep s).hostTxPend = s.hostTxPend := rfl
@[simp] theorem endStep_hostTxDest (s : State) : (endStep s).hostTxDest = s.hostTxDest := rfl
@[simp] theorem endStep_hostTxCmd (s : State) : (endStep s).hostTxCmd = s.hostTxCmd := rfl
@[simp] theorem endStep_pongReq (s : State) : (endStep s).pongReq = s.pongReq := rfl
@[simp] theorem endStep_pongDest (s : State) : (endStep s).pongDest = s.pongDest := rfl
@[simp] theorem endStep_fatal (s : State) : (endStep s).fatal = s.fatal := rfl
@[simp] theorem endStep_errPulse (s : State) : (endStep s).errPulse = s.errPulse := rfl
@[simp] theorem endStep_txTrace (s : State) : (endStep s).txTrace = s.txTrace := rfl
@[simp] theorem endStep_errTrace (s : State) : (endStep s).errTrace = s.errTrace := rfl
@[simp] theorem endStep_dispatchTrace (s : State) : (endStep s).dispatchTrace = s.dispatchTrace := rfl
@[simp] theorem endStep_responses (s : State) : (endStep s).responses = s.responses := rfl
@[simp] theorem endStep_schedule (s : State) : (endStep s).schedule = s.schedule := rfl
@[simp] theorem endStep_hostProgram (s : State) : (endStep s).hostProgram = s.hostProgram := rfl
@[simp] theorem endStep_rxIn (s : State) : (endStep s).rxIn = s.rxIn := rfl
@[simp] theorem endStep_txIn (s : State) : (endStep s).txIn = s.txIn := rfl
@[simp] theorem endStep_draws (s : State) : (endStep s).draws = s.draws + 1 := rfl

/-! ### popHost -/

@[simp] theorem popHost_station (s : State) : (popHost s).station = s.station := rfl
@[simp] theorem popHost_timeout (s : State) : (popHost s).timeout = s.timeout := rfl
@[simp] theorem popHost_cmdResult (s : State) : (popHost s).cmdResult = s.cmdResult := rfl
@[simp] theorem popHost_txLen (s : State) : (popHost s).txLen = s.txLen := rfl
@[simp] theorem popHost_txBuf (s : State) : (popHost s).txBuf = s.txBuf := rfl
@[simp] theorem popHost_errLast (s : State) : (popHost s).errLast = s.errLast := rfl
@[simp] theorem popHost_errCount (s : State) : (popHost s).errCount = s.errCount := rfl
@[simp] theorem popHost_regs (s : State) : (popHost s).regs = s.regs := rfl
@[simp] theorem popHost_rxState (s : State) : (popHost s).rxState = s.rxState := rfl
@[simp] theorem popHost_rxBuf (s : State) : (popHost s).rxBuf = s.rxBuf := rfl
@[simp] theorem popHost_rxOver (s : State) : (popHost s).rxOver = s.rxOver := rfl
@[simp] theorem popHost_rxLast (s : State) : (popHost s).rxLast = s.rxLast := rfl
@[simp] theorem popHost_rxNew (s : State) : (popHost s).rxNew = s.rxNew := rfl
@[simp] theorem popHost_rxPendErr (s : State) : (popHost s).rxPendErr = s.rxPendErr := rfl
@[simp] theorem popHost_cancelReq (s : State) : (popHost s).cancelReq = s.cancelReq := rfl
@[simp] theorem popHost_msgPending (s : State) : (popHost s).msgPending = s.msgPending := rfl
@[simp] theorem popHost_msg (s : State) : (popHost s).msg = s.msg := rfl
@[simp] theorem popHost_msgHid (s : State) : (popHost s).msgHid = s.msgHid := rfl
@[simp] theorem popHost_hostTxPend (s : State) : (popHost s).hostTxPend = s.hostTxPend := rfl
@[simp] theorem popHost_hostTxDest (s : State) : (popHost s).hostTxDest = s.hostTxDest := rfl
@[simp] theorem popHost_hostTxCmd (s : State) : (popHost s).hostTxCmd = s.hostTxCmd := rfl
@[simp] theorem popHost_pongReq (s : State) : (popHost s).pongReq = s.pongReq := rfl
@[simp] theorem popHost_pongDest (s : State) : (popHost s).pongDest = s.pongDest := rfl
@[simp] theorem popHost_fatal (s : State) : (popHost s).fatal = s.fatal := rfl
@[simp] theorem popHost_errPulse (s : State) : (popHost s).errPulse = s.errPulse := rfl
@[simp] theorem popHost_txTrace (s : State) : (popHost s).txTrace = s.txTrace := rfl
@[simp] theorem popHost_errTrace (s : State) : (popHost s).errTrace = s.errTrace := rfl
@[simp] theorem popHost_dispatchTrace (s : State) : (popHost s).dispatchTrace = s.dispatchTrace := rfl
@[simp] theorem popHost_responses (s : State) : (popHost s).responses = s.responses := rfl
@[simp] theorem popHost_schedule (s : State) : (popHost s).schedule = s.schedule := rfl
@[simp] theorem popHost_hostProgram (s : State) : (popHost s).hostProgram = s.hostProgram.tail := rfl
@[simp] theorem popHost_rxIn (s : State) : (popHost s).rxIn = s.rxIn := rfl
@[simp] theorem popHost_txIn (s : State) : (popHost s).txIn = s.txIn := rfl
@[simp] theorem popHost_draws (s : State) : (popHost s).draws = s.draws := rfl

/-! ### popRx -/

@[simp] theorem popRx_station (s : State) : (popRx s).station = s.station := rfl
@[simp] theorem popRx_timeout (s : State) : (popRx s).timeout = s.timeout := rfl
@[simp] theorem popRx_cmdResult (s : State) : (popRx s).cmdResult = s.cmdResult := rfl
@[simp] theorem popRx_txLen (s : State) : (popRx s).txLen = s.txLen := rfl
@[simp] theorem popRx_txBuf (s : State) : (popRx s).txBuf = s.txBuf := rfl
@[simp] theorem popRx_errLast (s : State) : (popRx s).errLast = s.errLast := rfl
@[simp] theorem popRx_errCount (s : State) : (popRx s).errCount = s.errCount := rfl
@[simp] theorem popRx_regs (s : State) : (popRx s).regs = s.regs := rfl
@[simp] theorem popRx_rxState (s : State) : (popRx s).rxState = s.rxState := rfl
@[simp] theorem popRx_rxBuf (s : State) : (popRx s).rxBuf = s.rxBuf := rfl
@[simp] theorem popRx_rxOver (s : State) : (popRx s).rxOver = s.rxOver := rfl
@[simp] theorem popRx_rxLast (s : State) : (popRx s).rxLast = s.rxLast := rfl
@[simp] theorem popRx_rxNew (s : State) : (popRx s).rxNew = s.rxNew := rfl
@[simp] theorem popRx_rxPendErr (s : State) : (popRx s).rxPendErr = s.rxPendErr := rfl
@[simp] theorem popRx_cancelReq (s : State) : (popRx s).cancelReq = s.cancelReq := rfl
@[simp] theorem popRx_msgPending (s : State) : (popRx s).msgPending = s.msgPending := rfl
@[simp] theorem popRx_msg (s : State) : (popRx s).msg = s.msg := rfl
@[simp] theorem popRx_msgHid (s : State) : (popRx s).msgHid = s.msgHid := rfl
@[simp] theorem popRx_hostTxPend (s : State) : (popRx s).hostTxPend = s.hostTxPend := rfl
@[simp] theorem popRx_hostTxDest (s : State) : (popRx s).hostTxDest = s.hostTxDest := rfl
@[simp] theorem popRx_hostTxCmd (s : State) : (popRx s).hostTxCmd = s.hostTxCmd := rfl
@[simp] theorem popRx_pongReq (s : State) : (popRx s).pongReq = s.pongReq := rfl
@[simp] theorem popRx_pongDest (s : State) : (popRx s).pongDest = s.pongDest := rfl
@[simp] theorem popRx_fatal (s : State) : (popRx s).fatal = s.fatal := rfl
@[simp] theorem popRx_errPulse (s : State) : (popRx s).errPulse = s.errPulse := rfl
@[simp] theorem popRx_txTrace (s : State) : (popRx s).txTrace = s.txTrace := rfl
@[simp] theorem popRx_errTrace (s : State) : (popRx s).errTrace = s.errTrace := rfl
@[simp] theorem popRx_dispatchTrace (s : State) : (popRx s).dispatchTrace = s.dispatchTrace := rfl
@[simp] theorem popRx_responses (s : State) : (popRx s).responses = s.responses := rfl
@[simp] theorem popRx_schedule (s : State) : (popRx s).schedule = s.schedule := rfl
@[simp] theorem popRx_hostProgram (s : State) : (popRx s).hostProgram = s.hostProgram := rfl
@[simp] theorem popRx_rxIn (s : State) : (popRx s).rxIn = s.rxIn.tail := rfl
@[simp] theorem popRx_txIn (s : State) : (popRx s).txIn = s.txIn := rfl
@[simp] theorem popRx_draws (s : State) : (popRx s).draws = s.draws := rfl

/-! ### popTx -/

@[simp] theorem popTx_station (s : State) : (popTx s).station = s.station := rfl
@[simp] theorem popTx_timeout (s : State) : (popTx s).timeout = s.timeout := rfl
@[simp] theorem popTx_cmdResult (s : State) : (popTx s).cmdResult = s.cmdResult := rfl
@[simp] theorem popTx_txLen (s : State) : (popTx s).txLen = s.txLen := rfl
@[simp] theorem popTx_txBuf (s : State) : (popTx s).txBuf = s.txBuf := rfl
@[simp] theorem popTx_errLast (s : State) : (popTx s).errLast = s.errLast := rfl
@[simp] theorem popTx_errCount (s : State) : (popTx s).errCount = s.errCount := rfl
@[simp] theorem popTx_regs (s : State) : (popTx s).regs = s.regs := rfl
@[simp] theorem popTx_rxState (s : State) : (popTx s).rxState = s.rxState := rfl
@[simp] theorem popTx_rxBuf (s : State) : (popTx s).rxBuf = s.rxBuf := rfl
@[simp] theorem popTx_rxOver (s : State) : (popTx s).rxOver = s.rxOver := rfl
@[simp] theorem popTx_rxLast (s : State) : (popTx s).rxLast = s.rxLast := rfl
@[simp] theorem popTx_rxNew (s : State) : (popTx s).rxNew = s.rxNew := rfl
@[simp] theorem popTx_rxPendErr (s : State) : (popTx s).rxPendErr = s.rxPendErr := rfl
@[simp] theorem popTx_cancelReq (s : State) : (popTx s).cancelReq = s.cancelReq := rfl
@[simp] theorem popTx_msgPending (s : State) : (popTx s).msgPending = s.msgPending := rfl
@[simp] theorem popTx_msg (s : State) : (popTx s).msg = s.msg := rfl
@[simp] theorem popTx_msgHid (s : State) : (popTx s).msgHid = s.msgHid := rfl
@[simp] theorem popTx_hostTxPend (s : State) : (popTx s).hostTxPend = s.hostTxPend := rfl
@[simp] theorem popTx_hostTxDest (s : State) : (popTx s).hostTxDest = s.hostTxDest := rfl
@[simp] theorem popTx_hostTxCmd (s : State) : (popTx s).hostTxCmd = s.hostTxCmd := rfl
@[simp] theorem popTx_pongReq (s : State) : (popTx s).pongReq = s.pongReq := rfl
@[simp] theorem popTx_pongDest (s : State) : (popTx s).pongDest = s.pongDest := rfl
@[simp] theorem popTx_fatal (s : State) : (popTx s).fatal = s.fatal := rfl
@[simp] theorem popTx_errPulse (s : State) : (popTx s).errPulse = s.errPulse := rfl
@[simp] theorem popTx_txTrace (s : State) : (popTx s).txTrace = s.txTrace := rfl
@[simp] theorem popTx_errTrace (s : State) : (popTx s).errTrace = s.errTrace := rfl
@[simp] theorem popTx_dispatchTrace (s : State) : (popTx s).dispatchTrace = s.dispatchTrace := rfl
@[simp] theorem popTx_responses (s : State) : (popTx s).responses = s.responses := rfl
@[simp] theorem popTx_schedule (s : State) : (popTx s).schedule = s.schedule := rfl
@[simp] theorem popTx_hostProgram (s : State) : (popTx s).hostProgram = s.hostProgram := rfl
@[simp] theorem popTx_rxIn (s : State) : (popTx s).rxIn = s.rxIn := rfl
@[simp] theorem popTx_txIn (s : State) : (popTx s).txIn = s.txIn.tail := rfl
@[simp] theorem popTx_draws (s : State) : (popTx s).draws = s.draws := rfl

/-! ### loopTop: the two branches of R150 as one update -/

@[simp] theorem loopTop_station (s : State) : (loopTop s).station = s.station := by
  unfold loopTop; split <;> rfl
@[simp] theorem loopTop_timeout (s : State) : (loopTop s).timeout = s.timeout := by
  unfold loopTop; split <;> rfl
@[simp] theorem loopTop_cmdResult (s : State) : (loopTop s).cmdResult = s.cmdResult := by
  unfold loopTop; split <;> rfl
@[simp] theorem loopTop_txLen (s : State) : (loopTop s).txLen = s.txLen := by
  unfold loopTop; split <;> rfl
@[simp] theorem loopTop_txBuf (s : State) : (loopTop s).txBuf = s.txBuf := by
  unfold loopTop; split <;> rfl
@[simp] theorem loopTop_errLast (s : State) : (loopTop s).errLast = s.errLast := by
  unfold loopTop; split <;> rfl
@[simp] theorem loopTop_errCount (s : State) : (loopTop s).errCount = s.errCount := by
  unfold loopTop; split <;> rfl
@[simp] theorem loopTop_regs (s : State) : (loopTop s).regs = s.regs := by
  unfold loopTop; split <;> rfl
@[simp] theorem loopTop_rxState (s : State) : (loopTop s).rxState = if s.cancelReq then .stopped else .readFirst := by
  unfold loopTop; split <;> simp_all
@[simp] theorem loopTop_rxBuf (s : State) : (loopTop s).rxBuf = if s.cancelReq then s.rxBuf else [] := by
  unfold loopTop; split <;> simp_all
@[simp] theorem loopTop_rxOver (s : State) : (loopTop s).rxOver = if s.cancelReq then s.rxOver else false := by
  unfold loopTop; split <;> simp_all
@[simp] theorem loopTop_rxLast (s : State) : (loopTop s).rxLast = s.rxLast := by
  unfold loopTop; split <;> rfl
@[simp] theorem loopTop_rxNew (s : State) : (loopTop s).rxNew = if s.cancelReq then s.rxNew else false := by
  unfold loopTop; split <;> simp_all
@[simp] theorem loopTop_rxPendErr (s : State) : (loopTop s).rxPendErr = s.rxPendErr := by
  unfold loopTop; split <;> rfl
@[simp] theorem loopTop_cancelReq (s : State) : (loopTop s).cancelReq = false := by
  unfold loopTop; split <;> simp_all
@[simp] theorem loopTop_msgPending (s : State) : (loopTop s).msgPending = s.msgPending := by
  unfold loopTop; split <;> rfl
@[simp] theorem loopTop_msg (s : State) : (loopTop s).msg = s.msg := by
  unfold loopTop; split <;> rfl
@[simp] theorem loopTop_msgHid (s : State) : (loopTop s).msgHid = s.msgHid := by
  unfold loopTop; split <;> rfl
@[simp] theorem loopTop_hostTxPend (s : State) : (loopTop s).hostTxPend = s.hostTxPend := by
  unfold loopTop; split <;> rfl
@[simp] theorem loopTop_hostTxDest (s : State) : (loopTop s).hostTxDest = s.hostTxDest := by
  unfold loopTop; split <;> rfl
@[simp] theorem loopTop_hostTxCmd (s : State) : (loopTop s).hostTxCmd = s.hostTxCmd := by
  unfold loopTop; split <;> rfl
@[simp] theorem loopTop_pongReq (s : State) : (loopTop s).pongReq = s.pongReq := by
  unfold loopTop; split <;> rfl
@[simp] theorem loopTop_pongDest (s : State) : (loopTop s).pongDest = s.pongDest := by
  unfold loopTop; split <;> rfl
@[simp] theorem loopTop_fatal (s : State) : (loopTop s).fatal = s.fatal := by
  unfold loopTop; split <;> rfl
@[simp] theorem loopTop_errPulse (s : State) : (loopTop s).errPulse = s.errPulse := by
  unfold loopTop; split <;> rfl
@[simp] theorem loopTop_txTrace (s : State) : (loopTop s).txTrace = s.txTrace := by
  unfold loopTop; split <;> rfl
@[simp] theorem loopTop_errTrace (s : State) : (loopTop s).errTrace = s.errTrace := by
  unfold loopTop; split <;> rfl
@[simp] theorem loopTop_dispatchTrace (s : State) : (loopTop s).dispatchTrace = s.dispatchTrace := by
  unfold loopTop; split <;> rfl
@[simp] theorem loopTop_responses (s : State) : (loopTop s).responses = s.responses := by
  unfold loopTop; split <;> rfl
@[simp] theorem loopTop_schedule (s : State) : (loopTop s).schedule = s.schedule := by
  unfold loopTop; split <;> rfl
@[simp] theorem loopTop_hostProgram (s : State) : (loopTop s).hostProgram = s.hostProgram := by
  unfold loopTop; split <;> rfl
@[simp] theorem loopTop_rxIn (s : State) : (loopTop s).rxIn = s.rxIn := by
  unfold loopTop; split <;> rfl
@[simp] theorem loopTop_txIn (s : State) : (loopTop s).txIn = s.txIn := by
  unfold loopTop; split <;> rfl
@[simp] theorem loopTop_draws (s : State) : (loopTop s).draws = s.draws := by
  unfold loopTop; split <;> rfl
/-! ### csrStore: what a register write never changes (R66) -/

@[simp] theorem csrStore_station (r : Csr) (v : Word) (s : State) : (csrStore r v s).station = s.station := by
  cases r <;> simp only [csrStore] <;> split <;> rfl
@[simp] theorem csrStore_cmdResult (r : Csr) (v : Word) (s : State) : (csrStore r v s).cmdResult = s.cmdResult := by
  cases r <;> simp only [csrStore] <;> split <;> rfl
@[simp] theorem csrStore_errLast (r : Csr) (v : Word) (s : State) : (csrStore r v s).errLast = s.errLast := by
  cases r <;> simp only [csrStore] <;> split <;> rfl
@[simp] theorem csrStore_errCount (r : Csr) (v : Word) (s : State) : (csrStore r v s).errCount = s.errCount := by
  cases r <;> simp only [csrStore] <;> split <;> rfl
@[simp] theorem csrStore_regs (r : Csr) (v : Word) (s : State) : (csrStore r v s).regs = s.regs := by
  cases r <;> simp only [csrStore] <;> split <;> rfl
@[simp] theorem csrStore_rxState (r : Csr) (v : Word) (s : State) : (csrStore r v s).rxState = s.rxState := by
  cases r <;> simp only [csrStore] <;> split <;> rfl
@[simp] theorem csrStore_rxBuf (r : Csr) (v : Word) (s : State) : (csrStore r v s).rxBuf = s.rxBuf := by
  cases r <;> simp only [csrStore] <;> split <;> rfl
@[simp] theorem csrStore_rxOver (r : Csr) (v : Word) (s : State) : (csrStore r v s).rxOver = s.rxOver := by
  cases r <;> simp only [csrStore] <;> split <;> rfl
@[simp] theorem csrStore_rxLast (r : Csr) (v : Word) (s : State) : (csrStore r v s).rxLast = s.rxLast := by
  cases r <;> simp only [csrStore] <;> split <;> rfl
@[simp] theorem csrStore_rxNew (r : Csr) (v : Word) (s : State) : (csrStore r v s).rxNew = s.rxNew := by
  cases r <;> simp only [csrStore] <;> split <;> rfl
@[simp] theorem csrStore_rxPendErr (r : Csr) (v : Word) (s : State) : (csrStore r v s).rxPendErr = s.rxPendErr := by
  cases r <;> simp only [csrStore] <;> split <;> rfl
@[simp] theorem csrStore_cancelReq (r : Csr) (v : Word) (s : State) : (csrStore r v s).cancelReq = s.cancelReq := by
  cases r <;> simp only [csrStore] <;> split <;> rfl
@[simp] theorem csrStore_msgPending (r : Csr) (v : Word) (s : State) : (csrStore r v s).msgPending = s.msgPending := by
  cases r <;> simp only [csrStore] <;> split <;> rfl
@[simp] theorem csrStore_msg (r : Csr) (v : Word) (s : State) : (csrStore r v s).msg = s.msg := by
  cases r <;> simp only [csrStore] <;> split <;> rfl
@[simp] theorem csrStore_msgHid (r : Csr) (v : Word) (s : State) : (csrStore r v s).msgHid = s.msgHid := by
  cases r <;> simp only [csrStore] <;> split <;> rfl
@[simp] theorem csrStore_hostTxPend (r : Csr) (v : Word) (s : State) : (csrStore r v s).hostTxPend = s.hostTxPend := by
  cases r <;> simp only [csrStore] <;> split <;> rfl
@[simp] theorem csrStore_hostTxDest (r : Csr) (v : Word) (s : State) : (csrStore r v s).hostTxDest = s.hostTxDest := by
  cases r <;> simp only [csrStore] <;> split <;> rfl
@[simp] theorem csrStore_hostTxCmd (r : Csr) (v : Word) (s : State) : (csrStore r v s).hostTxCmd = s.hostTxCmd := by
  cases r <;> simp only [csrStore] <;> split <;> rfl
@[simp] theorem csrStore_pongReq (r : Csr) (v : Word) (s : State) : (csrStore r v s).pongReq = s.pongReq := by
  cases r <;> simp only [csrStore] <;> split <;> rfl
@[simp] theorem csrStore_pongDest (r : Csr) (v : Word) (s : State) : (csrStore r v s).pongDest = s.pongDest := by
  cases r <;> simp only [csrStore] <;> split <;> rfl
@[simp] theorem csrStore_fatal (r : Csr) (v : Word) (s : State) : (csrStore r v s).fatal = s.fatal := by
  cases r <;> simp only [csrStore] <;> split <;> rfl
@[simp] theorem csrStore_errPulse (r : Csr) (v : Word) (s : State) : (csrStore r v s).errPulse = s.errPulse := by
  cases r <;> simp only [csrStore] <;> split <;> rfl
@[simp] theorem csrStore_txTrace (r : Csr) (v : Word) (s : State) : (csrStore r v s).txTrace = s.txTrace := by
  cases r <;> simp only [csrStore] <;> split <;> rfl
@[simp] theorem csrStore_errTrace (r : Csr) (v : Word) (s : State) : (csrStore r v s).errTrace = s.errTrace := by
  cases r <;> simp only [csrStore] <;> split <;> rfl
@[simp] theorem csrStore_dispatchTrace (r : Csr) (v : Word) (s : State) : (csrStore r v s).dispatchTrace = s.dispatchTrace := by
  cases r <;> simp only [csrStore] <;> split <;> rfl
@[simp] theorem csrStore_responses (r : Csr) (v : Word) (s : State) : (csrStore r v s).responses = s.responses := by
  cases r <;> simp only [csrStore] <;> split <;> rfl
@[simp] theorem csrStore_schedule (r : Csr) (v : Word) (s : State) : (csrStore r v s).schedule = s.schedule := by
  cases r <;> simp only [csrStore] <;> split <;> rfl
@[simp] theorem csrStore_hostProgram (r : Csr) (v : Word) (s : State) : (csrStore r v s).hostProgram = s.hostProgram := by
  cases r <;> simp only [csrStore] <;> split <;> rfl
@[simp] theorem csrStore_rxIn (r : Csr) (v : Word) (s : State) : (csrStore r v s).rxIn = s.rxIn := by
  cases r <;> simp only [csrStore] <;> split <;> rfl
@[simp] theorem csrStore_txIn (r : Csr) (v : Word) (s : State) : (csrStore r v s).txIn = s.txIn := by
  cases r <;> simp only [csrStore] <;> split <;> rfl
@[simp] theorem csrStore_draws (r : Csr) (v : Word) (s : State) : (csrStore r v s).draws = s.draws := by
  cases r <;> simp only [csrStore] <;> split <;> rfl

/-! ### The outcome combinator -/

@[simp] theorem afterNext_next (f : State → State) (s : State) : afterNext f (.next s) = .next (f s) := rfl
@[simp] theorem afterNext_fault (f : State → State) (r : Fault) : afterNext f (.fault r) = .fault r := rfl
@[simp] theorem afterNext_refused (f : State → State) (r : Refusal) : afterNext f (.refused r) = .refused r := rfl

/-! ### The registry accessor -/

/-- A registry entry is read where it was written. -/
@[simp] theorem regEntry_setRegEntry_same (c : Byte) (e : RegEntry) (s : State) :
    regEntry (setRegEntry c e s) c = e := by
  simp [regEntry, setRegEntry]

/-- Writing one entry leaves every other entry as it was. -/
theorem regEntry_setRegEntry_other {c d : Byte} (h : d ≠ c) (e : RegEntry) (s : State) :
    regEntry (setRegEntry c e s) d = regEntry s d := by
  have hne : c.toNat ≠ d.toNat := fun hcd => h (BitVec.eq_of_toNat_eq hcd.symm)
  simp [regEntry, setRegEntry, hne]

/-- The registry accessor reads the field regs alone. -/
theorem regEntry_congr {s t : State} (h : t.regs = s.regs) (c : Byte) : regEntry t c = regEntry s c := by
  unfold regEntry
  simp only [h]

end Sys2Proof.Machine
end

