-- ==== Sys2Proof/Laws/Ops.lean ====
section
/-! SUPPORT. What each shared operation can do, said once; later proofs cite these instead of unfolding. -/

namespace Sys2Proof.Machine

/-! ### Dispatch -/

theorem dispatch_absent {m : Message} {s : State} (h : (regEntry s m.cmd).kind = .absent) :
    dispatch m s = loopTop s := by
  unfold dispatch; rw [h]

theorem dispatch_external {m : Message} {s : State} (h : (regEntry s m.cmd).kind = .external) :
    dispatch m s = dispatchExternal m (regEntry s m.cmd).hid s := by
  unfold dispatch; rw [h]

theorem dispatch_builtin {m : Message} {s : State} (h : (regEntry s m.cmd).kind = .builtinPing) :
    dispatch m s = pingRespond m s := by
  unfold dispatch; rw [h]

/-- Dispatch is one of three updates (R174). -/
theorem dispatch_cases (m : Message) (s : State) :
    ((regEntry s m.cmd).kind = .absent ∧ dispatch m s = loopTop s) ∨
    ((regEntry s m.cmd).kind = .external ∧ dispatch m s = dispatchExternal m (regEntry s m.cmd).hid s) ∨
    ((regEntry s m.cmd).kind = .builtinPing ∧ dispatch m s = pingRespond m s) := by
  cases h : (regEntry s m.cmd).kind with
  | absent => exact .inl ⟨rfl, dispatch_absent h⟩
  | external => exact .inr (.inl ⟨rfl, dispatch_external h⟩)
  | builtinPing => exact .inr (.inr ⟨rfl, dispatch_builtin h⟩)

/-- Receiving a whole frame is nothing, a wrong-destination report, or the dispatch. -/
theorem receiveMessage_cases (m : Message) (s : State) :
    (rxReading s.rxState = false ∧ receiveMessage m s = s) ∨
    (rxReading s.rxState = true ∧ Frame.accepts s.station m.dest = false ∧
      receiveMessage m s = loopTop (reportError .wrongDestStation s)) ∨
    (rxReading s.rxState = true ∧ Frame.accepts s.station m.dest = true ∧ receiveMessage m s = dispatch m s) := by
  unfold receiveMessage
  cases h : rxReading s.rxState <;> cases h' : Frame.accepts s.station m.dest <;> simp

/-! ### Instructions -/

/-- A host command in a state that is not fatal is its own rule. -/
theorem legalCommand_running {s : State} (body : State → State) (h : s.fatal = false) :
    legalCommand body s = .next (body s) := by
  unfold legalCommand; simp [h]

/-- In FATAL it is refused (R244). -/
theorem legalCommand_fatal {s : State} (body : State → State) (h : s.fatal = true) :
    legalCommand body s = .next (setResult .fatal s) := by
  unfold legalCommand; simp [h]

/-- The word a host writes never decodes to a received frame (R95: the two kinds of instruction come from two ports). -/
theorem decodeCommand_not_frame (w : Word) :
    (∀ d o p, decodeCommand w ≠ .rxPing d o p) ∧ (∀ d o p, decodeCommand w ≠ .rxPong d o p) ∧
    (∀ d o c p, decodeCommand w ≠ .rxApp d o c p) := by
  unfold decodeCommand
  split <;> simp

/-- The received-frame class of a message does what receiving the message does. -/
theorem exec_ofMessage (m : Message) (s : State) :
    exec (Instr.ofMessage m) s = .next (receiveMessage (Message.of m.dest m.orig m.cmd m.payload) s) := by
  unfold Instr.ofMessage
  split
  · next h => simp [exec, execRxPing, h]
  · split
    · next h => simp [exec, execRxPong, h]
    · rfl

/-- Every instruction gives a next state, in every state: the block has no instruction that stops it. -/
theorem exec_next (i : Instr) (s : State) : ∃ t, exec i s = .next t := by
  cases i <;>
    simp only [exec, execStart, execCancel, execRegister, execSend, execBroadcast, execMsgDone, execReservedOp,
      execRxPing, execRxPong, execRxApp, legalCommand] <;>
    first
      | exact ⟨_, rfl⟩
      | (split <;> exact ⟨_, rfl⟩)

/-! ### The receive engine -/

/-- Evaluate gives the message to its instruction, retries, or reports (R153). -/
theorem evaluate_cases (s : State) :
    (∃ m, Frame.decode s.rxBuf s.rxOver s.station = .ok m ∧
      evaluate s = .next (receiveMessage (Message.of m.dest m.orig m.cmd m.payload) s)) ∨
    (∃ e, Frame.decode s.rxBuf s.rxOver s.station = .error e ∧ retryNeeded e s.rxLast = true ∧
      evaluate s = .next { s with rxPendErr := e, rxNew := false, rxState := .readCont }) ∨
    (∃ e, Frame.decode s.rxBuf s.rxOver s.station = .error e ∧ retryNeeded e s.rxLast = false ∧
      evaluate s = .next (loopTop (reportError e s))) := by
  unfold evaluate
  cases h : Frame.decode s.rxBuf s.rxOver s.station with
  | ok m => exact .inl ⟨m, rfl, exec_ofMessage m s⟩
  | error e =>
    cases h' : retryNeeded e s.rxLast with
    | true => exact .inr (.inl ⟨e, rfl, h', by simp [h']⟩)
    | false => exact .inr (.inr ⟨e, rfl, h', by simp [h']⟩)

/-- LoopTop sets the engine's state, whatever it was. -/
theorem loopTop_overwrites_rxState (r : RxState) (s : State) : loopTop { s with rxState := r } = loopTop s := by
  unfold loopTop
  dsimp only

/-- Evaluate leaves the reading states, or enters READ_CONT anew: which of the two the engine is in makes no difference. -/
theorem evaluate_readFirst {s : State} (h : rxReading s.rxState = true) :
    evaluate { s with rxState := .readFirst } = evaluate s := by
  have received : ∀ m, receiveMessage m { s with rxState := .readFirst } = receiveMessage m s := by
    intro m
    unfold receiveMessage
    simp only [h, show rxReading RxState.readFirst = true from rfl, if_true]
    split
    · unfold dispatch
      rw [show regEntry { s with rxState := .readFirst } m.cmd = regEntry s m.cmd from rfl]
      split
      · exact loopTop_overwrites_rxState _ s
      · rfl
      · rfl
    · exact loopTop_overwrites_rxState _ (reportError .wrongDestStation s)
  unfold evaluate
  dsimp only
  split
  · next m _ => rw [exec_ofMessage, exec_ofMessage, received]
  · split
    · rfl
    · exact congrArg _ (loopTop_overwrites_rxState _ (reportError _ s))

theorem evaluate_next (s : State) : ∃ t, evaluate s = .next t := by
  rcases evaluate_cases s with ⟨_, _, h⟩ | ⟨_, _, _, h⟩ | ⟨_, _, _, h⟩ <;> exact ⟨_, h⟩

theorem byteRead_next (b : Byte) (s : State) : ∃ t, byteRead b s = .next t := by
  unfold byteRead
  split
  · exact evaluate_next _
  · exact ⟨_, rfl⟩

theorem readEnded_next (s : State) : ∃ t, readEnded s = .next t := by
  unfold readEnded
  split
  · split
    · exact evaluate_next _
    · exact ⟨_, rfl⟩
  · split
    · exact ⟨_, rfl⟩
    · exact evaluate_next _

/-- Every transport outcome gives a next state. -/
theorem readOutcome_next (o : RxOutcome) (s : State) : ∃ t, readOutcome o s = .next t := by
  cases o with
  | byte b => exact byteRead_next _ _
  | timeout => exact readEnded_next _
  | endOfStream => exact readEnded_next _
  | fault => exact ⟨_, rfl⟩

/-- A receive turn reads one outcome, resumes after the PONG, or does nothing. -/
theorem receiveTurn_cases (s : State) :
    (rxReading s.rxState = true ∧ receiveTurn s = readOutcome (nextRx s) (popRx s)) ∨
    (rxReading s.rxState = false ∧ (s.rxState = .dispatchPing ∧ s.pongReq = false ∧ s.fatal = false) ∧
      receiveTurn s = .next (loopTop s)) ∨
    (rxReading s.rxState = false ∧ ¬ (s.rxState = .dispatchPing ∧ s.pongReq = false ∧ s.fatal = false) ∧
      receiveTurn s = .next s) := by
  unfold receiveTurn
  by_cases h : rxReading s.rxState = true
  · exact .inl ⟨h, by simp [h]⟩
  · have hf : rxReading s.rxState = false := by simpa using h
    by_cases h' : s.rxState = .dispatchPing ∧ s.pongReq = false ∧ s.fatal = false
    · exact .inr (.inl ⟨hf, h', by simp only [hf, Bool.false_eq_true, if_false, if_pos h']⟩)
    · exact .inr (.inr ⟨hf, h', by simp only [hf, Bool.false_eq_true, if_false, if_neg h']⟩)

theorem receiveTurn_next (s : State) : ∃ t, receiveTurn s = .next t := by
  rcases receiveTurn_cases s with ⟨_, h⟩ | ⟨_, _, h⟩ | ⟨_, _, h⟩
  · rw [h]; exact readOutcome_next _ _
  · exact ⟨_, h⟩
  · exact ⟨_, h⟩

/-! ### The host -/

/-- CMD is the register of one access, the aligned 32-bit one at 0x004 (R62, R63). -/
theorem csrOfAccess_cmd {addr : CsrAddr} {width : AccessWidth} (h : csrOfAccess addr width = some .cmd) :
    addr = 0x004 ∧ width = .w32 := by
  cases width with
  | w8 => cases h
  | w16 => cases h
  | w32 =>
    refine ⟨BitVec.eq_of_toNat_eq ?_, rfl⟩
    unfold csrOfAccess at h
    dsimp only at h
    split at h
    · unfold csrAt at h
      repeat' (split at h)
      all_goals first
        | cases h
        | (unfold csrSingle at h; split at h <;> first | assumption | cases h)
    · cases h

/-- A host access is a read, a bus error, a host command or a store. -/
theorem hostAccess_cases (a : HostAccess) (s : State) :
    (∃ addr width, a = .read addr width ∧
      hostAccess a s = .next (respond (.read (csrRead addr width s).1 (csrRead addr width s).2) s)) ∨
    (∃ addr width v, a = .write addr width v ∧ csrOfAccess addr width = none ∧
      hostAccess a s = .next (respond (.write false) s)) ∨
    (∃ addr width v, a = .write addr width v ∧ csrOfAccess addr width = some .cmd ∧
      hostAccess a s = afterNext (respond (.write true)) (exec (decodeCommand v) s)) ∨
    (∃ addr width v r, a = .write addr width v ∧ csrOfAccess addr width = some r ∧ r ≠ .cmd ∧
      hostAccess a s = .next (respond (.write true) (csrStore r v s))) := by
  cases a with
  | read addr width => exact .inl ⟨addr, width, rfl, rfl⟩
  | write addr width v =>
    refine .inr ?_
    cases h : csrOfAccess addr width with
    | none => exact .inl ⟨addr, width, v, rfl, h, by simp [hostAccess, h]⟩
    | some r =>
      refine .inr ?_
      by_cases hr : r = .cmd
      · subst hr
        exact .inl ⟨addr, width, v, rfl, h, by simp [hostAccess, h]⟩
      · refine .inr ⟨addr, width, v, r, rfl, h, hr, ?_⟩
        cases r <;> first | exact absurd rfl hr | simp [hostAccess, h]

theorem hostAccess_next (a : HostAccess) (s : State) : ∃ t, hostAccess a s = .next t := by
  rcases hostAccess_cases a s with ⟨_, _, _, h⟩ | ⟨_, _, _, _, _, h⟩ | ⟨_, _, v, _, _, h⟩ | ⟨_, _, _, _, _, _, _, h⟩
  · exact ⟨_, h⟩
  · exact ⟨_, h⟩
  · obtain ⟨t, ht⟩ := exec_next (decodeCommand v) s
    exact ⟨respond (.write true) t, by rw [h, ht]; rfl⟩
  · exact ⟨_, h⟩

theorem hostTurn_next (s : State) : ∃ t, hostTurn s = .next t := by
  unfold hostTurn
  split
  · exact hostAccess_next _ _
  · exact ⟨_, rfl⟩

/-- A POLL records one response and perhaps stays at the head of the host's program; it changes nothing else. -/
theorem hostPoll_cases (addr : CsrAddr) (mask value : Word) (s : State) :
    ∃ program, hostPoll addr mask value s = { s with
      responses := s.responses ++ [.read (csrRead addr .w32 s).1 (csrRead addr .w32 s).2]
      hostProgram := program } := by
  unfold hostPoll
  dsimp only
  split
  · exact ⟨s.hostProgram, rfl⟩
  · exact ⟨.poll addr mask value :: s.hostProgram, rfl⟩

/-! ### The transmit engine -/

/-- A transmit step is not enabled, ends its request, or faults (R201). -/
theorem transmitTurn_cases (first : TxSource) (s : State) :
    (chooseSource first s = none ∧ transmitTurn first s = s) ∨
    (∃ src, chooseSource first s = some src ∧ s.fatal = false ∧
      (src = .host → s.hostTxPend = true) ∧ (src = .pong → s.pongReq = true) ∧
      ((nextTx s = .ok ∧ transmitTurn first s
          = clearSource src { popTx s with txTrace := s.txTrace ++ [(frameOf src s, .ok)] }) ∨
       (nextTx s = .fault ∧ transmitTurn first s
          = raiseFatal .txFault { popTx s with txTrace := s.txTrace ++ [(frameOf src s, .fault)] }))) := by
  unfold transmitTurn
  cases h : chooseSource first s with
  | none => exact .inl ⟨rfl, rfl⟩
  | some src =>
    have hframe : frameOf src (popTx s) = frameOf src s := by cases src <;> rfl
    have hc : s.fatal = false ∧ (src = .host → s.hostTxPend = true) ∧ (src = .pong → s.pongReq = true) := by
      unfold chooseSource at h
      cases hf : s.fatal <;> cases hh : s.hostTxPend <;> cases hp : s.pongReq <;> simp_all <;>
        (subst h; simp)
    refine .inr ⟨src, rfl, hc.1, hc.2.1, hc.2.2, ?_⟩
    cases hr : nextTx s with
    | ok => exact .inl ⟨rfl, by simp only [writeFrame, hframe, popTx_txTrace]⟩
    | fault => exact .inr ⟨rfl, by simp only [writeFrame, hframe, popTx_txTrace]⟩

/-! ### A step -/

/-- Every turn but a reset gives a next state: the block never stops (R230). -/
theorem runTurn_next (t : Turn) (s : State) (h : ∀ p, t ≠ .reset p) : ∃ u, runTurn t s = .next u := by
  cases t with
  | host => exact hostTurn_next s
  | receive => exact receiveTurn_next s
  | transmit first => exact ⟨_, rfl⟩
  | reset p => exact absurd rfl (h p)

/-- A step that answers a next state ran its turn on the state taken off the schedule, and moved the draw index. -/
theorem step_next {s t : State} (h : step s = .next t) :
    ∃ u, runTurn (nextTurn s) (beginStep s) = .next u ∧ t = endStep u := by
  unfold step stepTurn at h
  cases hr : runTurn (nextTurn s) (beginStep s) with
  | next u => rw [hr] at h; exact ⟨u, rfl, by simpa using h.symm⟩
  | fault r => rw [hr] at h; cases r
  | refused r => rw [hr] at h; cases h

/-- The turn decides the step. -/
theorem step_of_turn {s u : State} (h : runTurn (nextTurn s) (beginStep s) = .next u) : step s = .next (endStep u) := by
  unfold step stepTurn
  rw [h]
  rfl

end Sys2Proof.Machine
end

