-- ==== Sys2Proof/Laws/PerInstr.lean ====
section
/-! SUPPORT. A property of every instruction as syntax, one lemma per constructor: its encoding matches its row of spec/opcode_table.json. -/

namespace Sys2Proof.Laws

/-- The byte spec/opcode_table.json matches: OP of a command word, the CMD byte (byte 3) of a frame. -/
def tableByte : Code → Byte
  | .command w => Cmd.op w
  | .frame bytes => byteAt bytes 3

/-- The match and mask of the instruction's row. -/
def rowMatches : Instr → Byte → Prop
  | .start, b => b = 0x01
  | .cancel, b => b = 0x02
  | .register _ _ _, b => b = 0x03
  | .send _ _, b => b = 0x04
  | .broadcast _, b => b = 0x05
  | .msgDone, b => b = 0x06
  | .reservedOp _, b => b.toNat = 0 ∨ 7 ≤ b.toNat
  | .rxPing _ _ _, b => b = 0x05
  | .rxPong _ _ _, b => b = 0x06
  | .rxApp _ _ _ _, b => b ≠ 0x05 ∧ b ≠ 0x06

/-- A frame is 9 to 264 bytes (R82); a command is one word. -/
def codeSizeOk : Code → Prop
  | .command _ => True
  | .frame bytes => 9 ≤ bytes.length ∧ bytes.length ≤ 264

namespace EncodingMatchesRow

/-- The encoding of a well-formed instruction matches its row and has the size the format allows. -/
def Statement (i : Instr) : Prop :=
  i.wellFormed = true → rowMatches i (tableByte (encode i)) ∧ codeSizeOk (encode i)

theorem start : Statement .start := fun _ => ⟨op_word _ _ _ _, trivial⟩

theorem cancel : Statement .cancel := fun _ => ⟨op_word _ _ _ _, trivial⟩

theorem register (code hid : Byte) (kind : BitVec 2) : Statement (.register code hid kind) :=
  fun _ => ⟨op_word _ _ _ _, trivial⟩

theorem send (cmd dest : Byte) : Statement (.send cmd dest) := fun _ => ⟨op_word _ _ _ _, trivial⟩

theorem broadcast (cmd : Byte) : Statement (.broadcast cmd) := fun _ => ⟨op_word _ _ _ _, trivial⟩

theorem msgDone : Statement .msgDone := fun _ => ⟨op_word _ _ _ _, trivial⟩

theorem reservedOp (op : Byte) : Statement (.reservedOp op) := by
  intro h
  refine ⟨?_, trivial⟩
  simpa [rowMatches, tableByte, encode, Instr.wellFormed, opReserved] using h

theorem rxPing (dest orig : Byte) (payload : List Byte) : Statement (.rxPing dest orig payload) := by
  intro h
  have hp : payload.length ≤ 255 := by simpa [Instr.wellFormed, payloadFits] using h
  refine ⟨rfl, ?_⟩
  simp only [encode, codeSizeOk, encode_length]
  omega

theorem rxPong (dest orig : Byte) (payload : List Byte) : Statement (.rxPong dest orig payload) := by
  intro h
  have hp : payload.length ≤ 255 := by simpa [Instr.wellFormed, payloadFits] using h
  refine ⟨rfl, ?_⟩
  simp only [encode, codeSizeOk, encode_length]
  omega

theorem rxApp (dest orig cmd : Byte) (payload : List Byte) : Statement (.rxApp dest orig cmd payload) := by
  intro h
  have hp : payload.length ≤ 255 ∧ cmd ≠ 0x05 ∧ cmd ≠ 0x06 := by
    simpa [Instr.wellFormed, payloadFits] using h
  refine ⟨?_, ?_⟩
  · simpa [rowMatches, tableByte, encode] using hp.2
  · simp only [encode, codeSizeOk, encode_length]
    omega

end EncodingMatchesRow

end Sys2Proof.Laws
end

