-- ==== Sys2Proof/Laws/Steps.lean ====
section
/-! SUPPORT. What one turn can do to the state, said once as a short list of updates; every whole-machine statement is a case analysis over it. -/

namespace Sys2Proof.Machine

/-! ### The receive engine -/

/-- The updates the end of a read can make: nothing, a report, LoopTop, a dispatch, a retry. -/
def ReadUpdate (s t : State) : Prop :=
  t = s ∨ (∃ e, t = loopTop (reportError e s)) ∨ t = loopTop s ∨ (∃ m hid, t = dispatchExternal m hid s) ∨
  (∃ m, t = pingRespond m s) ∨ (∃ e, t = { s with rxPendErr := e, rxNew := false, rxState := .readCont })

theorem receiveMessage_update (m : Message) (s : State) : ReadUpdate s (receiveMessage m s) := by
  unfold ReadUpdate
  rcases receiveMessage_cases m s with ⟨_, e⟩ | ⟨_, _, e⟩ | ⟨_, _, e⟩
  · exact .inl e
  · exact .inr (.inl ⟨_, e⟩)
  · rcases dispatch_cases m s with ⟨_, e'⟩ | ⟨_, e'⟩ | ⟨_, e'⟩ <;> rw [e, e']
    · exact .inr (.inr (.inl rfl))
    · exact .inr (.inr (.inr (.inl ⟨_, _, rfl⟩)))
    · exact .inr (.inr (.inr (.inr (.inl ⟨_, rfl⟩))))

theorem evaluate_update {s t : State} (h : evaluate s = .next t) : ReadUpdate s t := by
  rcases evaluate_cases s with ⟨m, _, e⟩ | ⟨_, _, _, e⟩ | ⟨_, _, _, e⟩ <;> rw [e] at h <;> cases h
  · exact receiveMessage_update _ _
  · exact .inr (.inr (.inr (.inr (.inr ⟨_, rfl⟩))))
  · exact .inr (.inl ⟨_, rfl⟩)

theorem readEnded_update {s t : State} (h : readEnded s = .next t) : ReadUpdate s t := by
  unfold readEnded at h
  split at h
  · split at h
    · exact evaluate_update h
    · cases h; exact .inr (.inl ⟨_, rfl⟩)
  · split at h
    · cases h; exact .inr (.inr (.inl rfl))
    · exact evaluate_update h

/-- One transport outcome is a Fault, the end of a read, or a byte and perhaps the end of a read. -/
theorem readOutcome_update {o : RxOutcome} {s t : State} (h : readOutcome o s = .next t) :
    t = rxFaultEntry s ∨ ReadUpdate s t ∨ ∃ b n, ReadUpdate (appendByte b { s with rxNew := n }) t := by
  cases o with
  | byte b =>
    have hnew : (if s.rxState = .readCont then { s with rxNew := true } else s)
        = { s with rxNew := if s.rxState = .readCont then true else s.rxNew } := by split <;> rfl
    simp only [readOutcome] at h
    rw [hnew] at h
    refine .inr (.inr ⟨b, if s.rxState = .readCont then true else s.rxNew, ?_⟩)
    unfold byteRead at h
    split at h
    · exact evaluate_update h
    · cases h; exact .inl rfl
  | timeout => exact .inr (.inl (readEnded_update h))
  | endOfStream => exact .inr (.inl (readEnded_update h))
  | fault => left; cases h; rfl

theorem receiveTurn_update {s t : State} (h : receiveTurn s = .next t) :
    t = s ∨ (t = loopTop s ∧ s.rxState = .dispatchPing ∧ s.pongReq = false ∧ s.fatal = false) ∨
    (rxReading s.rxState = true ∧ (t = rxFaultEntry (popRx s) ∨ ReadUpdate (popRx s) t ∨
      ∃ b n, ReadUpdate (appendByte b { popRx s with rxNew := n }) t)) := by
  rcases receiveTurn_cases s with ⟨hr, e⟩ | ⟨_, hc, e⟩ | ⟨_, _, e⟩ <;> rw [e] at h
  · exact .inr (.inr ⟨hr, readOutcome_update h⟩)
  · cases h; exact .inr (.inl ⟨rfl, hc⟩)
  · cases h; exact .inl rfl

/-! ### The host -/

/-- The updates a host command can make: its result alone, or its effect in a state that is not fatal. -/
def CommandUpdate (i : Instr) (s t : State) : Prop :=
  (∃ r, t = setResult r s) ∨ (t = setResult .ok (loopTop s) ∧ s.fatal = false ∧ s.rxState = .stopped) ∨
  (t = setResult .ok { s with cancelReq := true } ∧ s.fatal = false ∧ s.rxState ≠ .stopped) ∨
  (∃ c b k e, i = .register c b k ∧ t = setResult .ok (setRegEntry c e s) ∧ e.kind ≠ .absent ∧
    (e.kind ≠ .external → e.hid = 0) ∧ s.fatal = false) ∨
  (∃ c d, t = setResult .ok { s with hostTxPend := true, hostTxDest := d, hostTxCmd := c } ∧
    s.hostTxPend = false ∧ s.fatal = false) ∨
  (t = setResult .ok (returnFromHandler s) ∧ s.msgPending = true ∧ s.fatal = false)

theorem legalCommand_cases {body : State → State} {s t : State} (h : legalCommand body s = .next t) :
    t = setResult .fatal s ∨ (s.fatal = false ∧ t = body s) := by
  unfold legalCommand at h
  split at h <;> cases h <;> simp_all

theorem requestHostFrame_update (i : Instr) (c d : Byte) (s : State) (hf : s.fatal = false) :
    CommandUpdate i s (requestHostFrame c d s) := by
  unfold requestHostFrame
  split
  · exact .inl ⟨_, rfl⟩
  · next hp => exact .inr (.inr (.inr (.inr (.inl ⟨_, _, rfl, by simpa using hp, hf⟩))))

theorem exec_command_update {w : Word} {s t : State} (h : exec (decodeCommand w) s = .next t) :
    CommandUpdate (decodeCommand w) s t := by
  have hn := decodeCommand_not_frame w
  generalize decodeCommand w = i at *
  cases i with
  | rxPing d o p => exact absurd rfl (hn.1 d o p)
  | rxPong d o p => exact absurd rfl (hn.2.1 d o p)
  | rxApp d o c p => exact absurd rfl (hn.2.2 d o c p)
  | start =>
    simp only [exec, execStart] at h
    rcases legalCommand_cases h with h | ⟨hf, rfl⟩
    · exact .inl ⟨_, h⟩
    · split
      · exact .inl ⟨_, rfl⟩
      · next hx => exact .inr (.inl ⟨rfl, hf, by simpa using hx⟩)
  | cancel =>
    simp only [exec, execCancel] at h
    rcases legalCommand_cases h with h | ⟨hf, rfl⟩
    · exact .inl ⟨_, h⟩
    · split
      · exact .inl ⟨_, rfl⟩
      · next hx => exact .inr (.inr (.inl ⟨rfl, hf, hx⟩))
  | register c b k =>
    simp only [exec, execRegister] at h
    rcases legalCommand_cases h with h | ⟨hf, rfl⟩
    · exact .inl ⟨_, h⟩
    · split
      · exact .inr (.inr (.inr (.inl ⟨_, _, _, _, rfl, rfl, by simp, by simp, hf⟩)))
      · split
        · exact .inr (.inr (.inr (.inl ⟨_, _, _, _, rfl, rfl, by simp, by simp, hf⟩)))
        · exact .inl ⟨_, rfl⟩
  | send c d =>
    simp only [exec, execSend] at h
    rcases legalCommand_cases h with h | ⟨hf, rfl⟩
    · exact .inl ⟨_, h⟩
    · exact requestHostFrame_update _ c d s hf
  | broadcast c =>
    simp only [exec, execBroadcast] at h
    rcases legalCommand_cases h with h | ⟨hf, rfl⟩
    · exact .inl ⟨_, h⟩
    · exact requestHostFrame_update _ c _ s hf
  | msgDone =>
    simp only [exec, execMsgDone] at h
    rcases legalCommand_cases h with h | ⟨hf, rfl⟩
    · exact .inl ⟨_, h⟩
    · split
      · next hm => exact .inr (.inr (.inr (.inr (.inr ⟨rfl, hm, hf⟩))))
      · exact .inl ⟨_, rfl⟩
  | reservedOp op => cases h; exact .inl ⟨_, rfl⟩

/-- A store writes TIMEOUT, TX_LEN or TX_BUF, and nothing else. -/
theorem csrStore_update (r : Csr) (v : Word) (s : State) :
    ∃ a l b, csrStore r v s = { s with timeout := a, txLen := l, txBuf := b } ∧
      (s.hostTxPend = true → l = s.txLen ∧ b = s.txBuf) := by
  have none : ∃ a l b, s = { s with timeout := a, txLen := l, txBuf := b } ∧
      (s.hostTxPend = true → l = s.txLen ∧ b = s.txBuf) := ⟨_, _, _, rfl, fun _ => ⟨rfl, rfl⟩⟩
  cases r <;> simp only [csrStore] <;> try exact none
  · exact ⟨v, s.txLen, s.txBuf, rfl, fun _ => ⟨rfl, rfl⟩⟩
  · split
    · exact none
    · next h => exact ⟨s.timeout, _, s.txBuf, rfl, fun h' => absurd h' h⟩
  · split
    · exact none
    · next h => exact ⟨s.timeout, s.txLen, _, rfl, fun h' => absurd h' h⟩

/-- A host turn is a read, a bus error or a poll; a host command; or a store. -/
theorem hostTurn_update {s t : State} (h : hostTurn s = .next t) :
    (∃ r p, t = { s with responses := r, hostProgram := p }) ∨
    (∃ r w u, nextHost s = .access (.write 0x004 .w32 w) ∧ CommandUpdate (decodeCommand w) (popHost s) u ∧
      t = respond r u) ∨
    (∃ r c v, t = respond r (csrStore c v (popHost s))) := by
  unfold hostTurn at h
  split at h
  · next a ha =>
    rcases hostAccess_cases a (popHost s) with
      ⟨_, _, rfl, e⟩ | ⟨_, _, v, rfl, _, e⟩ | ⟨addr, width, v, rfl, hc, e⟩ | ⟨_, _, v, r, rfl, _, _, e⟩
    · rw [e] at h; cases h; exact .inl ⟨_, s.hostProgram.tail, rfl⟩
    · rw [e] at h; cases h; exact .inl ⟨_, s.hostProgram.tail, rfl⟩
    · rw [e] at h
      cases hx : exec (decodeCommand v) (popHost s) <;> rw [hx] at h <;> cases h
      obtain ⟨rfl, rfl⟩ := csrOfAccess_cmd hc
      exact .inr (.inl ⟨_, v, _, ha, exec_command_update hx, rfl⟩)
    · rw [e] at h; cases h; exact .inr (.inr ⟨_, _, _, rfl⟩)
  · next addr mask value _ =>
    obtain ⟨p, e⟩ := hostPoll_cases addr mask value (popHost s)
    cases h
    rw [e]
    exact .inl ⟨_, p, rfl⟩

/-! ### A step of a turn that is no reset -/

/-- The three agents' steps. -/
inductive RunningStep (s : State) : State → Prop where
  | host {t : State} (turn : nextTurn s = .host) (run : hostTurn (beginStep s) = .next t) : RunningStep s (endStep t)
  | receive {t : State} (turn : nextTurn s = .receive) (run : receiveTurn (beginStep s) = .next t) :
    RunningStep s (endStep t)
  | transmit (first : TxSource) (turn : nextTurn s = .transmit first) :
    RunningStep s (endStep (transmitTurn first (beginStep s)))

theorem step_running {s t : State} (hr : ∀ p, nextTurn s ≠ .reset p) (h : step s = .next t) : RunningStep s t := by
  obtain ⟨u, hu, rfl⟩ := step_next h
  cases ht : nextTurn s with
  | host => rw [ht] at hu; exact .host ht hu
  | receive => rw [ht] at hu; exact .receive ht hu
  | transmit first => rw [ht] at hu; cases hu; exact .transmit first ht
  | reset p => exact absurd ht (hr p)

/-! ### Steps that make no transport access

Such a step commutes with any change of what the transport would answer. -/

@[simp] theorem withTransport_self (s : State) : s.withTransport s.rxIn s.txIn = s := rfl
@[simp] theorem withTransport_rxState (rx : List RxOutcome) (tx : List TxOutcome) (s : State) :
    (s.withTransport rx tx).rxState = s.rxState := rfl
@[simp] theorem withTransport_rxIn (rx : List RxOutcome) (tx : List TxOutcome) (s : State) :
    (s.withTransport rx tx).rxIn = rx := rfl
@[simp] theorem withTransport_txIn (rx : List RxOutcome) (tx : List TxOutcome) (s : State) :
    (s.withTransport rx tx).txIn = tx := rfl

variable (rx : List RxOutcome) (tx : List TxOutcome)

theorem legalCommand_withTransport {body : State → State}
    (h : ∀ s : State, body (s.withTransport rx tx) = (body s).withTransport rx tx) (s : State) :
    legalCommand body (s.withTransport rx tx) = afterNext (State.withTransport rx tx) (legalCommand body s) := by
  unfold legalCommand
  rw [h]
  cases hf : s.fatal <;> simp [State.withTransport, hf, afterNext, setResult]

theorem loopTop_withTransport (s : State) : loopTop (s.withTransport rx tx) = (loopTop s).withTransport rx tx := by
  unfold loopTop State.withTransport
  cases s.cancelReq <;> rfl

theorem requestHostFrame_withTransport (c d : Byte) (s : State) :
    requestHostFrame c d (s.withTransport rx tx) = (requestHostFrame c d s).withTransport rx tx := by
  unfold requestHostFrame
  rw [show (s.withTransport rx tx).hostTxPend = s.hostTxPend from rfl]
  split <;> rfl

/-- No instruction reads the transport: the turns do. -/
theorem exec_withTransport (i : Instr) (s : State) :
    exec i (s.withTransport rx tx) = afterNext (State.withTransport rx tx) (exec i s) := by
  have received : ∀ m : Message, receiveMessage m (s.withTransport rx tx)
      = (receiveMessage m s).withTransport rx tx := by
    intro m
    unfold receiveMessage
    rw [withTransport_rxState]
    split
    · rw [show (s.withTransport rx tx).station = s.station from rfl]
      split
      · unfold dispatch
        rw [show regEntry (s.withTransport rx tx) m.cmd = regEntry s m.cmd from rfl]
        split
        · exact loopTop_withTransport rx tx s
        · rfl
        · rfl
      · exact loopTop_withTransport rx tx (reportError .wrongDestStation s)
    · rfl
  cases i with
  | start =>
    simp only [exec, execStart]
    refine legalCommand_withTransport rx tx (fun s => ?_) s
    rw [withTransport_rxState, loopTop_withTransport]
    split <;> rfl
  | cancel =>
    simp only [exec, execCancel]
    refine legalCommand_withTransport rx tx (fun s => ?_) s
    rw [withTransport_rxState]
    split <;> rfl
  | register c b k =>
    simp only [exec, execRegister]
    refine legalCommand_withTransport rx tx (fun s => ?_) s
    split
    · rfl
    · split <;> rfl
  | send c d => simpa only [exec, execSend] using legalCommand_withTransport rx tx (requestHostFrame_withTransport rx tx c d) s
  | broadcast c => simpa only [exec, execBroadcast] using legalCommand_withTransport rx tx (requestHostFrame_withTransport rx tx c _) s
  | msgDone =>
    simp only [exec, execMsgDone]
    refine legalCommand_withTransport rx tx (fun s => ?_) s
    rw [show (s.withTransport rx tx).msgPending = s.msgPending from rfl]
    split
    · exact congrArg (setResult .ok) (loopTop_withTransport rx tx { s with msgPending := false })
    · rfl
  | reservedOp op => rfl
  | rxPing d o p => exact congrArg _ (received _)
  | rxPong d o p => exact congrArg _ (received _)
  | rxApp d o c p => exact congrArg _ (received _)

/-- The host makes no transport access. -/
theorem hostTurn_withTransport (s : State) :
    hostTurn (s.withTransport rx tx) = afterNext (State.withTransport rx tx) (hostTurn s) := by
  have read : ∀ addr width, csrRead addr width (popHost (s.withTransport rx tx)) = csrRead addr width (popHost s) := by
    intro addr width
    unfold csrRead
    cases csrOfAccess addr width with
    | none => rfl
    | some r => cases r <;> rfl
  unfold hostTurn
  rw [show nextHost (s.withTransport rx tx) = nextHost s from rfl]
  cases nextHost s with
  | access a =>
    cases a with
    | read addr width => simp only [hostAccess, read]; rfl
    | write addr width v =>
      simp only [hostAccess]
      cases csrOfAccess addr width with
      | none => rfl
      | some r =>
        cases r <;> try rfl
        · change afterNext _ (exec (decodeCommand v) ((popHost s).withTransport rx tx)) = _
          rw [exec_withTransport]
          cases exec (decodeCommand v) (popHost s) <;> rfl
        · simp only [csrStore, show (popHost (s.withTransport rx tx)).hostTxPend = (popHost s).hostTxPend from rfl]
          split <;> rfl
        · simp only [csrStore, show (popHost (s.withTransport rx tx)).hostTxPend = (popHost s).hostTxPend from rfl]
          split <;> rfl
  | poll addr mask value =>
    simp only [hostPoll, read]
    split <;> rfl

/-- What a transport outcome does depends on no later one. -/
theorem readOutcome_withTransport (o : RxOutcome) (s : State) :
    readOutcome o (s.withTransport rx tx) = afterNext (State.withTransport rx tx) (readOutcome o s) := by
  have eval : ∀ s : State, evaluate (s.withTransport rx tx) = afterNext (State.withTransport rx tx) (evaluate s) := by
    intro s
    unfold evaluate
    rw [show Frame.decode (s.withTransport rx tx).rxBuf (s.withTransport rx tx).rxOver (s.withTransport rx tx).station
      = Frame.decode s.rxBuf s.rxOver s.station from rfl]
    split
    · exact exec_withTransport rx tx _ s
    · rw [show (s.withTransport rx tx).rxLast = s.rxLast from rfl]
      split
      · rfl
      · exact congrArg _ (loopTop_withTransport rx tx (reportError _ s))
  have ended : readEnded (s.withTransport rx tx) = afterNext (State.withTransport rx tx) (readEnded s) := by
    unfold readEnded
    rw [eval, loopTop_withTransport, show loopTop (reportError (s.withTransport rx tx).rxPendErr (s.withTransport rx tx))
      = (loopTop (reportError s.rxPendErr s)).withTransport rx tx from loopTop_withTransport rx tx (reportError _ s)]
    simp only [show (s.withTransport rx tx).rxState = s.rxState from rfl,
      show (s.withTransport rx tx).rxNew = s.rxNew from rfl, show (s.withTransport rx tx).rxBuf = s.rxBuf from rfl,
      show (s.withTransport rx tx).rxOver = s.rxOver from rfl]
    split
    · split <;> rfl
    · split <;> rfl
  cases o with
  | byte b =>
    have read : ∀ s : State, byteRead b (s.withTransport rx tx) = afterNext (State.withTransport rx tx) (byteRead b s) := by
      intro s
      unfold byteRead
      rw [show appendByte b (s.withTransport rx tx) = (appendByte b s).withTransport rx tx from rfl, eval]
      split <;> rfl
    have mark : (if s.rxState = .readCont then { s with rxNew := true } else s).withTransport rx tx
        = if (s.withTransport rx tx).rxState = .readCont then { s.withTransport rx tx with rxNew := true }
          else s.withTransport rx tx := apply_ite _ _ _ _
    exact (congrArg (byteRead b) mark.symm).trans (read _)
  | timeout => exact ended
  | endOfStream => exact ended
  | fault => rfl

/-- A read takes one outcome off the receive stream and leaves the rest. -/
theorem readOutcome_rxIn {o : RxOutcome} {s t : State} (h : readOutcome o s = .next t) : t.rxIn = s.rxIn := by
  have e := readOutcome_withTransport s.rxIn s.txIn o s
  rw [withTransport_self, h, afterNext_next] at e
  rw [Host.Outcome.next.inj e]
  rfl

/-- The receive engine makes no write. -/
theorem receiveTurn_withTx {s t : State} (h : receiveTurn s = .next t) :
    receiveTurn (s.withTransport s.rxIn tx) = .next (t.withTransport t.rxIn tx) := by
  rcases receiveTurn_cases s with ⟨hr, e⟩ | ⟨hr, hc, e⟩ | ⟨hr, hc, e⟩ <;> rw [e] at h
  · have hx : t.rxIn = (popRx s).rxIn := readOutcome_rxIn h
    unfold receiveTurn
    rw [withTransport_rxState, if_pos hr]
    refine (readOutcome_withTransport (popRx s).rxIn tx (nextRx s) (popRx s)).trans ?_
    rw [h, hx]
    rfl
  · cases h
    unfold receiveTurn
    rw [withTransport_rxState, hr, loopTop_withTransport, if_neg Bool.false_ne_true]
    refine (if_pos hc).trans ?_
    rw [loopTop_rxIn]
  · cases h
    unfold receiveTurn
    rw [withTransport_rxState, hr, if_neg Bool.false_ne_true]
    exact if_neg hc

/-- An engine that is not reading makes no transport access. -/
theorem receiveTurn_withTransport {s : State} (h : rxReading s.rxState = false) :
    receiveTurn (s.withTransport rx tx) = afterNext (State.withTransport rx tx) (receiveTurn s) := by
  unfold receiveTurn
  rw [withTransport_rxState, show (s.withTransport rx tx).pongReq = s.pongReq from rfl,
    show (s.withTransport rx tx).fatal = s.fatal from rfl, loopTop_withTransport]
  simp only [h, Bool.false_eq_true, if_false]
  split <;> rfl

/-- A transmit step does not read what the transport has received. -/
theorem transmitTurn_withRx (first : TxSource) (s : State) :
    transmitTurn first (s.withTransport rx s.txIn)
      = (transmitTurn first s).withTransport rx (transmitTurn first s).txIn := by
  unfold transmitTurn
  rw [show chooseSource first (s.withTransport rx s.txIn) = chooseSource first s from rfl,
    show nextTx (s.withTransport rx s.txIn) = nextTx s from rfl]
  cases chooseSource first s with
  | none => rfl
  | some src => cases src <;> cases h : nextTx s <;> rfl

/-- A transmit step that is not enabled makes no transport access. -/
theorem transmitTurn_withTransport {first : TxSource} {s : State} (h : chooseSource first s = none) :
    transmitTurn first (s.withTransport rx tx) = (transmitTurn first s).withTransport rx tx := by
  unfold transmitTurn
  rw [show chooseSource first (s.withTransport rx tx) = chooseSource first s from rfl, h]

/-- A turn that commutes with a change of the transport's answers makes a step that does. -/
theorem step_withTransport {s u : State} (hu : runTurn (nextTurn s) (beginStep s) = .next u)
    (h : runTurn (nextTurn s) ((beginStep s).withTransport rx tx) = .next (u.withTransport rx tx)) :
    step s = .next (endStep u) ∧ step (s.withTransport rx tx) = .next ((endStep u).withTransport rx tx) :=
  ⟨step_of_turn hu, step_of_turn (s := s.withTransport rx tx) (u := u.withTransport rx tx) h⟩

end Sys2Proof.Machine
end

