-- ==== Sys2Proof/Tests/Slice0.lean ====
section
/-! SUPPORT. Tests: ill-formed terms, written-out encodings, the spec's vectors (95_test_vectors.md), and one witness for each statement that has hypotheses. Expected values come from spec/. -/

namespace Sys2Proof.Tests

open Sys2Proof Sys2Proof.Machine

/-! ## Helpers -/

/-- Station 0x42, TIMEOUT 1, TX_BUF all zero. -/
def params42 : ResetParams := { station := 0x42, timeoutReset := 1, txBufInit := Vector.replicate 256 0 }
def idle : State := State.resetWith params42
def running : State := { idle with rxState := .readFirst }
def cont : State :=
  { idle with rxState := .readCont, rxBuf := [0x04], rxLast := 0x04, rxPendErr := .tooShortMsg }
def dead : State := { idle with fatal := true, rxState := .fatal }
def sending : State := { idle with hostTxPend := true, hostTxDest := 0x43, hostTxCmd := 0x20 }
def ponging : State := { idle with rxState := .dispatchPing, pongReq := true, pongDest := 0x41 }
/-- V-P-7: a PONG and a host frame pending. -/
def both : State := { ponging with hostTxPend := true, hostTxDest := 0x43, hostTxCmd := 0x20 }
def sampleMsg : Message := Message.of 0x42 0x41 0x10 [0x03, 0x04, 0x01]
def pending : State := { idle with rxState := .dispatchExt, msgPending := true, msg := sampleMsg, msgHid := 7 }
/-- The engine reading, with code c registered as kind k for handler 1. -/
def registered (c : Byte) (k : RegKind) : State := setRegEntry c { kind := k, hid := 1 } running
/-- The next turn is t. -/
def turn (t : Turn) (s : State) : State := { s with schedule := [t] }

/-- The state an outcome goes on in, looked at through f. -/
def look {α : Type} (f : State → α) (o : Host.Outcome State Fault Refusal) : Option α :=
  match o with
  | .next s => some (f s)
  | .fault _ => none
  | .refused _ => none

/-- CMD_RESULT and STATUS, as the vectors of section 2.5 give them. -/
def resultAndStatus (s : State) : Word × Word := (csrValue .cmdResult s, csrValue .status s)

/-- Runs n receive steps on the outcomes os. -/
def receives (os : List RxOutcome) (s : State) : Host.Outcome State Fault Refusal :=
  Sys2Proof.core.run os.length { s with rxIn := os, schedule := List.replicate os.length .receive }

/-! ## WellFormed refuses each ill-formed term -/

theorem test_wf_reservedOp_legal_value :
    (Instr.reservedOp 0x01).wellFormed = false ∧ (Instr.reservedOp 0x06).wellFormed = false := by decide
theorem test_wf_rxPing_payload_256 : (Instr.rxPing 0 0 (List.replicate 256 0)).wellFormed = false := by
  simp [-List.reduceReplicate, Instr.wellFormed, payloadFits]
theorem test_wf_rxPong_payload_256 : (Instr.rxPong 0 0 (List.replicate 256 0)).wellFormed = false := by
  simp [-List.reduceReplicate, Instr.wellFormed, payloadFits]
theorem test_wf_rxApp_payload_256 : (Instr.rxApp 0 0 0x10 (List.replicate 256 0)).wellFormed = false := by
  simp [-List.reduceReplicate, Instr.wellFormed, payloadFits]
theorem test_wf_rxApp_cmd_ping : (Instr.rxApp 0 0 0x05 []).wellFormed = false := by decide
theorem test_wf_rxApp_cmd_pong : (Instr.rxApp 0 0 0x06 []).wellFormed = false := by decide
theorem test_wf_accepts_the_bounds :
    (Instr.reservedOp 0x00).wellFormed = true ∧ (Instr.reservedOp 0x07).wellFormed = true ∧
    (Instr.rxApp 0 0 0xFF (List.replicate 255 0)).wellFormed = true := by
  simp [-List.reduceReplicate, Instr.wellFormed, payloadFits, opReserved]

/-! ## Decoding: every constructor from its word, field by field (R90, R91), or its bytes (R80) -/

theorem test_decode_start : decodeCommand (0#6 ++ 0b00#2 ++ 0x00#8 ++ 0x00#8 ++ 0x01#8) = .start := by decide
theorem test_decode_cancel : decodeCommand (0#6 ++ 0b00#2 ++ 0x00#8 ++ 0x00#8 ++ 0x02#8) = .cancel := by decide
theorem test_decode_register :
    decodeCommand (0b000000#6 ++ 0b01#2 ++ 0x07#8 ++ 0x44#8 ++ 0x03#8) = .register 0x44 0x07 1 := by decide
theorem test_decode_send :
    decodeCommand (0#6 ++ 0b00#2 ++ 0x42#8 ++ 0x48#8 ++ 0x04#8) = .send 0x48 0x42 := by decide
theorem test_decode_broadcast :
    decodeCommand (0#6 ++ 0b00#2 ++ 0x00#8 ++ 0x41#8 ++ 0x05#8) = .broadcast 0x41 := by decide
theorem test_decode_msgDone : decodeCommand (0#6 ++ 0b00#2 ++ 0x00#8 ++ 0x00#8 ++ 0x06#8) = .msgDone := by decide
theorem test_decode_reservedOp :
    decodeCommand 0x00000000 = .reservedOp 0x00 ∧ decodeCommand 0x00000007 = .reservedOp 0x07 ∧
    decodeCommand 0x000000FF = .reservedOp 0xFF := by decide
/-- V-D-1: SOH, DEST 42, ORIG 41, CMD 05, LEN 00, STX, ETX, CHK 88, EOT. -/
theorem test_decode_rxPing :
    decode 0x42 (.frame [0x01, 0x42, 0x41, 0x05, 0x00, 0x02, 0x03, 0x88, 0x04]) = .ok (.rxPing 0x42 0x41 []) := by
  decide
/-- V-P-6. -/
theorem test_decode_rxPong :
    decode 0x42 (.frame [0x01, 0x42, 0x41, 0x06, 0x00, 0x02, 0x03, 0x89, 0x04]) = .ok (.rxPong 0x42 0x41 []) := by
  decide
/-- V-E-5: a payload with the values of ETX, EOT and SOH. -/
theorem test_decode_rxApp :
    decode 0x42 (.frame [0x01, 0x42, 0x41, 0x10, 0x03, 0x02, 0x03, 0x04, 0x01, 0x03, 0x9E, 0x04])
      = .ok (.rxApp 0x42 0x41 0x10 [0x03, 0x04, 0x01]) := by decide

/-- The rows of spec/opcode_table.json, by the bits their patterns give. -/
theorem test_table_words :
    decodeTableWord 32 0x1 = some .start ∧ decodeTableWord 32 0x2 = some .cancel ∧
    decodeTableWord 32 0x3 = some (.register 0 0 0) ∧ decodeTableWord 32 0x4 = some (.send 0 0) ∧
    decodeTableWord 32 0x5 = some (.broadcast 0) ∧ decodeTableWord 32 0x6 = some .msgDone ∧
    decodeTableWord 32 0x0 = some (.reservedOp 0) ∧ decodeTableWord 8 0x5 = some (.rxPing 0 0 []) ∧
    decodeTableWord 8 0x6 = some (.rxPong 0 0 []) ∧ decodeTableWord 0 0 = some (.rxApp 0 0 0 []) := by decide

/-- The step after withFetchWord runs the table word's instruction: START, and a frame with CMD 0x05. -/
theorem test_step_runs_the_table_word :
    look resultAndStatus (step (State.reset.withFetchWord 32 0x1)) = some (0x0, 0x00000101) ∧
    look (csrValue .status) (step (State.reset.withFetchWord 8 0x5)) = some 0x00000411 := by decide

/-! ## Encode and Checksum (sections 2.1, 2.2) -/

theorem test_checksum_vectors :
    checksum 0x41 0x42 0x06 0 [] = 0x89 ∧ checksum 0x80 0x80 0x00 0 [] = 0x00 ∧
    checksum 0xFF 0xFF 0xFF 0 [] = 0xFD ∧ checksum 0x01 0x02 0x03 1 [0xFA] = 0x01 := by decide
/-- V-K-7. -/
theorem test_checksum_largest : checksumSum 0xFF 0xFF 0xFF 0xFF (List.replicate 255 0xFF) = 66045 := by
  simp [-List.reduceReplicate, checksumSum]
/-- V-E-3, V-E-6. -/
theorem test_encode_vectors :
    Frame.encode 0x42 0x41 0x48 [0x48, 0x69]
      = [0x01, 0x42, 0x41, 0x48, 0x02, 0x02, 0x48, 0x69, 0x03, 0x7E, 0x04] ∧
    Frame.encode 0x42 0x41 0x10 [0x70] = [0x01, 0x42, 0x41, 0x10, 0x01, 0x02, 0x70, 0x03, 0x04, 0x04] := by decide

/-! ## Decode vectors (section 2.3). Each buffer also is the witness of one clause of DecodeChecksInOrder -/

/-- V-D-3, V-D-5 to V-D-12, V-D-15. -/
theorem test_decode_errors :
    Frame.decode [] false 0x42 = .error .tooShortMsg ∧
    Frame.decode [0x01, 0x42, 0x41, 0x05, 0x00, 0x02, 0x03, 0x88, 0x04, 0x55] false 0x42 = .error .badLenField ∧
    Frame.decode [0x01, 0x42, 0x41, 0x05, 0x01, 0x02, 0x03, 0x89, 0x04] false 0x42 = .error .badLenField ∧
    Frame.decode [0x00, 0x43, 0x41, 0x05, 0x00, 0x02, 0x03, 0x89, 0x04] false 0x42 = .error .wrongDestStation ∧
    Frame.decode [0x00, 0x42, 0x41, 0x05, 0x00, 0x02, 0x03, 0x88, 0x04] false 0x42 = .error .missingSoh ∧
    Frame.decode [0x01, 0x42, 0x41, 0x05, 0x00, 0x20, 0x20, 0x88, 0x04] false 0x42 = .error .missingStx ∧
    Frame.decode [0x01, 0x42, 0x41, 0x05, 0x00, 0x02, 0x20, 0x88, 0x20] false 0x42 = .error .missingEtx ∧
    Frame.decode [0x01, 0x42, 0x41, 0x05, 0x00, 0x02, 0x03, 0x88, 0x05] false 0x42 = .error .missingEot ∧
    Frame.decode [0x01, 0x42, 0x41, 0x05, 0x00, 0x02, 0x03, 0x87, 0x04] false 0x42 = .error .badChecksum ∧
    Frame.decode [0x01, 0x43, 0x41, 0x05, 0x00, 0x02, 0x03, 0x89, 0x04] false 0x42 = .error .wrongDestStation := by
  decide

/-- The premises of DecodeChecksInOrder's clauses are met: an overlong buffer's length, a short one, then a nine-byte
buffer that passes every check up to the one named last. -/
theorem witness_DecodeChecksInOrder :
    264 < (List.replicate 265 (0 : Byte)).length ∧ (List.replicate 8 (0 : Byte)).length < 9 ∧
    (∃ b : List Byte, 9 ≤ b.length ∧ b.length ≠ 9 + (byteAt b 4).toNat) ∧
    (∃ b : List Byte, 9 ≤ b.length ∧ b.length = 9 + (byteAt b 4).toNat ∧ byteAt b 1 ≠ 0x42 ∧ byteAt b 1 ≠ 0x00) ∧
    (∃ b : List Byte, b.length = 9 + (byteAt b 4).toNat ∧ byteAt b 1 = 0x42 ∧ byteAt b 0 ≠ 0x01) ∧
    (∃ b : List Byte, b.length = 9 + (byteAt b 4).toNat ∧ byteAt b 1 = 0x00 ∧ byteAt b 0 = 0x01 ∧ byteAt b 5 ≠ 0x02) ∧
    (∃ b : List Byte, b.length = 9 + (byteAt b 4).toNat ∧ byteAt b 1 = 0x42 ∧ byteAt b 0 = 0x01 ∧ byteAt b 5 = 0x02 ∧
      byteAt b (6 + (byteAt b 4).toNat) ≠ 0x03) ∧
    (∃ b : List Byte, b.length = 9 + (byteAt b 4).toNat ∧ byteAt b 1 = 0x42 ∧ byteAt b 0 = 0x01 ∧ byteAt b 5 = 0x02 ∧
      byteAt b (6 + (byteAt b 4).toNat) = 0x03 ∧ byteAt b (8 + (byteAt b 4).toNat) ≠ 0x04) ∧
    (∃ b : List Byte, b.length = 9 + (byteAt b 4).toNat ∧ byteAt b 1 = 0x42 ∧ byteAt b 0 = 0x01 ∧ byteAt b 5 = 0x02 ∧
      byteAt b (6 + (byteAt b 4).toNat) = 0x03 ∧ byteAt b (8 + (byteAt b 4).toNat) = 0x04 ∧
      checksum (byteAt b 1) (byteAt b 2) (byteAt b 3) (byteAt b 4) ((b.drop 6).take (byteAt b 4).toNat)
        ≠ byteAt b (b.length - 2)) :=
  ⟨by simp [-List.reduceReplicate], by decide,
   ⟨[0x01, 0x42, 0x41, 0x05, 0x01, 0x02, 0x03, 0x89, 0x04], by decide⟩,
   ⟨[0x00, 0x43, 0x41, 0x05, 0x00, 0x02, 0x03, 0x89, 0x04], by decide⟩,
   ⟨[0x00, 0x42, 0x41, 0x05, 0x00, 0x02, 0x03, 0x88, 0x04], by decide⟩,
   ⟨[0x01, 0x00, 0x41, 0x05, 0x00, 0x20, 0x20, 0x88, 0x04], by decide⟩,
   ⟨[0x01, 0x42, 0x41, 0x05, 0x00, 0x02, 0x20, 0x88, 0x20], by decide⟩,
   ⟨[0x01, 0x42, 0x41, 0x05, 0x00, 0x02, 0x03, 0x88, 0x05], by decide⟩,
   ⟨[0x01, 0x42, 0x41, 0x05, 0x00, 0x02, 0x03, 0x87, 0x04], by decide⟩⟩

/-! ## Host commands (section 2.5) -/

/-- V-H-1, V-H-2. -/
theorem test_start :
    look resultAndStatus (exec .start idle) = some (0, 0x00000101) ∧
    look resultAndStatus (exec .start running) = some (1, 0x00000101) := by decide
/-- V-H-4, V-H-5. -/
theorem test_cancel :
    look resultAndStatus (exec .cancel idle) = some (0, 0x00000000) ∧
    look resultAndStatus (exec .cancel running) = some (0, 0x00000103) := by decide
/-- V-H-6, V-H-9. -/
theorem test_register :
    look (csrValue (.reg 0x44)) (exec (.register 0x44 7 1) idle) = some 0x00000107 ∧
    look (fun t => (csrValue .cmdResult t, csrValue (.reg 0x41) t)) (exec (decodeCommand 0x03004103) idle)
      = some (2, 0) ∧
    look (fun t => (csrValue .cmdResult t, csrValue (.reg 0x41) t)) (exec (decodeCommand 0x03004103) (registered 0x41 .external))
      = some (2, 0x00000101) := by decide
/-- V-H-12, with station 0x42 sending as 0x41. -/
theorem test_send :
    look (fun t => (csrValue .status t, frameOf .host t))
        (exec (.send 0x48 0x42)
          { idle with station := 0x41, txLen := 2, txBuf := storeTxWord 0 0x00006948 idle.txBuf })
      = some (0x00000008, [0x01, 0x42, 0x41, 0x48, 0x02, 0x02, 0x48, 0x69, 0x03, 0x7E, 0x04]) := by decide
/-- V-H-11, V-H-13. -/
theorem test_broadcast :
    look (frameOf .host) (exec (.broadcast 0x41) { idle with station := 0x41 })
      = some [0x01, 0x00, 0x41, 0x41, 0x00, 0x02, 0x03, 0x82, 0x04] ∧
    look (csrValue .cmdResult) (exec (.broadcast 0x41) sending) = some 1 := by decide
/-- V-H-15, V-H-16. -/
theorem test_msgDone :
    look (csrValue .cmdResult) (exec .msgDone idle) = some 2 ∧
    look (fun t => (resultAndStatus t, csrValue .msgInfo t)) (exec .msgDone pending)
      = some ((0, 0x00000101), 0) := by decide
/-- V-H-19. -/
theorem test_reservedOp : look resultAndStatus (exec (.reservedOp 0x07) dead) = some (2, 0x00000520) := by decide

/-! ## Received frames (sections 2.4, 2.7) -/

/-- V-P-1: the state after the frame, and the PONG. -/
theorem test_rxPing :
    look (fun t => (csrValue .status t, frameOf .pong t)) (exec (.rxPing 0x42 0x41 []) running)
      = some (0x00000411, [0x01, 0x41, 0x42, 0x06, 0x00, 0x02, 0x03, 0x89, 0x04]) := by decide
/-- V-P-6. -/
theorem test_rxPong :
    look (fun t => (csrValue .status t, csrValue .errCount t)) (exec (.rxPong 0x42 0x41 []) running)
      = some (0x00000101, 0) := by decide
/-- P2's message registers. -/
theorem test_rxApp :
    look (fun t => (csrValue .status t, csrValue .msgInfo t, csrValue (.msgBuf 0) t))
        (exec (.rxApp 0x42 0x41 0x10 [0x03, 0x04, 0x01]) (registered 0x10 .external))
      = some (0x00000305, 0x03104142, 0x00010403) := by decide
/-- V-R-3: an EOT-valued payload byte ends the first read, and the continuation completes the frame. -/
theorem test_reassembly_false_eot :
    look (fun t => (csrValue .status t, t.dispatchTrace.length, csrValue .errCount t))
        (receives (stimRx [0x01, 0x42, 0x41, 0x10, 0x01, 0x02, 0x04, 0x03, 0x98, 0x04]) (registered 0x10 .external))
      = some (0x00000305, 1, 0) := by decide
/-- V-R-5. -/
theorem test_reassembly_exhausted :
    look (fun t => (csrValue .status t, t.errTrace))
        (receives (stimRx [0x01, 0x42, 0x41, 0x10, 0x01, 0x02, 0x04] ++ [.timeout]) running)
      = some (0x00000101, [.tooShortMsg]) := by decide
/-- V-R-19. -/
theorem test_read_fault :
    look (csrValue .status) (receives (stimRx [0x01, 0x42] ++ [.fault]) running) = some 0x00000520 := by decide
/-- V-C-12. -/
theorem test_err_count_wraps : (reportError .badChecksum { idle with errCount := 0xFFFFFFFF }).errCount = 0 := by
  decide
/-- V-C-2 to V-C-6. -/
theorem test_reads_after_reset :
    csrRead 0x414 .w32 idle = (0x00000200, true) ∧ csrRead 0x504 .w32 idle = (0, true) ∧
    csrRead 0x000 .w32 idle = (0x42, true) ∧ csrRead 0x010 .w32 idle = (1, true) ∧
    csrRead 0x004 .w32 idle = (0, true) := by decide
/-- V-C-8, V-C-9. -/
theorem test_bus_errors :
    csrRead 0x028 .w32 idle = (0, false) ∧ csrRead 0x0FC .w32 idle = (0, false) ∧
    csrRead 0x300 .w32 idle = (0, false) ∧ csrRead 0x800 .w32 idle = (0, false) ∧
    csrRead 0x002 .w32 idle = (0, false) ∧ csrRead 0x000 .w8 idle = (0, false) := by decide
/-- The words of R96 and R97 as P1, P2 and P3 print them. -/
theorem test_assembler :
    asmRegisterExt 0x10 7 = .access (.write 0x004 .w32 0x01071003) ∧
    asmSend 0x42 0x48 = .access (.write 0x004 .w32 0x00424804) ∧
    asmLoadTx [0x48, 0x69] = [.access (.write 0x014 .w32 2), .access (.write 0x100 .w32 0x00006948)] ∧
    asmPing 0x42 = [.poll 0x008 0x8 0x0, .access (.write 0x014 .w32 0), .access (.write 0x004 .w32 0x00420504)] := by
  decide

/-! ## Witnesses: states and operands that meet each statement's hypotheses, one for each clause -/

theorem witness_UnusedCommandBitsIgnored :
    ((0xFFFFFF01 : Word).extractLsb' 0 8 = (0x00000001 : Word).extractLsb' 0 8 ∧ Cmd.op 0xFFFFFF01 = 0x01) ∧
    ((0xFF424804 : Word).extractLsb' 0 24 = (0x00424804 : Word).extractLsb' 0 24 ∧ Cmd.op 0xFF424804 = 0x04) ∧
    ((0xFFFF4105 : Word).extractLsb' 0 16 = (0x00004105 : Word).extractLsb' 0 16 ∧ Cmd.op 0xFFFF4105 = 0x05) ∧
    ((0xFD074403 : Word).extractLsb' 0 26 = (0x01074403 : Word).extractLsb' 0 26 ∧ Cmd.op 0xFD074403 = 0x03) := by
  decide

theorem witness_DecodeOfEncodeIsTheInstruction :
    ((Instr.register 0xFF 0xFF 3).wellFormed = true ∧ (Instr.register 0xFF 0xFF 3).addressedTo 0x42 = true) ∧
    ((Instr.reservedOp 0xFF).wellFormed = true ∧ (Instr.reservedOp 0xFF).addressedTo 0x42 = true) ∧
    ((Instr.rxPing 0x42 0xFF (List.replicate 255 0xFF)).wellFormed = true ∧
      (Instr.rxPing 0x42 0xFF (List.replicate 255 0xFF)).addressedTo 0x42 = true) ∧
    ((Instr.rxApp 0x00 0xFF 0x04 [0x04]).wellFormed = true ∧
      (Instr.rxApp 0x00 0xFF 0x04 [0x04]).addressedTo 0x42 = true) := by
  simp [-List.reduceReplicate, Instr.wellFormed, Instr.addressedTo, payloadFits, opReserved]

theorem witness_FrameRoundTrip :
    (List.replicate 255 (0xFF : Byte)).length ≤ 255 ∧ ((0x42 : Byte) = 0x42 ∨ (0x42 : Byte) = 0x00) ∧
    ((0x00 : Byte) = 0x42 ∨ (0x00 : Byte) = 0x00) ∧ ¬ ((0x43 : Byte) = 0x42 ∨ (0x43 : Byte) = 0x00) := by
  simp [-List.reduceReplicate]

/-- V-D-16 to V-D-27: every index of V-E-3's frame, and the frame of V-D-27 to the broadcast address, where bit 6 of
DEST gives st = 0x40 and bit 0 does not. -/
theorem witness_SingleBitFlipOutcome :
    [(0x48 : Byte), 0x69].length ≤ 255 ∧ 10 < 9 + [(0x48 : Byte), 0x69].length ∧
    ((0x42 : Byte) = 0x42 ∨ (0x42 : Byte) = 0x00) ∧
    flipBit (0x42 : Byte) 7 ≠ 0x42 ∧ flipBit (0x42 : Byte) 7 ≠ 0x00 ∧
    flipBit (0x00 : Byte) 6 = 0x40 ∧ flipBit (0x00 : Byte) 0 ≠ 0x40 ∧ flipBit (0x00 : Byte) 0 ≠ 0x00 := by decide

theorem witness_payload_of_255 : (List.replicate 255 (0xFF : Byte)).length ≤ 255 := by simp [-List.reduceReplicate]

/-- For DecodeReturnsOnlyItsCodes and DecodedMessageRanges: decode does return an error, and a message. -/
theorem witness_decode_both_ways :
    Frame.decode [] false 0x42 = .error .tooShortMsg ∧
    Frame.decode [0x01, 0x00, 0x42, 0x41, 0x00, 0x02, 0x03, 0x83, 0x04] false 0x42
      = .ok { dest := 0x00, orig := 0x42, cmd := 0x41, length := 0, payload := [] } := by decide

theorem witness_StartOutcome :
    dead.fatal = true ∧ (running.fatal = false ∧ running.rxState ≠ .stopped) ∧
    (idle.fatal = false ∧ idle.rxState = .stopped ∧ idle.cancelReq = false) ∧
    ({ idle with cancelReq := true }.fatal = false ∧ { idle with cancelReq := true }.rxState = .stopped ∧
      { idle with cancelReq := true }.cancelReq = true) := by decide

theorem witness_CancelOutcome :
    dead.fatal = true ∧ (idle.fatal = false ∧ idle.rxState = .stopped) ∧
    (pending.fatal = false ∧ pending.rxState ≠ .stopped) := by decide

theorem witness_RegisterOutcome :
    dead.fatal = true ∧ (idle.fatal = false ∧ (0 : BitVec 2) ≠ 1 ∧ (0 : BitVec 2) ≠ 2) ∧
    ((3 : BitVec 2) ≠ 1 ∧ (3 : BitVec 2) ≠ 2) ∧ ((1 : BitVec 2) = 1 ∨ (1 : BitVec 2) = 2) ∧
    ((2 : BitVec 2) = 1 ∨ (2 : BitVec 2) = 2) ∧ (0xFF : Byte) ≠ 0x00 := by decide

/-- For SendOutcome and BroadcastIsSendToZero. -/
theorem witness_SendOutcome :
    dead.fatal = true ∧ (sending.fatal = false ∧ sending.hostTxPend = true) ∧
    (idle.fatal = false ∧ idle.hostTxPend = false ∧ idle.station = 0x42 ∧ idle.txLen = 0) ∧
    ({ idle with station := 0x41 }.fatal = false ∧ { idle with station := 0x41 }.hostTxPend = false ∧
      { idle with station := 0x41 }.station = 0x41 ∧ { idle with station := 0x41 }.txLen = 0) := by decide

theorem witness_MsgDoneOutcome :
    dead.fatal = true ∧ (idle.fatal = false ∧ idle.msgPending = false) ∧
    (pending.fatal = false ∧ pending.msgPending = true ∧ pending.cancelReq = false) ∧
    ({ pending with cancelReq := true }.msgPending = true ∧ { pending with cancelReq := true }.cancelReq = true) := by
  decide

/-- For ReservedOpIsIllegal and FatalRefusesCommandsUntilReset, at the bounds of the reserved and the legal values. -/
theorem witness_reserved_and_legal_ops :
    (Cmd.op 0x00000000).toNat = 0 ∧ 7 ≤ (Cmd.op 0x00000007).toNat ∧ 7 ≤ (Cmd.op 0xFFFFFFFF).toNat ∧
    (1 ≤ (Cmd.op 0x00000001).toNat ∧ (Cmd.op 0x00000001).toNat ≤ 6) ∧
    (1 ≤ (Cmd.op 0xFFFFFF06).toNat ∧ (Cmd.op 0xFFFFFF06).toNat ≤ 6) ∧ dead.fatal = true ∧ Csr.cmd ≠ .status := by
  decide

theorem witness_fatal_step :
    ∃ t, dead.fatal = true ∧ (nextTurn (turn .receive dead)).running = true ∧ step (turn .receive dead) = .next t :=
  ⟨_, rfl, rfl, rfl⟩

/-- A command is refused: RefusedCommandOnlyWritesResult's last clause is not empty. -/
theorem witness_RefusedCommandOnlyWritesResult :
    look (fun t => decide (t.cmdResult ≠ .ok)) (exec (decodeCommand 0x00000001) running) = some true := by decide

/-- For HostCommandFrame: a command of each of the frame's groups. -/
theorem witness_HostCommandFrame :
    (∃ t, isHostCommand .start = true ∧ exec .start idle = .next t) ∧
    (∃ t, isHostCommand (.register 0 0 1) = true ∧ exec (.register 0 0 1) idle = .next t) ∧
    (∃ t, isHostCommand (.broadcast 0) = true ∧ exec (.broadcast 0) idle = .next t) ∧
    (∃ t, isHostCommand .msgDone = true ∧ exec .msgDone pending = .next t) :=
  ⟨⟨_, rfl, rfl⟩, ⟨_, rfl, rfl⟩, ⟨_, rfl, rfl⟩, ⟨_, rfl, rfl⟩⟩

theorem witness_PingIsAnsweredWithPong :
    rxReading running.rxState = true ∧ ((0x42 : Byte) = running.station ∨ (0x42 : Byte) = 0x00) ∧
    ((0x00 : Byte) = running.station ∨ (0x00 : Byte) = 0x00) ∧ (regEntry running 0x05).kind = .builtinPing ∧
    (rxReading (registered 0x06 .builtinPing).rxState = true ∧
      (regEntry (registered 0x06 .builtinPing) 0x06).kind = .builtinPing) ∧
    (regEntry (registered 0x20 .builtinPing) 0x20).kind = .builtinPing ∧ ponging.pongDest = 0x41 := by decide

theorem witness_ExternalFrameIsHandedToHost :
    rxReading (registered 0x10 .external).rxState = true ∧
    (0x42 : Byte) = (registered 0x10 .external).station ∧
    (regEntry (registered 0x05 .external) 0x05).kind = .external ∧
    (regEntry (registered 0x06 .external) 0x06).kind = .external ∧
    (regEntry (registered 0x10 .external) 0x10).kind = .external ∧ (0 : Nat) < [(0x03 : Byte)].length := by decide

theorem witness_UnregisteredFrameIsDropped :
    rxReading (registered 0x05 .absent).rxState = true ∧ (registered 0x05 .absent).cancelReq = false ∧
    (regEntry (registered 0x05 .absent) 0x05).kind = .absent ∧ (regEntry running 0x06).kind = .absent ∧
    (regEntry running 0xFF).kind = .absent ∧ { running with cancelReq := true }.cancelReq = true ∧
    (0x04 : Byte) ≠ 0x05 := by decide

theorem witness_FrameNotForThisMoment :
    rxReading idle.rxState = false ∧ rxReading pending.rxState = false ∧ rxReading dead.rxState = false ∧
    (rxReading running.rxState = true ∧ (0x43 : Byte) ≠ running.station ∧ (0x43 : Byte) ≠ 0x00) := by decide

theorem witness_ReceivedFrameFrame :
    (∃ t, isHostCommand (.rxPing 0x42 0x41 []) = false ∧ exec (.rxPing 0x42 0x41 []) running = .next t ∧
      t.rxState = .dispatchPing) ∧
    (∃ t, isHostCommand (.rxApp 0x42 0x41 0x10 []) = false ∧
      exec (.rxApp 0x42 0x41 0x10 []) (registered 0x10 .external) = .next t ∧ t.rxState ≠ .dispatchPing) ∧
    (∃ t, isHostCommand (.rxPong 0x42 0x41 []) = false ∧ exec (.rxPong 0x42 0x41 []) running = .next t ∧
      t.rxState ≠ .dispatchExt) :=
  ⟨⟨_, rfl, rfl, rfl⟩, ⟨_, rfl, rfl, by decide⟩, ⟨_, rfl, rfl, by decide⟩⟩

/-- For EvaluateFollowsTheDecode and FlowErrorIsReportedAndLoopGoesOn: a message, a retried error, two reported ones
(the last byte is not EOT; the error is another one), and a cancel pending. -/
theorem witness_EvaluateFollowsTheDecode :
    rxReading running.rxState = true ∧ rxReading cont.rxState = true ∧
    Frame.decode [0x01, 0x42, 0x41, 0x05, 0x00, 0x02, 0x03, 0x88, 0x04] running.rxOver running.station
      = .ok { dest := 0x42, orig := 0x41, cmd := 0x05, length := 0, payload := [] } ∧
    (Frame.decode cont.rxBuf cont.rxOver cont.station = .error .tooShortMsg ∧ cont.rxLast = 0x04) ∧
    (Frame.decode running.rxBuf running.rxOver running.station = .error .tooShortMsg ∧
      ¬ ((FlowError.tooShortMsg = .badLenField ∨ FlowError.tooShortMsg = .tooShortMsg) ∧ running.rxLast = 0x04) ∧
      running.cancelReq = false ∧ { running with cancelReq := true }.cancelReq = true) ∧
    ¬ ((FlowError.badChecksum = .badLenField ∨ FlowError.badChecksum = .tooShortMsg) ∧ cont.rxLast = 0x04) := by
  decide

theorem witness_IdleReadReportsNothing :
    (nextTurn (turn .receive running) = .receive ∧ nextRx { turn .receive running with rxIn := [.timeout] } = .timeout ∧
      running.rxState = .readFirst ∧ running.rxBuf = [] ∧ running.rxOver = false) ∧
    nextRx { turn .receive running with rxIn := [.endOfStream] } = .endOfStream ∧
    running.cancelReq = false ∧ { running with cancelReq := true }.cancelReq = true := by decide

/-- For ByteIsAppendedAndEotEvaluates: both reading states, with room and full. -/
theorem witness_ByteIsAppendedAndEotEvaluates :
    rxReading running.rxState = true ∧ rxReading cont.rxState = true ∧ cont.rxBuf.length < 264 ∧
    ¬ ({ running with rxBuf := List.replicate 264 0xAA }).rxBuf.length < 264 ∧ (0x05 : Byte) ≠ 0x04 := by
  simp [-List.reduceReplicate, running, cont, idle, State.resetWith, rxReading]

theorem witness_EndOfStreamActsAsTimeout :
    (rxReading running.rxState = true ∧ running.cancelReq = false) ∧ rxReading cont.rxState = true := by decide

theorem witness_ExhaustedContinuationReportsPendingError :
    (cont.rxState = .readCont ∧ cont.rxNew = false) ∧
    ({ cont with rxNew := true, rxBuf := [0x04, 0x03], rxLast := 0x03 }.rxNew = true ∧
      { cont with rxNew := true, rxBuf := [0x04, 0x03], rxLast := 0x03 }.rxLast ≠ 0x04 ∧
      ({ cont with rxNew := true, rxBuf := [0x04, 0x03], rxLast := 0x03 }).rxBuf.getLast? = some 0x03) := by decide

/-- Its last clause: a continuation that brought the byte 0x03, in a state that meets the invariant. -/
theorem witness_ExhaustedContinuation_Inv :
    ({ cont with rxNew := true, rxBuf := [0x04, 0x03], rxLast := 0x03 } : State).Inv :=
  { station_ne_zero := by decide
    pending_iff_dispatchExt := by decide
    pong_in_dispatchPing := by decide
    fatal_iff_state := by decide
    fatal_clears := by decide
    cancel_running := by decide
    buf_bounded := by decide
    over_full := by decide
    last_byte := by decide
    cont_pending := by decide
    cont_new := by decide
    hid_zero := by decide
    msg_fields := by decide }

/-- For ReadFaultEntersFatal and NoReadOutsideReadingStates. -/
theorem witness_reading_and_not :
    rxReading running.rxState = true ∧ rxReading cont.rxState = true ∧
    ∃ t, rxReading ponging.rxState = false ∧ step (turn .receive ponging) = .next t :=
  ⟨rfl, rfl, _, rfl, rfl⟩

theorem witness_TruncationRecovery :
    let s := { registered 0x10 .external with
      rxIn := stimRx (Frame.encode 0x42 0x41 0x10 [0x04]) ++ [.timeout]
      schedule := List.replicate 10 .receive ++ [.host] }
    [(0x04 : Byte)].length ≤ 255 ∧ (0x42 : Byte) = s.station ∧ s.rxState = .readFirst ∧ s.rxBuf = [] ∧
    s.rxOver = false ∧ s.rxIn = stimRx (Frame.encode 0x42 0x41 0x10 [0x04]) ++ [.timeout] ∧
    s.schedule = List.replicate (9 + [(0x04 : Byte)].length) .receive ++ [.host] ∧
    (regEntry s 0x10).kind = .external ∧ (regEntry s 0x05).kind = .builtinPing ∧ (regEntry s 0x06).kind = .absent := by
  decide

theorem witness_BoundedBufferKeepsEveryOutcome :
    ({ running with rxBuf := List.replicate 264 0xAA }).rxOver = false ∧
    ({ running with rxBuf := List.replicate 264 0xAA }).rxBuf.length ≤ 264 := by
  simp [-List.reduceReplicate, running, idle, State.resetWith]

/-- A host frame alone, named first or not; a PONG alone; both, each first, with the frames of V-P-7. The u of the
statement is the state its equation names. -/
theorem witness_TransmitStepWritesOneFrame :
    (sending.fatal = false ∧ sending.hostTxPend = true ∧ sending.pongReq = false ∧
      nextTurn (turn (.transmit .pong) sending) = .transmit .pong ∧
      nextTx { turn (.transmit .pong) sending with txIn := [.ok] } = .ok) ∧
    (ponging.fatal = false ∧ ponging.pongReq = true ∧ ponging.hostTxPend = false ∧
      nextTurn (turn (.transmit .host) ponging) = .transmit .host ∧
      nextTx { turn (.transmit .host) ponging with txIn := [.fault] } = .fault) ∧
    (both.fatal = false ∧ both.hostTxPend = true ∧ both.pongReq = true ∧
      nextTurn (turn (.transmit .host) both) = .transmit .host ∧
      nextTurn (turn (.transmit .pong) both) = .transmit .pong ∧
      [0x01, 0x43, 0x42, 0x20, 0x00, 0x02, 0x03, 0xA5, 0x04]
        = Frame.encode both.hostTxDest both.station both.hostTxCmd (both.txBuf.toList.take both.txLen.toNat) ∧
      [0x01, 0x41, 0x42, 0x06, 0x00, 0x02, 0x03, 0x89, 0x04] = Frame.encode both.pongDest both.station 0x06 []) := by
  decide

/-- For OnlyTransmitStepsWrite, PendingHostFrameIsFrozen, StationChangesOnlyAtReset, RegistryEntriesPersist and
TracesAreOnlyAppended: a step of a turn that is no reset, with a host frame pending. -/
theorem witness_running_step :
    ∃ t, sending.hostTxPend = true ∧ (nextTurn (turn .receive sending)).running = true ∧
      step (turn .receive sending) = .next t ∧ (regEntry sending 0x05).kind ≠ .absent :=
  ⟨_, rfl, rfl, rfl, by decide⟩

/-- For RegistryEntriesPersist's second clause: a step that changes an entry. -/
theorem witness_RegistryEntriesPersist :
    look (fun t => decide (regEntry t 0x44 ≠ regEntry idle 0x44))
      (step { turn .host idle with hostProgram := [asmRegisterExt 0x44 7] }) = some true := by decide

theorem witness_LoopResumesAfterPong :
    (ponging.rxState = .dispatchPing ∧ ponging.pongReq = true) ∧
    ({ ponging with pongReq := false }.rxState = .dispatchPing ∧ { ponging with pongReq := false }.pongReq = false ∧
      { ponging with pongReq := false }.fatal = false) ∧ { ponging with fatal := true }.fatal = true := by decide

theorem witness_PongIsWrittenThenLoopResumes :
    let s := { ponging with schedule := .transmit .pong :: .receive :: [], txIn := .ok :: [] }
    s.rxState = .dispatchPing ∧ s.pongReq = true ∧ s.fatal = false ∧ s.cancelReq = false ∧
    s.schedule = .transmit .pong :: .receive :: [] ∧ s.txIn = .ok :: [] := by decide

/-- For StatusBits: an error just reported, and none; for ReadsAndReadOnlyWritesHaveNoEffect: each result. -/
theorem witness_StatusBits :
    (reportError .badChecksum idle).errPulse = some .badChecksum ∧ idle.errPulse = none ∧ idle.cmdResult = .ok ∧
    (setResult .busy idle).cmdResult = .busy ∧ (setResult .illegal idle).cmdResult = .illegal ∧
    (setResult .fatal idle).cmdResult = .fatal := by decide

/-- The bounds of every hole of the register map, and of what is mapped beside it. -/
theorem witness_RegisterMapAndBusErrors :
    csrOfAccess 0x024 .w32 = some .msgHid ∧ csrOfAccess 0x028 .w32 = none ∧ csrOfAccess 0x0FC .w32 = none ∧
    csrOfAccess 0x100 .w32 = some (.txBuf 0) ∧ csrOfAccess 0x1FC .w32 = some (.txBuf 63) ∧
    csrOfAccess 0x200 .w32 = some (.msgBuf 0) ∧ csrOfAccess 0x2FC .w32 = some (.msgBuf 63) ∧
    csrOfAccess 0x300 .w32 = none ∧ csrOfAccess 0x3FC .w32 = none ∧ csrOfAccess 0x400 .w32 = some (.reg 0) ∧
    csrOfAccess 0x7FC .w32 = some (.reg 255) ∧ csrOfAccess 0x800 .w32 = none ∧ csrOfAccess 0xFFC .w32 = none ∧
    csrOfAccess 0x001 .w32 = none ∧ csrOfAccess 0x000 .w16 = none := by decide

theorem witness_ReadsAndReadOnlyWritesHaveNoEffect :
    csrOfAccess 0x008 .w32 = some .status ∧ Csr.status ≠ .cmd ∧ Csr.status ≠ .timeout ∧ Csr.status ≠ .txLen ∧
    (Csr.status = Csr.txBuf 0 → False) := by decide

/-- For RegisterWritesStore and TxBufStoresLittleEndianWords. -/
theorem witness_RegisterWritesStore :
    idle.hostTxPend = false ∧ sending.hostTxPend = true ∧ (63 : BitVec 6) ≠ 0 ∧
    ∃ t, exec (decodeCommand 0x00000001) idle = .next t := ⟨rfl, rfl, by decide, _, rfl⟩

theorem witness_MessageRegisters :
    pending.msgPending = true ∧ idle.msgPending = false ∧ (3 : Nat) < 4 ∧
    4 * (0 : BitVec 6).toNat + 2 < pending.msg.length.toNat ∧
    ¬ 4 * (0 : BitVec 6).toNat + 3 < pending.msg.length.toNat := by decide

/-- With witness_StepKeepsInvariant's state, which meets the invariant and has entries of the other two kinds. -/
theorem witness_RegistryEntryWord :
    (regEntry (registered 0xFF .external) 0xFF).kind = .external ∧ (regEntry pending 0x05).kind = .builtinPing ∧
    (regEntry pending 0x00).kind = .absent ∧ (0x00 : Byte) ≠ 0x05 := by decide

theorem witness_LoadTxLoadsThePayload :
    let bytes : List Byte := [0x48, 0x69, 0x78, 0x6F, 0x6B]
    let s : State := { idle with
      hostProgram := asmLoadTx bytes ++ [asmStart], schedule := List.replicate 3 Turn.host ++ [Turn.receive] }
    bytes.length ≤ 255 ∧ s.hostTxPend = false ∧ s.hostProgram = asmLoadTx bytes ++ [asmStart] ∧
    s.schedule = List.replicate (asmLoadTx bytes).length Turn.host ++ [Turn.receive] := by decide

theorem witness_StepRunsTheHostCommand :
    let s := { turn .host idle with hostProgram := [asmCmd 0x00000001] }
    nextTurn s = .host ∧ nextHost s = .access (.write 0x004 .w32 0x00000001) ∧
    ∃ t, exec (decodeCommand 0x00000001) { s with
      schedule := s.schedule.tail, errPulse := none, hostProgram := s.hostProgram.tail } = .next t :=
  ⟨rfl, rfl, _, rfl⟩

theorem witness_StepRunsTheReceivedFrame :
    let s := { turn .receive running with
      rxIn := [.byte 0x04], rxBuf := [0x01, 0x42, 0x41, 0x05, 0x00, 0x02, 0x03, 0x88] }
    nextTurn s = .receive ∧ rxReading s.rxState = true ∧ nextRx s = .byte 0x04 ∧ s.rxOver = false ∧
    s.rxBuf.length < 264 ∧ decode s.station (.frame (s.rxBuf ++ [0x04])) = .ok (.rxPing 0x42 0x41 []) ∧
    ∃ t, exec (.rxPing 0x42 0x41 []) { s with
      schedule := s.schedule.tail, errPulse := none, rxIn := s.rxIn.tail
      rxBuf := s.rxBuf ++ [0x04], rxLast := 0x04
      rxNew := if s.rxState = .readCont then true else s.rxNew } = .next t :=
  ⟨rfl, rfl, rfl, rfl, by decide, by decide, _, rfl⟩

/-- For ResetTurn, both cases. -/
theorem witness_ResetTurn :
    (∃ p, nextTurn (turn (.reset params42) dead) = .reset p ∧ p.station ≠ 0) ∧
    (∃ p, nextTurn (turn (.reset { params42 with station := 0 }) dead) = .reset p ∧ p.station = 0) :=
  ⟨⟨params42, rfl, by decide⟩, ⟨{ params42 with station := 0 }, rfl, rfl⟩⟩

/-- A step of the receive engine, which changes nothing, and the host's START, which starts the loop. -/
theorem witness_NoTransportAccessAfterReset :
    (∃ t, idle.rxState = .stopped ∧ idle.hostTxPend = false ∧ idle.pongReq = false ∧ idle.msgPending = false ∧
      (nextTurn (turn .receive idle)).running = true ∧ step (turn .receive idle) = .next t) ∧
    look (fun t => t.rxState) (step { turn .host idle with hostProgram := [asmStart] }) = some .readFirst :=
  ⟨⟨_, rfl, rfl, rfl, rfl, rfl, rfl⟩, by decide⟩

theorem witness_ResetMeetsInvariant : params42.station ≠ 0 := by decide

/-- A state inside a dispatch meets the invariant, and takes a step. -/
theorem witness_StepKeepsInvariant : pending.Inv ∧ ∃ t, step (turn .receive pending) = .next t :=
  ⟨{ station_ne_zero := by decide
     pending_iff_dispatchExt := by decide
     pong_in_dispatchPing := by decide
     fatal_iff_state := by decide
     fatal_clears := by decide
     cancel_running := by decide
     buf_bounded := by decide
     over_full := by decide
     last_byte := by decide
     cont_pending := by decide
     cont_new := by decide
     hid_zero := by decide
     msg_fields := by decide }, _, rfl⟩

theorem witness_ErrorRegistersFollowTheTrace :
    { running with errTrace := [.badChecksum], errCount := 1, errLast := .badChecksum }.ErrInv ∧
    ∃ t, step (turn .receive idle) = .next t :=
  ⟨⟨by decide, by decide⟩, _, rfl⟩

theorem witness_DispatchIsSerialised :
    (pending.rxState = .dispatchExt ∧ (nextTurn (turn .receive pending)).running = true ∧
      ∃ t, step (turn .receive pending) = .next t) ∧
    (ponging.rxState = .dispatchPing ∧ (nextTurn (turn .receive ponging)).running = true ∧
      ∃ t, step (turn .receive ponging) = .next t) :=
  ⟨⟨rfl, rfl, _, rfl⟩, rfl, rfl, _, rfl⟩

theorem witness_EveryStepGoesOn : ∀ p, nextTurn (turn .receive idle) = .reset p → p.station ≠ 0 := by
  intro p h
  cases h

end Sys2Proof.Tests
end

namespace Sys2Proof.Machine

/-! ### Updates that keep the invariant of R50 field by field -/

theorem inv_beginStep {s : State} (h : s.Inv) : (beginStep s).Inv := { h with }
theorem inv_endStep {s : State} (h : s.Inv) : (endStep s).Inv := { h with }
theorem inv_popHost {s : State} (h : s.Inv) : (popHost s).Inv := { h with }
theorem inv_popRx {s : State} (h : s.Inv) : (popRx s).Inv := { h with }
theorem inv_respond {s : State} (r : BusResponse) (h : s.Inv) : (respond r s).Inv := { h with }
theorem inv_setResult {s : State} (r : CmdResult) (h : s.Inv) : (setResult r s).Inv := { h with }
theorem inv_reportError {s : State} (e : FlowError) (h : s.Inv) : (reportError e s).Inv := { h with }

theorem inv_csrStore {s : State} (r : Csr) (v : Word) (h : s.Inv) : (csrStore r v s).Inv := by
  obtain ⟨a, l, b, e, -⟩ := csrStore_update r v s
  rw [e]
  exact { h with }

/-- A registration stores a handler id for EXTERNAL entries only (R35, R182). -/
theorem inv_setRegEntry {s : State} (c : Byte) {e : RegEntry} (he : e.kind ≠ .external → e.hid = 0) (h : s.Inv) :
    (setRegEntry c e s).Inv :=
  { h with
    hid_zero := by
      intro d
      by_cases hd : d = c
      · subst hd
        rw [regEntry_setRegEntry_same]
        exact he
      · rw [regEntry_setRegEntry_other hd]
        exact h.hid_zero d }

/-- Entering FATAL withdraws every request (R240). -/
theorem inv_raiseFatal {s : State} (cause : FatalCause) (h : s.Inv) : (raiseFatal cause s).Inv :=
  { h with
    pending_iff_dispatchExt := by simp
    pong_in_dispatchPing := by simp
    fatal_iff_state := by simp
    fatal_clears := by simp
    cancel_running := by simp
    cont_pending := by simp
    cont_new := by simp
    msg_fields := by simp }

/-- A read Fault also empties the cycle (R145). -/
theorem inv_rxFaultEntry {s : State} (h : s.Inv) : (rxFaultEntry s).Inv :=
  { inv_raiseFatal .rxFault h with
    buf_bounded := Nat.zero_le _
    over_full := nofun
    last_byte := fun _ hne => absurd rfl hne
    cont_pending := nofun
    cont_new := nofun }

/-! ### Outside a dispatch -/

/-- No message, no PONG and no fatal failure: the receive engine is inside no dispatch and not in FATAL. -/
def State.Quiet (s : State) : Prop := s.msgPending = false ∧ s.pongReq = false ∧ s.fatal = false

theorem quiet_of_rxState {s : State} (h : s.Inv) (hx : s.rxState = .stopped ∨ rxReading s.rxState = true) :
    s.Quiet := by
  have hm := h.pending_iff_dispatchExt
  have hp := h.pong_in_dispatchPing
  have hf := h.fatal_iff_state
  unfold State.Quiet
  cases hs : s.rxState <;> simp_all [rxReading]

/-- The invariant puts nothing on READ_FIRST but to be quiet: a quiet state meets it with the engine put there. -/
theorem inv_readFirst {s : State} (h : s.Inv) (hq : s.Quiet) : { s with rxState := .readFirst }.Inv := by
  obtain ⟨hm, hp, hf⟩ := hq
  exact
    { h with
      pending_iff_dispatchExt := by simp [hm]
      pong_in_dispatchPing := by simp [hp]
      fatal_iff_state := by simp [hf]
      cancel_running := fun _ => rfl
      cont_pending := nofun
      cont_new := nofun }

/-- LoopTop reads nothing of the engine's state (R150), so the hypothesis speaks of the rest of the state alone. -/
theorem inv_loopTop {s : State} (h : { s with rxState := .readFirst }.Inv) : (loopTop s).Inv := by
  unfold loopTop
  split
  · exact
      { h with
        pending_iff_dispatchExt := by simpa using h.pending_iff_dispatchExt
        pong_in_dispatchPing := by simpa using h.pong_in_dispatchPing
        fatal_iff_state := by simpa using h.fatal_iff_state
        fatal_clears := fun hf => absurd (h.fatal_iff_state.mp hf) (by simp)
        cancel_running := nofun
        cont_pending := nofun
        cont_new := nofun }
  · exact
      { h with
        buf_bounded := Nat.zero_le _
        over_full := nofun
        last_byte := fun _ hne => absurd rfl hne
        cont_pending := nofun
        cont_new := nofun }

/-- The end of an external dispatch (R185): a pending message means no PONG is due. -/
theorem inv_returnFromHandler {s : State} (h : s.Inv) (hm : s.msgPending = true) (hf : s.fatal = false) :
    (returnFromHandler s).Inv := by
  have hx : s.rxState = .dispatchExt := h.pending_iff_dispatchExt.mp hm
  have hp : s.pongReq = false := by
    have := h.pong_in_dispatchPing
    simp_all
  exact inv_loopTop
    { h with
      pending_iff_dispatchExt := by simp
      pong_in_dispatchPing := by simp [hp]
      fatal_iff_state := by simp [hf]
      fatal_clears := by simp [hf]
      cancel_running := fun _ => rfl
      cont_pending := nofun
      cont_new := nofun
      msg_fields := nofun }

/-! ### The receive engine -/

theorem inv_dispatchExternal {m : Message} {s : State} (hid : Byte) (h : s.Inv) (hq : s.Quiet)
    (hm : m.payload.length = m.length.toNat ∧ (m.dest = s.station ∨ m.dest = 0)) : (dispatchExternal m hid s).Inv := by
  obtain ⟨-, hp, hf⟩ := hq
  exact
    { h with
      pending_iff_dispatchExt := by simp
      pong_in_dispatchPing := by simp [hp]
      fatal_iff_state := by simp [hf]
      fatal_clears := by simp [hf]
      cancel_running := fun _ => rfl
      cont_pending := nofun
      cont_new := nofun
      msg_fields := fun _ => hm }

theorem inv_pingRespond {s : State} (m : Message) (h : s.Inv) (hq : s.Quiet) : (pingRespond m s).Inv := by
  obtain ⟨hm, -, hf⟩ := hq
  exact
    { h with
      pending_iff_dispatchExt := by simp [hm]
      pong_in_dispatchPing := by simp
      fatal_iff_state := by simp [hf]
      fatal_clears := by simp [hf]
      cancel_running := fun _ => rfl
      cont_pending := nofun
      cont_new := nofun }

theorem inv_dispatch {m : Message} {s : State} (h : s.Inv) (hq : s.Quiet)
    (hm : m.payload.length = m.length.toNat ∧ (m.dest = s.station ∨ m.dest = 0)) : (dispatch m s).Inv := by
  rcases dispatch_cases m s with ⟨-, e⟩ | ⟨-, e⟩ | ⟨-, e⟩ <;> rw [e]
  · exact inv_loopTop (inv_readFirst h hq)
  · exact inv_dispatchExternal _ h hq hm
  · exact inv_pingRespond m h hq

/-- What a decode says of the fields of its Message (R135). -/
theorem decode_msg_fields {buf : List Byte} {ov : Bool} {st : Byte} {m : Message}
    (h : Frame.decode buf ov st = .ok m) :
    m.payload.length = m.length.toNat ∧ (m.dest = st ∨ m.dest = 0) := by
  obtain ⟨-, hlen, hdest, -, -, -, -, -, rfl⟩ := decode_ok h
  refine ⟨?_, (accepts_iff st _).mp hdest⟩
  simp only [Frame.payloadOf, List.length_take, List.length_drop]
  omega

/-- Receiving a message that passed decode dispatches it (R173, R174). -/
theorem receiveMessage_of_decode {s : State} {m : Message} (hr : rxReading s.rxState = true)
    (h : Frame.decode s.rxBuf s.rxOver s.station = .ok m) :
    receiveMessage (Message.of m.dest m.orig m.cmd m.payload) s = dispatch m s := by
  rw [message_of_decode h]
  unfold receiveMessage
  rw [if_pos hr, if_pos ((accepts_iff s.station m.dest).mpr (decode_msg_fields h).2)]

/-- Only the two length errors after an EOT are retried (R154). -/
theorem retryNeeded_iff {e : FlowError} {last : Byte} :
    retryNeeded e last = true ↔ (e = .tooShortMsg ∨ e = .badLenField) ∧ last = 0x04 := by
  simp [retryNeeded, Frame.eot, or_comm]

/-- A retry begins a continuation read that has received no byte yet (R155). -/
theorem inv_retry {s : State} {e : FlowError} (h : s.Inv) (hq : s.Quiet)
    (hb : 1 ≤ s.rxBuf.length + s.rxOver.toNat) (he : retryNeeded e s.rxLast = true) :
    { s with rxPendErr := e, rxNew := false, rxState := .readCont }.Inv := by
  obtain ⟨hm, hp, hf⟩ := hq
  obtain ⟨herr, hlast⟩ := retryNeeded_iff.mp he
  exact
    { h with
      pending_iff_dispatchExt := by simp [hm]
      pong_in_dispatchPing := by simp [hp]
      fatal_iff_state := by simp [hf]
      cancel_running := fun _ => rfl
      cont_pending := fun _ => ⟨herr, hb⟩
      cont_new := fun _ => ⟨by simp [hlast], nofun⟩ }

theorem inv_evaluate {s t : State} (h : s.Inv) (hr : rxReading s.rxState = true)
    (hb : 1 ≤ s.rxBuf.length + s.rxOver.toNat) (ht : evaluate s = .next t) : t.Inv := by
  have hq := quiet_of_rxState h (.inr hr)
  rcases evaluate_cases s with ⟨m, hd, e⟩ | ⟨err, -, hretry, e⟩ | ⟨err, -, -, e⟩ <;> rw [e] at ht <;> cases ht
  · rw [receiveMessage_of_decode hr hd]
    exact inv_dispatch h hq (decode_msg_fields hd)
  · exact inv_retry h hq hb hretry
  · exact inv_loopTop (inv_reportError err (inv_readFirst h hq))

/-- A byte that leaves the engine in READ_CONT is no EOT, and marks the continuation read (R155). -/
theorem inv_appendByte {s : State} {b : Byte} {n : Bool} (h : s.Inv)
    (hcont : s.rxState = .readCont → n = true ∧ b ≠ 0x04) : (appendByte b { s with rxNew := n }).Inv := by
  have hfull := h.over_full
  have hbound := h.buf_bounded
  have grows : s.rxState = .readCont → 2 ≤ (appendByte b { s with rxNew := n }).rxBuf.length
      + (appendByte b { s with rxNew := n }).rxOver.toNat := by
    intro hx
    have hone := (h.cont_pending hx).2
    simp only [appendByte_rxBuf, appendByte_rxOver]
    split
    · simp; omega
    · simp; omega
  exact
    { h with
      buf_bounded := by
        simp only [appendByte_rxBuf]
        split
        · simp; omega
        · exact hbound
      over_full := by
        simp only [appendByte_rxBuf, appendByte_rxOver]
        split
        · intro ho
          have := hfull ho
          omega
        · intro _
          omega
      last_byte := by
        simp only [appendByte_rxBuf, appendByte_rxOver, appendByte_rxLast]
        split
        · simp
        · simp
      cont_pending := fun hx => ⟨(h.cont_pending hx).1, Nat.le_of_succ_le (grows hx)⟩
      cont_new := fun hx => ⟨iff_of_true (hcont hx).1 (hcont hx).2, fun _ => grows hx⟩ }

/-- Append leaves a cycle that has received a byte. -/
theorem appendByte_nonempty (b : Byte) (s : State) :
    1 ≤ (appendByte b s).rxBuf.length + (appendByte b s).rxOver.toNat := by
  simp only [appendByte_rxBuf, appendByte_rxOver]
  split
  · simp; omega
  · simp

/-- The EOT ends the read, so the engine need not be held to READ_CONT's clauses in between (R142, R153). -/
theorem inv_evaluate_appendByte {s t : State} {b : Byte} {n : Bool} (h : s.Inv) (hr : rxReading s.rxState = true)
    (ht : evaluate (appendByte b { s with rxNew := n }) = .next t) : t.Inv := by
  have hfirst := inv_readFirst h (quiet_of_rxState h (.inr hr))
  have happend := inv_appendByte (b := b) (n := n) hfirst nofun
  exact inv_evaluate happend rfl (appendByte_nonempty b _) ((evaluate_readFirst (by exact hr)).trans ht)

theorem inv_byteRead {s t : State} {b : Byte} (h : s.Inv) (hr : rxReading s.rxState = true)
    (ht : byteRead b (if s.rxState = .readCont then { s with rxNew := true } else s) = .next t) : t.Inv := by
  have hnew : (if s.rxState = .readCont then { s with rxNew := true } else s)
      = { s with rxNew := if s.rxState = .readCont then true else s.rxNew } := by split <;> rfl
  rw [hnew] at ht
  unfold byteRead at ht
  split at ht
  · exact inv_evaluate_appendByte h hr ht
  · next hb =>
    cases ht
    exact inv_appendByte h fun hx => ⟨if_pos hx, hb⟩

theorem inv_readEnded {s t : State} (h : s.Inv) (hr : rxReading s.rxState = true) (ht : readEnded s = .next t) :
    t.Inv := by
  have hfirst := inv_readFirst h (quiet_of_rxState h (.inr hr))
  unfold readEnded at ht
  split at ht
  · next hx =>
    split at ht
    · exact inv_evaluate h hr (h.cont_pending hx).2 ht
    · cases ht
      exact inv_loopTop (inv_reportError _ hfirst)
  · split at ht
    · cases ht
      exact inv_loopTop hfirst
    · next hne =>
      refine inv_evaluate h hr ?_ ht
      cases ho : s.rxOver with
      | true => simp
      | false =>
        have hlen : s.rxBuf.length ≠ 0 := by simpa [ho] using hne
        simp
        omega

theorem inv_readOutcome {o : RxOutcome} {s t : State} (h : s.Inv) (hr : rxReading s.rxState = true)
    (ht : readOutcome o s = .next t) : t.Inv := by
  cases o with
  | byte b => exact inv_byteRead h hr ht
  | timeout => exact inv_readEnded h hr ht
  | endOfStream => exact inv_readEnded h hr ht
  | fault => cases ht; exact inv_rxFaultEntry h

theorem inv_receiveTurn {s t : State} (h : s.Inv) (ht : receiveTurn s = .next t) : t.Inv := by
  rcases receiveTurn_cases s with ⟨hr, e⟩ | ⟨-, ⟨hx, hp, hf⟩, e⟩ | ⟨-, -, e⟩ <;> rw [e] at ht
  · exact inv_readOutcome (inv_popRx h) hr ht
  · have hm : s.msgPending = false := by
      have := h.pending_iff_dispatchExt
      simp_all
    cases ht
    exact inv_loopTop (inv_readFirst h ⟨hm, hp, hf⟩)
  · cases ht
    exact h

/-! ### The transmit engine -/

theorem inv_clearSource {s : State} (src : TxSource) (h : s.Inv) : (clearSource src s).Inv := by
  cases src with
  | host => exact { h with fatal_clears := fun hf => ⟨rfl, (h.fatal_clears hf).2⟩ }
  | pong =>
    exact
      { h with
        pong_in_dispatchPing := nofun
        fatal_clears := fun hf => ⟨(h.fatal_clears hf).1, rfl, (h.fatal_clears hf).2.2⟩ }

theorem inv_transmitTurn {s : State} (first : TxSource) (h : s.Inv) : (transmitTurn first s).Inv := by
  rcases transmitTurn_cases first s with ⟨-, e⟩ | ⟨src, -, -, -, -, ⟨-, e⟩ | ⟨-, e⟩⟩ <;> rw [e]
  · exact h
  · exact inv_clearSource src { h with }
  · exact inv_raiseFatal .txFault { h with }

/-! ### The host -/

/-- CANCEL leaves its request in a running engine only (R181). -/
theorem inv_cancelReq {s : State} (h : s.Inv) (hf : s.fatal = false) (hx : s.rxState ≠ .stopped) :
    { s with cancelReq := true }.Inv := by
  have hs := h.fatal_iff_state
  exact
    { h with
      fatal_clears := by simp [hf]
      cancel_running := by
        intro _
        cases hr : s.rxState <;> simp_all [rxRunning] }

theorem inv_command {i : Instr} {s t : State} (h : s.Inv) (ht : CommandUpdate i s t) : t.Inv := by
  rcases ht with ⟨r, rfl⟩ | ⟨rfl, -, hx⟩ | ⟨rfl, hf, hx⟩ | ⟨c, -, -, e, -, rfl, -, he, -⟩ | ⟨c, d, rfl, -, hf⟩ |
    ⟨rfl, hm, hf⟩ <;> apply inv_setResult
  · exact h
  · exact inv_loopTop (inv_readFirst h (quiet_of_rxState h (.inl hx)))
  · exact inv_cancelReq h hf hx
  · exact inv_setRegEntry c he h
  · exact { h with fatal_clears := by simp [hf] }
  · exact inv_returnFromHandler h hm hf

theorem inv_hostTurn {s t : State} (h : s.Inv) (ht : hostTurn s = .next t) : t.Inv := by
  rcases hostTurn_update ht with ⟨r, p, rfl⟩ | ⟨r, w, u, -, hu, rfl⟩ | ⟨r, c, v, rfl⟩
  · exact { h with }
  · exact inv_respond r (inv_command (inv_popHost h) hu)
  · exact inv_respond r (inv_csrStore c v (inv_popHost h))

/-! ### Reset -/

/-- The registry after reset, entry by entry (R35). -/
theorem regEntry_resetWith (p : ResetParams) (c : Byte) :
    regEntry (State.resetWith p) c
      = if c = 0x05 then { kind := .builtinPing, hid := 0 } else { kind := .absent, hid := 0 } := by
  have hc : 5 = c.toNat ↔ c = 0x05 := by
    rw [← BitVec.toNat_inj, eq_comm]
    rfl
  simp [regEntry, State.resetWith, State.resetRegs, Vector.getElem_set, hc]

/-- After reset the engine is stopped and nothing is pending (R270). -/
theorem inv_resetWith {p : ResetParams} (hp : p.station ≠ 0) : (State.resetWith p).Inv where
  station_ne_zero := hp
  pending_iff_dispatchExt := by simp [State.resetWith]
  pong_in_dispatchPing := nofun
  fatal_iff_state := by simp [State.resetWith]
  fatal_clears := nofun
  cancel_running := nofun
  buf_bounded := Nat.zero_le _
  over_full := nofun
  last_byte := fun _ hne => absurd rfl hne
  cont_pending := nofun
  cont_new := nofun
  hid_zero := by
    intro c _
    rw [regEntry_resetWith]
    split <;> rfl
  msg_fields := nofun

/-- A reset turn with the strap at 0 is refused; any other resets the block (R10, R270). -/
theorem runTurn_reset {p : ResetParams} {s t : State} (ht : runTurn (.reset p) s = .next t) :
    p.station ≠ 0 ∧ t = resetBlock p s := by
  simp only [runTurn] at ht
  split at ht
  · cases ht
  · next hp =>
    cases ht
    exact ⟨hp, rfl⟩

/-- A reset turn differs from State.resetWith in the environment only (R270). -/
theorem inv_resetBlock {p : ResetParams} (s : State) (hp : p.station ≠ 0) : (resetBlock p s).Inv :=
  { inv_resetWith hp with }

/-! ### A step -/

theorem inv_runTurn {turn : Turn} {s t : State} (h : s.Inv) (ht : runTurn turn s = .next t) : t.Inv := by
  cases turn with
  | host => exact inv_hostTurn h ht
  | receive => exact inv_receiveTurn h ht
  | transmit first => cases ht; exact inv_transmitTurn first h
  | reset p =>
    obtain ⟨hp, rfl⟩ := runTurn_reset ht
    exact inv_resetBlock s hp

/-- Settles O54: the turns of R16 keep the invariant one by one. -/
theorem stepKeepsInvariant : Obligations.StepKeepsInvariant := by
  unfold Obligations.StepKeepsInvariant
  intro s t h ht
  obtain ⟨u, hu, rfl⟩ := step_next ht
  exact inv_endStep (inv_runTurn (inv_beginStep h) hu)

/-- The strap of State.reset is in 1..255 (R10). -/
theorem pStation_ne_zero : Config.pStation ≠ 0 := by
  intro h
  have hlt := Config.stationLessOne.isLt
  have hn : (Config.stationLessOne.val + 1) % 256 = 0 := by
    simpa [Config.pStation] using congrArg BitVec.toNat h
  omega

/-- After reset the error trace is empty, and so are its registers (R270). -/
theorem errInv_resetWith (p : ResetParams) : (State.resetWith p).ErrInv := ⟨rfl, rfl⟩

/-- Settles O53: the strap is not 0, neither as a parameter nor in State.reset. -/
theorem resetMeetsInvariant : Obligations.ResetMeetsInvariant := by
  unfold Obligations.ResetMeetsInvariant
  exact ⟨fun _ hp => inv_resetWith hp, inv_resetWith pStation_ne_zero, errInv_resetWith _⟩

end Sys2Proof.Machine

namespace Sys2Proof.Machine

/-! ### What no turn but a reset does to the station, the host frame, the traces and the error channel -/

/-- The error channel is as it was, or one error is reported (R236). -/
def ErrorChannelStep (s t : State) : Prop :=
  (t.errPulse = s.errPulse ∧ t.errTrace = s.errTrace ∧ t.errLast = s.errLast ∧ t.errCount = s.errCount) ∨
  ∃ e, t.errPulse = some e ∧ t.errTrace = s.errTrace ++ [e] ∧ t.errLast = e ∧ t.errCount = s.errCount + 1

/-- What the turns of the three agents have in common: R23, R44, R49, R236. -/
structure TurnFrame (s t : State) : Prop where
  station : t.station = s.station
  host_frame : s.hostTxPend = true →
    t.txLen = s.txLen ∧ t.txBuf = s.txBuf ∧ t.hostTxDest = s.hostTxDest ∧ t.hostTxCmd = s.hostTxCmd
  tx_trace : s.txTrace <+: t.txTrace
  dispatch_trace : s.dispatchTrace <+: t.dispatchTrace
  dispatch_at_most_one : t.dispatchTrace.length ≤ s.dispatchTrace.length + 1
  errors : ErrorChannelStep s t

theorem TurnFrame.refl (s : State) : TurnFrame s s where
  station := rfl
  host_frame := fun _ => ⟨rfl, rfl, rfl, rfl⟩
  tx_trace := List.prefix_rfl
  dispatch_trace := List.prefix_rfl
  dispatch_at_most_one := Nat.le_succ _
  errors := .inl ⟨rfl, rfl, rfl, rfl⟩

/-- LoopTop touches none of these fields. -/
theorem TurnFrame.loopTop {s t : State} (f : TurnFrame s t) : TurnFrame s (loopTop t) := by
  unfold Machine.loopTop
  split
  · exact { f with }
  · exact { f with }

theorem turnFrame_reportError (e : FlowError) (s : State) : TurnFrame s (reportError e s) :=
  { TurnFrame.refl s with errors := .inr ⟨e, rfl, rfl, rfl, rfl⟩ }

theorem turnFrame_dispatchExternal (m : Message) (hid : Byte) (s : State) : TurnFrame s (dispatchExternal m hid s) :=
  { TurnFrame.refl s with
    dispatch_trace := List.prefix_append _ _
    dispatch_at_most_one := by simp }

theorem turnFrame_read {s t : State} (h : ReadUpdate s t) : TurnFrame s t := by
  rcases h with rfl | ⟨e, rfl⟩ | rfl | ⟨m, hid, rfl⟩ | ⟨m, rfl⟩ | ⟨e, rfl⟩
  · exact .refl _
  · exact (turnFrame_reportError e s).loopTop
  · exact (TurnFrame.refl s).loopTop
  · exact turnFrame_dispatchExternal m hid s
  · exact { TurnFrame.refl s with }
  · exact { TurnFrame.refl s with }

/-- A byte appended before the end of the read is in none of these fields. -/
theorem turnFrame_receiveTurn {s t : State} (h : receiveTurn s = .next t) : TurnFrame s t := by
  rcases receiveTurn_update h with rfl | ⟨rfl, -⟩ | ⟨-, rfl | hu | ⟨b, n, hu⟩⟩
  · exact .refl _
  · exact (TurnFrame.refl s).loopTop
  · exact { TurnFrame.refl s with }
  · exact { turnFrame_read hu with }
  · exact { turnFrame_read hu with }

theorem turnFrame_transmitTurn (first : TxSource) (s : State) : TurnFrame s (transmitTurn first s) := by
  rcases transmitTurn_cases first s with ⟨-, e⟩ | ⟨src, -, -, -, -, ⟨-, e⟩ | ⟨-, e⟩⟩ <;> rw [e]
  · exact .refl s
  · cases src with
    | host => exact { TurnFrame.refl s with tx_trace := List.prefix_append _ _ }
    | pong => exact { TurnFrame.refl s with tx_trace := List.prefix_append _ _ }
  · exact { TurnFrame.refl s with tx_trace := List.prefix_append _ _ }

theorem turnFrame_command {i : Instr} {s t : State} (h : CommandUpdate i s t) : TurnFrame s t := by
  rcases h with ⟨r, rfl⟩ | ⟨rfl, -⟩ | ⟨rfl, -⟩ | ⟨c, -, -, e, -, rfl, -⟩ | ⟨c, d, rfl, hp, -⟩ | ⟨rfl, -⟩
  · exact { TurnFrame.refl s with }
  · exact { (TurnFrame.refl s).loopTop with }
  · exact { TurnFrame.refl s with }
  · exact { TurnFrame.refl s with }
  · exact { TurnFrame.refl s with host_frame := by simp [hp] }
  · have done : TurnFrame s { s with msgPending := false } := { TurnFrame.refl s with }
    exact { done.loopTop with }

theorem turnFrame_hostTurn {s t : State} (h : hostTurn s = .next t) : TurnFrame s t := by
  rcases hostTurn_update h with ⟨r, p, rfl⟩ | ⟨r, w, u, -, hu, rfl⟩ | ⟨r, c, v, rfl⟩
  · exact { TurnFrame.refl s with }
  · exact { turnFrame_command hu with }
  · obtain ⟨a, l, b, e, hkeep⟩ := csrStore_update c v (popHost s)
    rw [e]
    exact { TurnFrame.refl s with host_frame := fun hp => ⟨(hkeep hp).1, (hkeep hp).2, rfl, rfl⟩ }

/-- A turn that is no reset, in the form `step_running` asks for. -/
theorem running_not_reset {s : State} (hr : (nextTurn s).running = true) (p : ResetParams) : nextTurn s ≠ .reset p := by
  intro h
  rw [h] at hr
  cases hr

/-- Every step but a reset, from the state with the old error pulse ended (R48). -/
theorem turnFrame_step {s t : State} (hr : (nextTurn s).running = true) (h : step s = .next t) :
    TurnFrame (beginStep s) t := by
  cases step_running (running_not_reset hr) h with
  | host _ run => exact { turnFrame_hostTurn run with }
  | receive _ run => exact { turnFrame_receiveTurn run with }
  | transmit first _ => exact { turnFrame_transmitTurn first (beginStep s) with }

/-- Settles O56: no agent's turn writes STATION. -/
theorem stationChangesOnlyAtReset : Obligations.StationChangesOnlyAtReset := by
  unfold Obligations.StationChangesOnlyAtReset
  intro s t hr h
  exact (turnFrame_step hr h).station

/-- Settles O40: the frame of the host's request is made of the station and of fields that a pending request freezes. -/
theorem pendingHostFrameIsFrozen : Obligations.PendingHostFrameIsFrozen := by
  unfold Obligations.PendingHostFrameIsFrozen
  intro s t hp hr h
  have f := turnFrame_step hr h
  have hst : t.station = s.station := f.station
  have hframe : t.txLen = s.txLen ∧ t.txBuf = s.txBuf ∧ t.hostTxDest = s.hostTxDest ∧ t.hostTxCmd = s.hostTxCmd :=
    f.host_frame hp
  obtain ⟨hlen, hbuf, hdest, hcmd⟩ := hframe
  exact ⟨by simp only [frameOf, hostPayload, hst, hlen, hbuf, hdest, hcmd], hlen, hbuf⟩

/-- Settles O58: each trace grows at its end, and the error channel reports at most once. -/
theorem tracesAreOnlyAppended : Obligations.TracesAreOnlyAppended := by
  unfold Obligations.TracesAreOnlyAppended
  intro s t hr h
  have f := turnFrame_step hr h
  rcases f.errors with ⟨hpulse, htrace, -⟩ | ⟨e, hpulse, htrace, -⟩
  · exact ⟨f.tx_trace, htrace ▸ List.prefix_rfl, f.dispatch_trace, .inl ⟨hpulse, htrace⟩, f.dispatch_at_most_one⟩
  · exact ⟨f.tx_trace, htrace ▸ List.prefix_append _ _, f.dispatch_trace, .inr ⟨e, hpulse, htrace⟩,
      f.dispatch_at_most_one⟩

/-! ### The account of the error trace -/

/-- A report counts the entry it appends (R236). -/
theorem errInv_of_channel {s t : State} (h : s.ErrInv) (hc : ErrorChannelStep s t) : t.ErrInv := by
  have hcount := h.count_is_length
  rcases hc with ⟨-, htrace, hlast, hcnt⟩ | ⟨e, -, htrace, hlast, hcnt⟩
  · exact ⟨by rw [hcnt, htrace, hcount], by rw [hlast, htrace]; exact h.last_is_last⟩
  · refine ⟨?_, by simp [hlast, htrace]⟩
    rw [hcnt, htrace, hcount, List.length_append, BitVec.ofNat_add]
    rfl

/-- Settles O55: a reset empties the trace and both registers, and every other turn moves them together. -/
theorem errorRegistersFollowTheTrace : Obligations.ErrorRegistersFollowTheTrace := by
  unfold Obligations.ErrorRegistersFollowTheTrace
  intro s t h ht
  by_cases hr : (nextTurn s).running = true
  · have hbegin : (beginStep s).ErrInv := { h with }
    exact errInv_of_channel hbegin (turnFrame_step hr ht).errors
  · obtain ⟨u, hu, rfl⟩ := step_next ht
    cases hturn : nextTurn s with
    | reset p =>
      rw [hturn] at hu
      obtain ⟨-, rfl⟩ := runTurn_reset hu
      exact { errInv_resetWith p with }
    | _ => simp [hturn, Turn.running] at hr

/-! ### The registry -/

/-- No end of a read writes the registry: a dispatch looks its entry up (R174). -/
theorem regs_read {s t : State} (h : ReadUpdate s t) : t.regs = s.regs := by
  rcases h with rfl | ⟨e, rfl⟩ | rfl | ⟨m, hid, rfl⟩ | ⟨m, rfl⟩ | ⟨e, rfl⟩
  · rfl
  · exact loopTop_regs (reportError e s)
  · exact loopTop_regs s
  · rfl
  · rfl
  · rfl

/-- The receive engine reads the registry only. -/
theorem regs_receiveTurn {s t : State} (h : receiveTurn s = .next t) : t.regs = s.regs := by
  rcases receiveTurn_update h with rfl | ⟨rfl, -⟩ | ⟨-, rfl | hu | ⟨b, n, hu⟩⟩
  · rfl
  · exact loopTop_regs s
  · rfl
  · exact (regs_read hu :)
  · exact (regs_read hu :)

theorem regs_transmitTurn (first : TxSource) (s : State) : (transmitTurn first s).regs = s.regs := by
  rcases transmitTurn_cases first s with ⟨-, e⟩ | ⟨src, -, -, -, -, ⟨-, e⟩ | ⟨-, e⟩⟩ <;> rw [e]
  · cases src <;> rfl
  · rfl

/-- A step but a reset leaves the registry, or is a REGISTER that sets one entry (R36, R182). -/
theorem regs_step {s t : State} (hr : (nextTurn s).running = true) (h : step s = .next t) :
    t.regs = s.regs ∨ ∃ w c b k e, nextTurn s = .host ∧ nextHost s = .access (.write 0x004 .w32 w) ∧
      decodeCommand w = .register c b k ∧ e.kind ≠ .absent ∧ t.regs = (setRegEntry c e s).regs := by
  cases step_running (running_not_reset hr) h with
  | receive _ run => exact .inl (regs_receiveTurn run :)
  | transmit first _ => exact .inl (regs_transmitTurn first (beginStep s))
  | host hturn run =>
    rcases hostTurn_update run with ⟨r, p, rfl⟩ | ⟨r, w, u, haccess, hu, rfl⟩ | ⟨r, c, v, rfl⟩
    · exact .inl rfl
    · rcases hu with ⟨_, rfl⟩ | ⟨rfl, -⟩ | ⟨rfl, -⟩ | ⟨c, b, k, e, hi, rfl, he, -⟩ | ⟨_, _, rfl, -⟩ | ⟨rfl, -⟩
      · exact .inl rfl
      · exact .inl (loopTop_regs _)
      · exact .inl rfl
      · exact .inr ⟨w, c, b, k, e, hturn, haccess, hi, he, rfl⟩
      · exact .inl rfl
      · exact .inl (loopTop_regs _)
    · exact .inl (csrStore_regs c v _)

/-- Settles O57: the one write of the registry sets the entry of its own code, and never to ABSENT. -/
theorem registryEntriesPersist : Obligations.RegistryEntriesPersist := by
  unfold Obligations.RegistryEntriesPersist
  refine ⟨fun s t c hr h hset => ?_, fun s t c hr h hchange => ?_⟩
  · rcases regs_step hr h with hkeep | ⟨-, d, -, -, e, -, -, -, he, hregs⟩
    · rwa [regEntry_congr hkeep]
    · rw [regEntry_congr hregs]
      by_cases hd : c = d
      · subst hd
        rwa [regEntry_setRegEntry_same]
      · rwa [regEntry_setRegEntry_other hd]
  · rcases regs_step hr h with hkeep | ⟨w, d, b, k, e, hturn, haccess, hi, -, hregs⟩
    · exact absurd (regEntry_congr hkeep c) hchange
    · rw [regEntry_congr hregs] at hchange
      have hd : c = d := by
        by_contra hd
        exact hchange (regEntry_setRegEntry_other hd e s)
      subst hd
      exact ⟨w, b, k, hturn, haccess, hi⟩

end Sys2Proof.Machine

namespace Sys2Proof.Machine

/-! ### Fields of register words (R25, R35, R70) -/

/-- Byte j of a packed word is the j-th byte packed (R70). -/
theorem wordByte_packWord (b0 b1 b2 b3 : Byte) :
    wordByte (packWord b0 b1 b2 b3) 0 = b0 ∧ wordByte (packWord b0 b1 b2 b3) 1 = b1 ∧
    wordByte (packWord b0 b1 b2 b3) 2 = b2 ∧ wordByte (packWord b0 b1 b2 b3) 3 = b3 := by
  simp only [wordByte, packWord, BitVec.extractLsb'_append_eq_ite]
  simp

/-- A word is the packing of its own bytes (R70). -/
theorem packWord_wordByte (v : Word) : packWord (wordByte v 0) (wordByte v 1) (wordByte v 2) (wordByte v 3) = v := by
  simp only [packWord, wordByte, BitVec.extractLsb'_append_extractLsb'_eq_extractLsb']
  simp

/-- The flags of STATUS, bit by bit (R25). -/
theorem statusWord_flags (s : State) :
    (statusWord s).getLsbD 0 = rxRunning s.rxState ∧ (statusWord s).getLsbD 1 = s.cancelReq ∧
    (statusWord s).getLsbD 2 = s.msgPending ∧ (statusWord s).getLsbD 3 = s.hostTxPend ∧
    (statusWord s).getLsbD 4 = s.pongReq ∧ (statusWord s).getLsbD 5 = s.fatal := by
  simp only [statusWord, BitVec.getLsbD_append]
  simp

/-- RX_STATE and the reserved zeros of STATUS (R25). -/
theorem statusWord_fields (s : State) :
    (statusWord s).extractLsb' 6 2 = 0 ∧ (statusWord s).extractLsb' 8 3 = rxStateCode s.rxState ∧
    (statusWord s).extractLsb' 11 21 = 0 := by
  simp only [statusWord, BitVec.extractLsb'_append_eq_ite]
  simp

/-- After reset no flag is up and RX_STATE is STOPPED's code (R270). -/
theorem statusWord_resetWith (p : ResetParams) : statusWord (State.resetWith p) = 0 := by
  simp [statusWord, State.resetWith, rxStateCode, rxRunning]

/-- A registry entry's word, from bit 31 down (R35). -/
theorem csrValue_reg (c : Byte) (s : State) :
    csrValue (.reg c) s = (0 : BitVec 22) ++ (regKindCode (regEntry s c).kind ++ (regEntry s c).hid) :=
  BitVec.setWidth_eq_append (by omega)

theorem csrValue_reg_fields (c : Byte) (s : State) :
    (csrValue (.reg c) s).extractLsb' 0 8 = (regEntry s c).hid ∧
    (csrValue (.reg c) s).extractLsb' 8 2 = regKindCode (regEntry s c).kind ∧
    (csrValue (.reg c) s).extractLsb' 10 22 = 0 := by
  simp only [csrValue_reg, BitVec.extractLsb'_append_eq_ite]
  simp

theorem rxRunning_iff (x : RxState) :
    rxRunning x = true ↔ x = .readFirst ∨ x = .readCont ∨ x = .dispatchExt ∨ x = .dispatchPing := by
  cases x <;> simp [rxRunning]

theorem rxReading_iff (x : RxState) : rxReading x = true ↔ x = .readFirst ∨ x = .readCont := by
  cases x <;> simp [rxReading]

/-- The codes of R37, as a chain of tests. -/
theorem rxStateCode_eq_ite (x : RxState) :
    rxStateCode x = if x = .stopped then 0 else if x = .readFirst then 1 else if x = .readCont then 2
      else if x = .dispatchExt then 3 else if x = .dispatchPing then 4 else 5 := by
  cases x <;> rfl

/-- Settles O41: STATUS by its flags and fields, the outputs by their definitions. -/
theorem statusBits : Obligations.StatusBits := by
  unfold Obligations.StatusBits
  intro s
  obtain ⟨hrun, hcancel, hmsg, htx, hpong, hfatal⟩ := statusWord_flags s
  obtain ⟨hzero, hcode, htop⟩ := statusWord_fields s
  refine ⟨?_, hcancel, hmsg, htx, hpong, hfatal, hzero, hcode.trans (rxStateCode_eq_ite _), htop, rfl, rfl,
    rxReading_iff _, fun e he => ?_, fun he => ?_, statusWord_resetWith⟩
  · rw [show csrValue .status s = statusWord s from rfl, hrun]
    exact rxRunning_iff _
  · simp [errValidO, errCodeO, he]
  · simp [errValidO, he]

/-! ### Host accesses -/

/-- A read records the register's value and nothing else (R60, log 13). -/
theorem hostAccess_read_of_csr {addr : CsrAddr} {width : AccessWidth} {r : Csr} (s : State)
    (h : csrOfAccess addr width = some r) :
    hostAccess (.read addr width) s = .next (respond (.read (csrValue r s) true) s) := by
  simp [hostAccess, csrRead, h]

/-- A write to a register other than CMD is its store, with response ok (R61, R66). -/
theorem hostAccess_write_of_csr {addr : CsrAddr} {width : AccessWidth} {r : Csr} (v : Word) (s : State)
    (h : csrOfAccess addr width = some r) (hr : r ≠ .cmd) :
    hostAccess (.write addr width v) s = .next (respond (.write true) (csrStore r v s)) := by
  cases r with
  | cmd => exact absurd rfl hr
  | _ => simp [hostAccess, h]

/-- A write to CMD performs its command, with response ok (R66, R179). -/
theorem hostAccess_write_cmd {v : Word} {s t : State} (h : exec (decodeCommand v) s = .next t) :
    hostAccess (.write 0x004 .w32 v) s = .next (respond (.write true) t) := by
  have hcsr : csrOfAccess 0x004 .w32 = some .cmd := by decide
  simp only [hostAccess, hcsr, h, afterNext_next]

/-- TIMEOUT, TX_LEN and TX_BUF are the only registers with a store of their own (R65, R66). -/
theorem csrStore_readOnly {r : Csr} (v : Word) (s : State) (ht : r ≠ .timeout) (hl : r ≠ .txLen)
    (hb : ∀ k, r ≠ .txBuf k) : csrStore r v s = s := by
  cases r with
  | timeout => exact absurd rfl ht
  | txLen => exact absurd rfl hl
  | txBuf k => exact absurd rfl (hb k)
  | _ => rfl

/-- Settles O43: a read only appends its response, and only three registers other than CMD have a store. -/
theorem readsAndReadOnlyWritesHaveNoEffect : Obligations.ReadsAndReadOnlyWritesHaveNoEffect := by
  unfold Obligations.ReadsAndReadOnlyWritesHaveNoEffect
  intro addr r v s h
  have hresult : csrValue .cmdResult s = (cmdResultCode s.cmdResult).setWidth 32 := rfl
  refine ⟨hostAccess_read_of_csr s h, fun hcmd ht hl hb => ?_, rfl, rfl, rfl, rfl, rfl, rfl,
    fun hc => ?_, fun hc => ?_, fun hc => ?_, fun hc => ?_⟩
  · rw [hostAccess_write_of_csr v s h hcmd, csrStore_readOnly v s ht hl hb]
    rfl
  · rw [hresult, hc]; rfl
  · rw [hresult, hc]; rfl
  · rw [hresult, hc]; rfl
  · rw [hresult, hc]; rfl

/-- A pending host frame freezes TX_LEN (R28). -/
theorem csrStore_txLen_pending {s : State} (v : Word) (hp : s.hostTxPend = true) : csrStore .txLen v s = s :=
  if_pos hp

theorem csrStore_txLen_free {s : State} (v : Word) (hp : s.hostTxPend = false) :
    csrStore .txLen v s = { s with txLen := wordByte v 0 } :=
  if_neg (by simp [hp])

/-- Settles O44: the three offsets name CMD, TIMEOUT and TX_LEN, whose writes are their store or their command. -/
theorem registerWritesStore : Obligations.RegisterWritesStore := by
  unfold Obligations.RegisterWritesStore
  intro v s
  have htimeout : csrOfAccess 0x010 .w32 = some .timeout := by decide
  have htxLen : csrOfAccess 0x014 .w32 = some .txLen := by decide
  refine ⟨hostAccess_write_of_csr v s htimeout nofun, fun hp => ?_, fun hp => ?_, fun t h => hostAccess_write_cmd h⟩
  · rw [hostAccess_write_of_csr v s htxLen nofun, csrStore_txLen_free v hp]
    rfl
  · rw [hostAccess_write_of_csr v s htxLen nofun, csrStore_txLen_pending v hp]
    rfl

/-! ### TX_BUF -/

/-- The address of word k of TX_BUF (R63). -/
theorem csrOfAccess_txBuf (k : BitVec 6) : csrOfAccess (0x100 + k.setWidth 12 <<< 2) .w32 = some (.txBuf k) := by
  have hk := k.isLt
  have haddr : (0x100 + k.setWidth 12 <<< 2 : CsrAddr).toNat = 256 + 4 * k.toNat := by
    simp [Nat.shiftLeft_eq]
    omega
  have hword : (0x100 + k.setWidth 12 <<< 2 : CsrAddr).extractLsb' 2 6 = k := by
    apply BitVec.eq_of_toNat_eq
    rw [BitVec.extractLsb'_toNat, haddr, Nat.shiftRight_eq_div_pow]
    omega
  simp only [csrOfAccess, csrAt, haddr, hword]
  rw [if_pos (by omega), if_neg (by omega), if_pos (by omega)]

/-- The stored word's bytes, in little-endian order (R33, R70). -/
theorem storeTxWord_same (k : BitVec 6) (v : Word) (buf : Vector Byte 256) (j : Fin 4) :
    (storeTxWord k v buf)[4 * k.toNat + j.val]'(bufIndex_lt k j) = wordByte v j.val := by
  fin_cases j <;> simp [storeTxWord]

/-- Every other word of the buffer is as it was. -/
theorem storeTxWord_other {k k' : BitVec 6} (hk : k' ≠ k) (v : Word) (buf : Vector Byte 256) (j : Fin 4) :
    (storeTxWord k v buf)[4 * k'.toNat + j.val]'(bufIndex_lt k' j)
      = buf[4 * k'.toNat + j.val]'(bufIndex_lt k' j) := by
  have hne : k'.toNat ≠ k.toNat := fun h => hk (BitVec.eq_of_toNat_eq h)
  have hj := j.isLt
  unfold storeTxWord
  iterate 4 rw [Vector.getElem_set_ne _ _ (by omega)]

theorem csrStore_txBuf_pending {s : State} (k : BitVec 6) (v : Word) (hp : s.hostTxPend = true) :
    csrStore (.txBuf k) v s = s :=
  if_pos hp

theorem csrStore_txBuf_free {s : State} (k : BitVec 6) (v : Word) (hp : s.hostTxPend = false) :
    csrStore (.txBuf k) v s = { s with txBuf := storeTxWord k v s.txBuf } :=
  if_neg (by simp [hp])

/-- Settles O45: the store byte by byte, in the stored word and in every other. -/
theorem txBufStoresLittleEndianWords : Obligations.TxBufStoresLittleEndianWords := by
  unfold Obligations.TxBufStoresLittleEndianWords
  intro k v s
  refine ⟨fun hp => ?_, fun hp => csrStore_txBuf_pending k v hp, ?_⟩
  · rw [csrStore_txBuf_free k v hp]
    have hsame : ∀ j : Fin 4, txByte { s with txBuf := storeTxWord k v s.txBuf } k j = wordByte v j.val :=
      storeTxWord_same k v s.txBuf
    have hother : ∀ k', k' ≠ k → ∀ j : Fin 4, txByte { s with txBuf := storeTxWord k v s.txBuf } k' j
        = txByte s k' j := fun k' hk => storeTxWord_other hk v s.txBuf
    refine ⟨?_, hsame, fun k' hk => ?_, rfl⟩
    · simp only [csrValue, hsame]
      exact packWord_wordByte v
    · simp only [csrValue, hother k' hk]
  · rw [hostAccess_write_of_csr v s (csrOfAccess_txBuf k) nofun, respond, csrStore_responses]

/-! ### The message registers -/

/-- A byte of MSG_BUF, with the test of R34 as a proposition. -/
theorem msgByte_eq_ite (s : State) (i : Nat) :
    msgByte s i = if s.msgPending = true ∧ i < s.msg.length.toNat then byteAt s.msg.payload i else 0 := by
  simp [msgByte]

/-- Settles O46: MSG_INFO and MSG_BUF are packed words, read byte by byte. -/
theorem messageRegisters : Obligations.MessageRegisters := by
  unfold Obligations.MessageRegisters
  intro s
  refine ⟨fun hm => ?_, fun hm => ?_, fun k j hj => ?_⟩
  · have hinfo : csrValue .msgInfo s = packWord s.msg.dest s.msg.orig s.msg.cmd s.msg.length := if_pos hm
    obtain ⟨hdest, horig, hcmd, hlength⟩ := wordByte_packWord s.msg.dest s.msg.orig s.msg.cmd s.msg.length
    rw [hinfo]
    exact ⟨hdest, horig, hcmd, hlength, if_pos hm⟩
  · have hn : ¬ s.msgPending = true := by simp [hm]
    exact ⟨if_neg hn, if_neg hn⟩
  · rw [← msgByte_eq_ite]
    obtain ⟨h0, h1, h2, h3⟩ := wordByte_packWord (msgByte s (4 * k.toNat)) (msgByte s (4 * k.toNat + 1))
      (msgByte s (4 * k.toNat + 2)) (msgByte s (4 * k.toNat + 3))
    interval_cases j
    · exact h0
    · exact h1
    · exact h2
    · exact h3

/-! ### The registry's words -/

/-- Settles O47: the fields of an entry's word, the invariant's clause for handler ids, and the reset registry. -/
theorem registryEntryWord : Obligations.RegistryEntryWord := by
  unfold Obligations.RegistryEntryWord
  refine ⟨fun c s => ?_, fun p => ⟨?_, fun c hc => ?_⟩⟩
  · obtain ⟨hhid, hkind, htop⟩ := csrValue_reg_fields c s
    refine ⟨hhid, fun hk => ?_, fun hk => ?_, fun hk => ?_, fun hinv hk => ?_, htop⟩
    · rw [hkind, hk]; rfl
    · rw [hkind, hk]; rfl
    · rw [hkind, hk]; rfl
    · rw [hhid, hinv.hid_zero c hk]
  · rw [csrValue, regEntry_resetWith, if_pos rfl]
    rfl
  · rw [csrValue, regEntry_resetWith, if_neg hc]
    rfl

end Sys2Proof.Machine

namespace Sys2Proof.Machine

/-! ### The register map (R62 to R64) -/

/-- The address of word k of a block of word registers. -/
theorem blockAddr_toNat {n : Nat} (hn : n ≤ 8) {base : CsrAddr} (hbase : base.toNat ≤ 0x400) (k : BitVec n) :
    (base + k.setWidth 12 <<< 2).toNat = base.toNat + 4 * k.toNat := by
  have hk : k.toNat < 256 := k.isLt.trans_le (Nat.pow_le_pow_right (by decide) hn)
  simp [Nat.shiftLeft_eq]
  omega

/-- In a block aligned to its size, the word's index is a field of its address. -/
theorem blockAddr_index {n : Nat} (hn : n ≤ 8) {base : CsrAddr} (hbase : base.toNat ≤ 0x400)
    (halign : 4 * 2 ^ n ∣ base.toNat) (k : BitVec n) : (base + k.setWidth 12 <<< 2).extractLsb' 2 n = k := by
  obtain ⟨m, hm⟩ := halign
  have hword : base.toNat + 4 * k.toNat = 4 * (2 ^ n * m + k.toNat) := by rw [hm]; ring
  apply BitVec.eq_of_toNat_eq
  rw [BitVec.extractLsb'_toNat, blockAddr_toNat hn hbase k, hword, Nat.shiftRight_eq_div_pow,
    Nat.mul_div_cancel_left _ (by decide), Nat.mul_add_mod, Nat.mod_eq_of_lt k.isLt]

/-- The address of word k of MSG_BUF (R63). -/
theorem csrOfAccess_msgBuf (k : BitVec 6) : csrOfAccess (0x200 + k.setWidth 12 <<< 2) .w32 = some (.msgBuf k) := by
  have hk := k.isLt
  have haddr : (0x200 + k.setWidth 12 <<< 2 : CsrAddr).toNat = 512 + 4 * k.toNat :=
    blockAddr_toNat (by decide) (by decide) k
  have hindex : (0x200 + k.setWidth 12 <<< 2 : CsrAddr).extractLsb' 2 6 = k :=
    blockAddr_index (by decide) (by decide) (by decide) k
  simp only [csrOfAccess, csrAt, haddr, hindex]
  rw [if_pos (by omega), if_neg (by omega), if_neg (by omega), if_pos (by omega)]

/-- The address of the registry entry of command code c (R63). -/
theorem csrOfAccess_reg (c : Byte) : csrOfAccess (0x400 + c.setWidth 12 <<< 2) .w32 = some (.reg c) := by
  have hc := c.isLt
  have haddr : (0x400 + c.setWidth 12 <<< 2 : CsrAddr).toNat = 1024 + 4 * c.toNat :=
    blockAddr_toNat (by decide) (by decide) c
  have hindex : (0x400 + c.setWidth 12 <<< 2 : CsrAddr).extractLsb' 2 8 = c :=
    blockAddr_index (by decide) (by decide) (by decide) c
  simp only [csrOfAccess, csrAt, haddr, hindex]
  rw [if_pos (by omega), if_neg (by omega), if_neg (by omega), if_neg (by omega), if_neg (by omega),
    if_pos (by omega)]

/-- The single registers fill the aligned offsets below 0x028 (R63). -/
theorem csrSingle_eq_none_iff {n : Nat} (halign : n % 4 = 0) : csrSingle n = none ↔ 0x028 ≤ n := by
  constructor
  · intro hnone
    by_contra hlow
    obtain ⟨m, rfl⟩ := Nat.dvd_of_mod_eq_zero halign
    have hm : m < 10 := by omega
    interval_cases m <;> cases hnone
  · intro hhigh
    unfold csrSingle
    split
    case h_11 => rfl
    all_goals omega

/-- The three unmapped ranges (R64). -/
theorem csrAt_eq_none_iff {addr : CsrAddr} (halign : addr.toNat % 4 = 0) :
    csrAt addr = none ↔ (0x028 ≤ addr.toNat ∧ addr.toNat < 0x100) ∨
      (0x300 ≤ addr.toNat ∧ addr.toNat < 0x400) ∨ 0x800 ≤ addr.toNat := by
  have hsingle := csrSingle_eq_none_iff halign
  unfold csrAt
  split_ifs
  · rw [hsingle]; omega
  all_goals
    simp
    omega

/-- The bus errors: another width, an unaligned address or an unmapped one (R62, R64). -/
theorem csrOfAccess_eq_none_iff (addr : CsrAddr) (width : AccessWidth) :
    csrOfAccess addr width = none ↔ width ≠ .w32 ∨ addr.toNat % 4 ≠ 0 ∨
      (0x028 ≤ addr.toNat ∧ addr.toNat < 0x100) ∨ (0x300 ≤ addr.toNat ∧ addr.toNat < 0x400) ∨
      0x800 ≤ addr.toNat := by
  cases width with
  | w8 => simp [csrOfAccess]
  | w16 => simp [csrOfAccess]
  | w32 =>
    by_cases halign : addr.toNat % 4 = 0
    · simp [csrOfAccess, halign, csrAt_eq_none_iff halign]
    · simp [csrOfAccess, halign]

/-- A read's bus error only records its response, with data 0 (R60, R64, log 13). -/
theorem hostAccess_read_busError {addr : CsrAddr} {width : AccessWidth} (s : State)
    (h : csrOfAccess addr width = none) :
    hostAccess (.read addr width) s = .next (respond (.read 0 false) s) := by
  simp [hostAccess, csrRead, h]

/-- A write's bus error only records its response (R61, R64, log 13). -/
theorem hostAccess_write_busError {addr : CsrAddr} {width : AccessWidth} (v : Word) (s : State)
    (h : csrOfAccess addr width = none) :
    hostAccess (.write addr width v) s = .next (respond (.write false) s) := by
  simp [hostAccess, h]

/-- Settles O42: each block's word index read back from its address, the holes between the blocks, and the
response a hole gets. -/
theorem registerMapAndBusErrors : Obligations.RegisterMapAndBusErrors := by
  unfold Obligations.RegisterMapAndBusErrors
  refine ⟨⟨rfl, rfl, rfl, rfl, rfl, rfl, rfl, rfl, rfl, rfl, csrOfAccess_txBuf, csrOfAccess_msgBuf,
    csrOfAccess_reg⟩, fun addr width v s => ⟨csrOfAccess_eq_none_iff addr width, fun hnone => ?_⟩⟩
  exact ⟨hostAccess_read_busError s hnone, hostAccess_write_busError v s hnone⟩

end Sys2Proof.Machine

namespace Sys2Proof

/-! ### The round trip of a frame (R133) -/

/-- A frame for this station or for the broadcast address passes every check of Decode, which reads its operands back
(R133). -/
theorem decode_encode {d st : Byte} (o c : Byte) {p : List Byte} (hp : p.length ≤ 255)
    (hd : Frame.accepts st d = true) : Frame.decode (Frame.encode d o c p) false st = .ok (Message.of d o c p) := by
  have hlen : (BitVec.ofNat 8 p.length).toNat = p.length := by simp; omega
  have hetx : byteAt (Frame.encode d o c p) (6 + p.length) = Frame.etx := byteAt_encode_tail d o c p 0
  have hchk : byteAt (Frame.encode d o c p) (7 + p.length) = checksum d o c (BitVec.ofNat 8 p.length) p := by
    rw [show 7 + p.length = 6 + p.length + 1 by omega, byteAt_encode_tail]
    rfl
  have heot : byteAt (Frame.encode d o c p) (8 + p.length) = Frame.eot := by
    rw [show 8 + p.length = 6 + p.length + 2 by omega, byteAt_encode_tail]
    rfl
  simp [Frame.decode, Message.of, hlen, hd, hetx, hchk, heot, payloadOf_encode, hp]

/-- The frame of a message decodes to the message's class of instruction (R95, R133). -/
theorem decode_frame_encode {d st : Byte} (o c : Byte) {p : List Byte} (hp : payloadFits p = true)
    (hd : Frame.accepts st d = true) :
    decode st (.frame (Frame.encode d o c p)) = .ok (Instr.ofMessage (Message.of d o c p)) := by
  simp only [decode, decode_encode o c (of_decide_eq_true hp) hd]

/-! ### The command of a word, by its OP (R91) -/

theorem decodeCommand_start {w : Word} (h : Cmd.op w = 0x01) : decodeCommand w = .start := by
  simp [decodeCommand, h]

theorem decodeCommand_cancel {w : Word} (h : Cmd.op w = 0x02) : decodeCommand w = .cancel := by
  simp [decodeCommand, h]

theorem decodeCommand_register {w : Word} (h : Cmd.op w = 0x03) :
    decodeCommand w = .register (Cmd.a w) (Cmd.b w) (Cmd.k w) := by
  simp [decodeCommand, h]

theorem decodeCommand_send {w : Word} (h : Cmd.op w = 0x04) : decodeCommand w = .send (Cmd.a w) (Cmd.b w) := by
  simp [decodeCommand, h]

theorem decodeCommand_broadcast {w : Word} (h : Cmd.op w = 0x05) : decodeCommand w = .broadcast (Cmd.a w) := by
  simp [decodeCommand, h]

theorem decodeCommand_msgDone {w : Word} (h : Cmd.op w = 0x06) : decodeCommand w = .msgDone := by
  simp [decodeCommand, h]

theorem decodeCommand_reserved {w : Word} (h : opReserved (Cmd.op w) = true) :
    decodeCommand w = .reservedOp (Cmd.op w) := by
  have hop : (Cmd.op w).toNat = 0 ∨ 7 ≤ (Cmd.op w).toNat := of_decide_eq_true h
  unfold decodeCommand
  split
  case h_7 => rfl
  all_goals omega

/-- Settles O3: a command word's fields select the command and its operands again, and a frame for this station passes
every check of Decode. -/
theorem decodeOfEncodeIsTheInstruction : Obligations.DecodeOfEncodeIsTheInstruction := by
  unfold Obligations.DecodeOfEncodeIsTheInstruction
  intro i st hwf hst
  cases i with
  | start => exact congrArg _ (decodeCommand_start (op_word _ _ _ _))
  | cancel => exact congrArg _ (decodeCommand_cancel (op_word _ _ _ _))
  | register code hid kind => simp [encode, decode, decodeCommand_register]
  | send cmd dest => simp [encode, decode, decodeCommand_send]
  | broadcast cmd => simp [encode, decode, decodeCommand_broadcast]
  | msgDone => exact congrArg _ (decodeCommand_msgDone (op_word _ _ _ _))
  | reservedOp op =>
    have hop : opReserved (Cmd.op (Cmd.word op 0 0 0)) = true := by rw [op_word]; exact hwf
    rw [encode, decode, decodeCommand_reserved hop, op_word]
  | rxPing dest orig payload => exact decode_frame_encode orig Frame.ping hwf hst
  | rxPong dest orig payload => exact decode_frame_encode orig Frame.pong hwf hst
  | rxApp dest orig cmd payload =>
    obtain ⟨hfits, hping, hpong⟩ : payloadFits payload = true ∧ cmd ≠ Frame.ping ∧ cmd ≠ Frame.pong := by
      simpa [Instr.wellFormed, Frame.ping, Frame.pong] using hwf
    have hclass : Instr.ofMessage (Message.of dest orig cmd payload) = .rxApp dest orig cmd payload := by
      simp [Instr.ofMessage, Message.of, hping, hpong]
    exact (decode_frame_encode orig cmd hfits hst).trans (congrArg _ hclass)

/-! ### The bits a command uses (R92) -/

/-- Two words that agree on their low bits agree on every field within them. -/
theorem field_eq_of_low_eq {n lo len : Nat} {w x : Word} (h : w.extractLsb' 0 n = x.extractLsb' 0 n)
    (hfit : lo + len ≤ n) : w.extractLsb' lo len = x.extractLsb' lo len := by
  rw [← BitVec.extractLsb'_extractLsb'_of_le (x := w) hfit, h, BitVec.extractLsb'_extractLsb'_of_le hfit]

/-- Settles O2: OP and the operands of each command lie within the bits that agree. -/
theorem unusedCommandBitsIgnored : Obligations.UnusedCommandBitsIgnored := by
  unfold Obligations.UnusedCommandBitsIgnored
  intro w x
  refine ⟨fun h hop => ?_, fun h hop => ?_, fun h hop => ?_, fun h hop => ?_⟩
  · have hop' : Cmd.op w = Cmd.op x := h
    rcases hop with hop | hop | hop
    · rw [decodeCommand_start hop, decodeCommand_start (hop' ▸ hop)]
    · rw [decodeCommand_cancel hop, decodeCommand_cancel (hop' ▸ hop)]
    · rw [decodeCommand_msgDone hop, decodeCommand_msgDone (hop' ▸ hop)]
  · have hop' : Cmd.op w = Cmd.op x := field_eq_of_low_eq h (by decide)
    have ha : Cmd.a w = Cmd.a x := field_eq_of_low_eq h (by decide)
    have hb : Cmd.b w = Cmd.b x := field_eq_of_low_eq h (by decide)
    rw [decodeCommand_send hop, decodeCommand_send (hop' ▸ hop), ha, hb]
  · have hop' : Cmd.op w = Cmd.op x := field_eq_of_low_eq h (by decide)
    have ha : Cmd.a w = Cmd.a x := field_eq_of_low_eq h (by decide)
    rw [decodeCommand_broadcast hop, decodeCommand_broadcast (hop' ▸ hop), ha]
  · have hop' : Cmd.op w = Cmd.op x := field_eq_of_low_eq h (by decide)
    have ha : Cmd.a w = Cmd.a x := field_eq_of_low_eq h (by decide)
    have hb : Cmd.b w = Cmd.b x := field_eq_of_low_eq h (by decide)
    have hk : Cmd.k w = Cmd.k x := field_eq_of_low_eq h (by decide)
    rw [decodeCommand_register hop, decodeCommand_register (hop' ▸ hop), ha, hb, hk]

/-- Settles O1: the words by their OP, and each frame as the encoding of its instruction. -/
theorem sampleWordsDecode : Obligations.SampleWordsDecode := by
  unfold Obligations.SampleWordsDecode
  refine ⟨decodeCommand_start rfl, decodeCommand_cancel rfl, decodeCommand_register rfl, decodeCommand_register rfl,
    decodeCommand_send rfl, decodeCommand_broadcast rfl, decodeCommand_msgDone rfl, decodeCommand_reserved rfl, ?_⟩
  exact ⟨decodeOfEncodeIsTheInstruction (.rxPing 0x42 0x41 []) 0x42 rfl rfl,
    decodeOfEncodeIsTheInstruction (.rxPong 0x42 0x41 []) 0x42 rfl rfl,
    decodeOfEncodeIsTheInstruction (.rxApp 0x42 0x41 0x48 [0x48, 0x69]) 0x42 rfl rfl⟩

end Sys2Proof

namespace Sys2Proof.Machine

/-! ### A run, step by step -/

/-- A run goes on from the state after its first step. -/
theorem run_succ {M : Host.Core} {s t : M.State} (n : Nat) (h : M.step s = .next t) :
    M.run (n + 1) s = M.run n t := by
  rw [Host.Core.run, h]

/-- A host turn whose next statement is a write to a register other than CMD is that register's store, with the turn
and the statement taken off their lists and the write's response recorded (R16, R61; log 5, log 6, log 13, log 26). -/
theorem step_asmWr {s : State} {off : CsrAddr} {r : Csr} {v : Word} {rest : List HostStmt} {turns : List Turn}
    (hcsr : csrOfAccess off .w32 = some r) (hr : r ≠ .cmd) (hprog : s.hostProgram = asmWr off v :: rest)
    (hsched : s.schedule = .host :: turns) :
    step s = .next (endStep (respond (.write true) (csrStore r v (popHost (beginStep s))))) := by
  have hturn : nextTurn s = .host := by rw [nextTurn, hsched]; rfl
  have hstmt : nextHost (beginStep s) = .access (.write off .w32 v) := by
    rw [nextHost, beginStep_hostProgram, hprog]
    rfl
  apply step_of_turn
  rw [hturn, runTurn, hostTurn, hstmt]
  exact hostAccess_write_of_csr v _ hcsr hr

/-! ### LOADTX (R97) -/

/-- A byte shifted to position m of a word is that byte of it, and the other bytes are 0 (R70). -/
theorem wordByte_byte_shiftLeft (b : Byte) {m : Nat} (hm : m < 4) (j : Nat) :
    wordByte (b.setWidth 32 <<< (8 * m)) j = if j = m then b else 0 := by
  apply BitVec.eq_of_getLsbD_eq
  intro i hi
  simp only [wordByte, BitVec.getLsbD_extractLsb', BitVec.getLsbD_shiftLeft, BitVec.getLsbD_setWidth]
  rcases lt_trichotomy j m with hlt | rfl | hgt
  · simp [hlt.ne, show 8 * j + i < 8 * m by omega]
  · simp [hi, show 8 * j + i < 32 by omega, show i < 32 by omega]
  · simp [hgt.ne', BitVec.getLsbD_of_ge b (8 * j + i - 8 * m) (by omega)]

/-- Byte j of payload word k is byte 4k + j of the payload, 0 past its end (R97). -/
theorem wordByte_asmPayloadWord (bytes : List Byte) (k : Nat) (j : Fin 4) :
    wordByte (asmPayloadWord bytes k) j.val = byteAt bytes (4 * k + j.val) := by
  have hor : ∀ v w : Word, wordByte (v ||| w) j.val = wordByte v j.val ||| wordByte w j.val :=
    fun _ _ => BitVec.extractLsb'_or
  have h0 := wordByte_byte_shiftLeft (bytes.getD (4 * k) 0) (m := 0) (by decide) j.val
  have h1 := wordByte_byte_shiftLeft (bytes.getD (4 * k + 1) 0) (m := 1) (by decide) j.val
  have h2 := wordByte_byte_shiftLeft (bytes.getD (4 * k + 2) 0) (m := 2) (by decide) j.val
  have h3 := wordByte_byte_shiftLeft (bytes.getD (4 * k + 3) 0) (m := 3) (by decide) j.val
  simp only [Nat.mul_zero, BitVec.shiftLeft_zero, Nat.reduceMul] at h0 h1 h2 h3
  rw [asmPayloadWord, hor, hor, hor, h0, h1, h2, h3]
  fin_cases j <;> simp [byteAt]

/-- TX_LEN keeps the low byte of the number written (R28). -/
theorem wordByte_zero_ofNat (n : Nat) : wordByte (BitVec.ofNat 32 n) 0 = BitVec.ofNat 8 n := by
  apply BitVec.eq_of_toNat_eq
  simp [wordByte]

/-- The address LOADTX writes word k to names that word of TX_BUF (R63, R97). -/
theorem csrOfAccess_loadTx {k : Nat} (hk : k < 64) :
    csrOfAccess (0x100 + BitVec.ofNat 12 (4 * k)) .w32 = some (.txBuf (BitVec.ofNat 6 k)) := by
  have haddr : (0x100 + BitVec.ofNat 12 (4 * k) : CsrAddr) = 0x100 + (BitVec.ofNat 6 k).setWidth 12 <<< 2 := by
    apply BitVec.eq_of_toNat_eq
    simp [Nat.shiftLeft_eq]
    omega
  rw [haddr, csrOfAccess_txBuf]

/-- LOADTX's statement for word k. -/
def loadTxStmt (bytes : List Byte) (k : Nat) : HostStmt :=
  asmWr (0x100 + BitVec.ofNat 12 (4 * k)) (asmPayloadWord bytes k)

theorem asmLoadTx_eq (bytes : List Byte) : asmLoadTx bytes =
    asmWr 0x014 (BitVec.ofNat 32 bytes.length) :: (List.range' 0 ((bytes.length + 3) / 4)).map (loadTxStmt bytes) := by
  rw [asmLoadTx, List.range_eq_range']
  rfl

/-- LOADTX under way from s: TX_LEN and the words of TX_BUF below k are written, the host has `stmts` and then the turns
`turns` to come, no host frame is pending, and the loop's state and CMD_RESULT are those of s. -/
structure LoadTxProgress (s : State) (bytes : List Byte) (k : Nat) (stmts : List HostStmt) (turns : List Turn)
    (t : State) : Prop where
  txLen : t.txLen = BitVec.ofNat 8 bytes.length
  stored : ∀ (i : BitVec 6) (j : Fin 4), i.toNat < k → txByte t i j = byteAt bytes (4 * i.toNat + j.val)
  hostProgram : t.hostProgram = stmts
  schedule : t.schedule = turns
  hostTxPend : t.hostTxPend = false
  rxState : t.rxState = s.rxState
  cmdResult : t.cmdResult = s.cmdResult

section
variable {s t : State} {bytes : List Byte} {stmts : List HostStmt} {turns : List Turn}

/-- The write to TX_LEN that LOADTX begins with. -/
theorem loadTxProgress_txLen (hpend : s.hostTxPend = false)
    (hprog : s.hostProgram = asmWr 0x014 (BitVec.ofNat 32 bytes.length) :: stmts)
    (hsched : s.schedule = .host :: turns) :
    ∃ t, step s = .next t ∧ LoadTxProgress s bytes 0 stmts turns t := by
  have hcsr : csrOfAccess 0x014 .w32 = some .txLen := by decide
  have hstep := step_asmWr hcsr nofun hprog hsched
  rw [csrStore_txLen_free (s := popHost (beginStep s)) _ hpend] at hstep
  exact ⟨_, hstep, {
    txLen := wordByte_zero_ofNat _
    stored := fun _ _ h => absurd h (Nat.not_lt_zero _)
    hostProgram := congrArg List.tail hprog
    schedule := congrArg List.tail hsched
    hostTxPend := hpend
    rxState := rfl
    cmdResult := rfl }⟩

/-- The write of word k of the payload. -/
theorem loadTxProgress_word {k : Nat} (hk : k < 64)
    (h : LoadTxProgress s bytes k (loadTxStmt bytes k :: stmts) (.host :: turns) t) :
    ∃ u, step t = .next u ∧ LoadTxProgress s bytes (k + 1) stmts turns u := by
  have hstep := step_asmWr (csrOfAccess_loadTx hk) nofun h.hostProgram h.schedule
  rw [csrStore_txBuf_free (s := popHost (beginStep t)) _ _ h.hostTxPend] at hstep
  refine ⟨_, hstep, {
    txLen := h.txLen
    stored := fun i j hi => ?_
    hostProgram := congrArg List.tail h.hostProgram
    schedule := congrArg List.tail h.schedule
    hostTxPend := h.hostTxPend
    rxState := h.rxState
    cmdResult := h.cmdResult }⟩
  have hkn : (BitVec.ofNat 6 k).toNat = k := by simp; omega
  by_cases hik : i = BitVec.ofNat 6 k
  · subst hik
    refine (storeTxWord_same _ _ _ j).trans ?_
    rw [wordByte_asmPayloadWord, hkn]
  · have hne : i.toNat ≠ k := fun hcon => hik (BitVec.eq_of_toNat_eq (hcon.trans hkn.symm))
    exact (storeTxWord_other hik _ _ j).trans (h.stored i j (by omega))

/-- The writes of n words from word k on, one host turn each. -/
theorem run_loadTxWords {n k : Nat} (hn : k + n ≤ 64)
    (h : LoadTxProgress s bytes k ((List.range' k n).map (loadTxStmt bytes) ++ stmts)
      (List.replicate n .host ++ turns) t) :
    ∃ u, core.run n t = .next u ∧ LoadTxProgress s bytes (k + n) stmts turns u := by
  induction n generalizing k t with
  | zero => exact ⟨t, rfl, h⟩
  | succ n ih =>
    obtain ⟨t', hstep, h'⟩ := loadTxProgress_word (by omega) h
    obtain ⟨u, hrun, hu⟩ := ih (by omega) h'
    rw [Nat.add_right_comm] at hu
    exact ⟨u, (run_succ (M := core) n hstep).trans hrun, hu⟩

/-- Once every word is written, the next host frame's payload is LOADTX's bytes (R33). -/
theorem hostPayload_of_loadTxProgress {k : Nat} (hlen : bytes.length ≤ 255) (hk : bytes.length ≤ 4 * k)
    (h : LoadTxProgress s bytes k stmts turns t) : hostPayload t = bytes := by
  have hl : t.txLen.toNat = bytes.length := by rw [h.txLen]; simp; omega
  refine List.ext_getElem (by simp [hostPayload, hl]; omega) fun i _ hi => ?_
  have hstored := h.stored (BitVec.ofNat 6 (i / 4)) ⟨i % 4, by omega⟩ (by simp; omega)
  have hindex : 4 * (BitVec.ofNat 6 (i / 4)).toNat + i % 4 = i := by simp; omega
  simp only [txByte, hindex] at hstored
  simpa [hostPayload, byteAt, hi] using hstored

end

/-- Settles O48: one host turn for TX_LEN and one for each word, every one a store. -/
theorem loadTxLoadsThePayload : Obligations.LoadTxLoadsThePayload := by
  unfold Obligations.LoadTxLoadsThePayload
  intro s bytes rest turns hlen hpend hprog hsched
  have hcount : (asmLoadTx bytes).length = (bytes.length + 3) / 4 + 1 := by simp [asmLoadTx_eq]
  rw [hcount] at hsched ⊢
  rw [asmLoadTx_eq] at hprog
  obtain ⟨t, hstep, ht⟩ := loadTxProgress_txLen hpend hprog hsched
  obtain ⟨u, hrun, hu⟩ := run_loadTxWords (by omega) ht
  exact ⟨u, (run_succ (M := core) _ hstep).trans hrun, hostPayload_of_loadTxProgress hlen (by omega) hu, hu.txLen,
    hu.hostProgram, hu.hostTxPend, hu.rxState, hu.cmdResult⟩

end Sys2Proof.Machine

namespace Sys2Proof

/-! ### The checks of Decode, one rule each (R121 to R131) -/

section
variable {buf : List Byte} {st : Byte}

theorem decode_overlong : Frame.decode buf true st = .error .badLenField := if_pos rfl

theorem decode_tooShort (h : buf.length < 9) : Frame.decode buf false st = .error .tooShortMsg := by
  simp [Frame.decode, h]

theorem decode_badLen (h9 : 9 ≤ buf.length) (h : buf.length ≠ 9 + (byteAt buf 4).toNat) :
    Frame.decode buf false st = .error .badLenField := by
  simp [Frame.decode, h9.not_gt, h]

variable (hlen : buf.length = 9 + (byteAt buf 4).toNat)
include hlen

theorem decode_wrongDest (h : Frame.accepts st (byteAt buf 1) = false) :
    Frame.decode buf false st = .error .wrongDestStation := by
  simp [Frame.decode, hlen, h]

variable (hdest : Frame.accepts st (byteAt buf 1) = true)
include hdest

theorem decode_missingSoh (h : byteAt buf 0 ≠ Frame.soh) : Frame.decode buf false st = .error .missingSoh := by
  simp [Frame.decode, hlen, hdest, h]

variable (hsoh : byteAt buf 0 = Frame.soh)
include hsoh

theorem decode_missingStx (h : byteAt buf 5 ≠ Frame.stx) : Frame.decode buf false st = .error .missingStx := by
  simp [Frame.decode, hlen, hdest, hsoh, h]

variable (hstx : byteAt buf 5 = Frame.stx)
include hstx

theorem decode_missingEtx (h : byteAt buf (6 + (byteAt buf 4).toNat) ≠ Frame.etx) :
    Frame.decode buf false st = .error .missingEtx := by
  simp [Frame.decode, hlen, hdest, hsoh, hstx, h]

variable (hetx : byteAt buf (6 + (byteAt buf 4).toNat) = Frame.etx)
include hetx

theorem decode_missingEot (h : byteAt buf (8 + (byteAt buf 4).toNat) ≠ Frame.eot) :
    Frame.decode buf false st = .error .missingEot := by
  simp [Frame.decode, hlen, hdest, hsoh, hstx, hetx, h]

variable (heot : byteAt buf (8 + (byteAt buf 4).toNat) = Frame.eot)
include heot

theorem decode_badChecksum
    (h : checksum (byteAt buf 1) (byteAt buf 2) (byteAt buf 3) (byteAt buf 4) (Frame.payloadOf buf)
      ≠ byteAt buf (7 + (byteAt buf 4).toNat)) :
    Frame.decode buf false st = .error .badChecksum := by
  simp [Frame.decode, hlen, hdest, hsoh, hstx, hetx, heot, h]

theorem decode_message
    (h : checksum (byteAt buf 1) (byteAt buf 2) (byteAt buf 3) (byteAt buf 4) (Frame.payloadOf buf)
      = byteAt buf (7 + (byteAt buf 4).toNat)) :
    Frame.decode buf false st = .ok
      { dest := byteAt buf 1, orig := byteAt buf 2, cmd := byteAt buf 3, length := byteAt buf 4,
        payload := Frame.payloadOf buf } := by
  simp [Frame.decode, hlen, hdest, hsoh, hstx, hetx, heot, h]

end

/-- DEST is refused when it is neither the station nor the broadcast address (R123). -/
theorem accepts_eq_false_iff (st d : Byte) : Frame.accepts st d = false ↔ d ≠ st ∧ d ≠ 0x00 := by
  rw [← Bool.not_eq_true, accepts_iff, not_or]

/-- Settles O8: each clause is the rule of its check. -/
theorem decodeChecksInOrder : Obligations.DecodeChecksInOrder := by
  unfold Obligations.DecodeChecksInOrder
  intro buf st
  have hlong : 264 < buf.length → Frame.decode buf false st = .error .badLenField := fun h =>
    decode_badLen (by omega) (by have := (byteAt buf 4).isLt; omega)
  refine ⟨decode_overlong, hlong, decode_tooShort, fun h9 => ⟨decode_badLen h9, fun hlen =>
    ⟨fun h => decode_wrongDest hlen ((accepts_eq_false_iff _ _).mpr h), fun h => ?_⟩⟩⟩
  have hdest : Frame.accepts st (byteAt buf 1) = true := (accepts_iff _ _).mpr h
  refine ⟨decode_missingSoh hlen hdest, fun hsoh => ⟨decode_missingStx hlen hdest hsoh, fun hstx =>
    ⟨decode_missingEtx hlen hdest hsoh hstx, fun hetx =>
    ⟨decode_missingEot hlen hdest hsoh hstx hetx, fun heot => ?_⟩⟩⟩⟩
  rw [show buf.length - 2 = 7 + (byteAt buf 4).toNat by omega]
  split_ifs with hchk
  · exact decode_badChecksum hlen hdest hsoh hstx hetx heot hchk
  · exact decode_message hlen hdest hsoh hstx hetx heot (not_not.mp hchk)

/-- Settles O4: a frame that is not for this station fails at DEST, whatever else it holds. -/
theorem frameRoundTrip : Obligations.FrameRoundTrip := by
  unfold Obligations.FrameRoundTrip
  intro d o c st p hp
  refine ⟨fun hd => decode_encode o c hp ((accepts_iff st d).mpr hd), fun hd => decode_wrongDest ?_ ?_⟩
  · simp; omega
  · exact (accepts_eq_false_iff st d).mpr (not_or.mp hd)

/-! ### A frame made of any nine fields, and the layout of Encode (R80, R114) -/

/-- The fields in the order of the wire, each of any value: Encode's frame (`encode_eq_ofFields`), and that frame with
any byte replaced (`set_encode_payload`, `set_encode_tail`). -/
def Frame.ofFields (soh dest orig cmd len stx : Byte) (payload : List Byte) (etx chk eot : Byte) : List Byte :=
  [soh, dest, orig, cmd, len, stx] ++ payload ++ [etx, chk, eot]

section
variable (soh d o c l stx : Byte) (p : List Byte) (etx chk eot : Byte)

theorem encode_eq_ofFields : Frame.encode d o c p = Frame.ofFields Frame.soh d o c (BitVec.ofNat 8 p.length) Frame.stx p
    Frame.etx (checksum d o c (BitVec.ofNat 8 p.length) p) Frame.eot := rfl

/-- The three bytes after the payload. -/
theorem byteAt_ofFields_tail (j : Nat) :
    byteAt (Frame.ofFields soh d o c l stx p etx chk eot) (6 + p.length + j) = byteAt [etx, chk, eot] j := by
  rw [Frame.ofFields, byteAt_append, if_neg (by simp; omega)]
  congr 1
  simp
  omega

end

section
variable {soh d o c l stx : Byte} {p : List Byte} {etx chk eot : Byte} {n : Nat} (hn : n = p.length)
include hn

theorem ofFields_length : (Frame.ofFields soh d o c l stx p etx chk eot).length = 9 + n := by
  simp [Frame.ofFields, hn]
  omega

theorem byteAt_ofFields_etx : byteAt (Frame.ofFields soh d o c l stx p etx chk eot) (6 + n) = etx := by
  rw [hn]
  exact byteAt_ofFields_tail soh d o c l stx p etx chk eot 0

theorem byteAt_ofFields_chk : byteAt (Frame.ofFields soh d o c l stx p etx chk eot) (7 + n) = chk := by
  rw [show 7 + n = 6 + p.length + 1 by omega]
  exact byteAt_ofFields_tail soh d o c l stx p etx chk eot 1

theorem byteAt_ofFields_eot : byteAt (Frame.ofFields soh d o c l stx p etx chk eot) (8 + n) = eot := by
  rw [show 8 + n = 6 + p.length + 2 by omega]
  exact byteAt_ofFields_tail soh d o c l stx p etx chk eot 2

end

/-- Settles O7: the length and the bytes after the payload, as in every frame of nine fields. -/
theorem encodeLayout : Obligations.EncodeLayout := by
  unfold Obligations.EncodeLayout
  intro d o c p _
  rw [encode_eq_ofFields]
  exact ⟨ofFields_length rfl, rfl, byteAt_ofFields_etx rfl, byteAt_ofFields_eot rfl, byteAt_ofFields_chk rfl,
    by rw [Frame.ofFields, List.getLast?_append]; rfl⟩

/-! ### The checksum as a sum of bytes (R110, R111) -/

/-- The checksum is the sum of its bytes in the arithmetic modulo 256. -/
theorem checksum_eq_sum (d o c l : Byte) (p : List Byte) : checksum d o c l p = d + o + c + l + p.sum := by
  have hsum : BitVec.ofNat 8 (p.map BitVec.toNat).sum = p.sum := by
    induction p with
    | nil => rfl
    | cons b bs ih => simp [BitVec.ofNat_add, ih]
  simp [checksum, checksumSum, BitVec.ofNat_add, hsum]

/-- The exact sum is at most 255 for each of its summands. -/
theorem checksumSum_le (d o c l : Byte) (p : List Byte) : checksumSum d o c l p ≤ 255 * (4 + p.length) := by
  have hbyte : ∀ b : Byte, b.toNat ≤ 255 := fun b => Nat.le_of_lt_succ b.isLt
  have hsum := List.sum_le_card_nsmul (p.map BitVec.toNat) 255 (by simp [hbyte])
  rw [List.length_map, smul_eq_mul] at hsum
  rw [checksumSum]
  omega

/-- Replacing one payload byte by another changes the checksum. -/
theorem checksum_set_ne {p : List Byte} {j : Nat} (hj : j < p.length) {b : Byte} (hb : b ≠ p[j]) (d o c l : Byte) :
    checksum d o c l (p.set j b) ≠ checksum d o c l p := by
  have hdiff : -p[j] + b ≠ 0 := fun h => hb (neg_add_eq_zero.mp h).symm
  simpa [checksum_eq_sum, List.sum_set', hj] using hdiff

end Sys2Proof

namespace Sys2Proof.Machine

/-- Settles O6: both are the sum in the arithmetic modulo 256; the bound counts 255 for each of 259 summands. -/
theorem checksumMayWrapAtEachAddition : Obligations.ChecksumMayWrapAtEachAddition := by
  unfold Obligations.ChecksumMayWrapAtEachAddition
  intro d o c l p
  refine ⟨?_, fun hp => (checksumSum_le d o c l p).trans (by omega)⟩
  rw [checksum_eq_sum, List.sum_eq_foldl, wrappingChecksum, ← List.foldl_assoc (α := Byte) (op := (· + ·)),
    add_zero]

/-! ### The codes and Messages of Decode (R132, R135) -/

/-- The code of a check that fails is one of the eight (R121 to R130). -/
theorem decode_error_mem {buf : List Byte} {ov : Bool} {st : Byte} {e : FlowError}
    (h : Frame.decode buf ov st = .error e) : e ∈ decodeErrors := by
  unfold Frame.decode at h
  split_ifs at h
  all_goals
    cases h
    decide

/-- Settles O10: the fields by the checks they passed; every ORIG and CMD by an empty broadcast frame. -/
theorem decodedMessageRanges : Obligations.DecodedMessageRanges := by
  unfold Obligations.DecodedMessageRanges
  refine ⟨fun buf ov st m h => ?_, fun st o c =>
    ⟨_, _, decode_encode (d := Frame.broadcast) o c (p := []) (by decide) rfl, rfl, rfl⟩⟩
  obtain ⟨_, hlen, hdest, _, _, _, _, _, rfl⟩ := decode_ok h
  refine ⟨(accepts_iff _ _).mp hdest, Nat.le_of_lt_succ (byteAt buf 4).isLt, ?_⟩
  simp [Frame.payloadOf, hlen]
  omega

end Sys2Proof.Machine

namespace Sys2Proof

/-! ### One byte of a frame replaced (R134) -/

section
variable {d o c st b : Byte} {p : List Byte}

theorem len_toNat (hp : p.length ≤ 255) : (BitVec.ofNat 8 p.length).toNat = p.length := by
  simp
  omega

/-- A replaced payload byte. -/
theorem set_encode_payload {j : Nat} (hj : j < p.length) : (Frame.encode d o c p).set (6 + j) b
    = Frame.ofFields Frame.soh d o c (BitVec.ofNat 8 p.length) Frame.stx (p.set j b) Frame.etx
      (checksum d o c (BitVec.ofNat 8 p.length) p) Frame.eot := by
  rw [Frame.encode, List.set_append_left _ _ (by simp; omega), List.set_append_right _ _ (by simp)]
  simp [Frame.ofFields]

/-- A replaced byte after the payload. -/
theorem set_encode_tail {i j : Nat} (hi : i = 6 + p.length + j) : (Frame.encode d o c p).set i b
    = [Frame.soh, d, o, c, BitVec.ofNat 8 p.length, Frame.stx] ++ p
      ++ [Frame.etx, checksum d o c (BitVec.ofNat 8 p.length) p, Frame.eot].set j b := by
  rw [Frame.encode, List.set_append_right _ _ (by simp; omega)]
  congr 2
  simp
  omega

theorem byteAt_encode_payload {j : Nat} (hj : j < p.length) : byteAt (Frame.encode d o c p) (6 + j) = p[j] := by
  rw [Frame.encode, byteAt_append, if_pos (by simp; omega), byteAt_append, if_neg (by simp)]
  simp [byteAt, hj]

/-- A frame whose three sentinels and LEN are right, and CHK is not, is BAD_CHECKSUM. -/
theorem decode_ofFields_badChecksum {l chk : Byte} (hl : l.toNat = p.length) (hd : Frame.accepts st d = true)
    (hchk : checksum d o c l p ≠ chk) :
    Frame.decode (Frame.ofFields Frame.soh d o c l Frame.stx p Frame.etx chk Frame.eot) false st
      = .error .badChecksum := by
  have hpay : Frame.payloadOf (Frame.ofFields Frame.soh d o c l Frame.stx p Frame.etx chk Frame.eot) = p := by
    change (List.drop 6 _).take l.toNat = p
    simp [Frame.ofFields, hl]
  refine decode_badChecksum (ofFields_length hl) hd rfl rfl (byteAt_ofFields_etx hl) (byteAt_ofFields_eot hl) ?_
  rw [hpay]
  exact (byteAt_ofFields_chk hl (chk := chk)).symm ▸ hchk

variable (hp : p.length ≤ 255)
include hp

/-- LEN still says the length when another byte is replaced, as every check after R122 asks. -/
theorem length_set_encode (i : Nat) :
    ((Frame.encode d o c p).set i b).length = 9 + (BitVec.ofNat 8 p.length).toNat := by
  rw [List.length_set, encode_length, len_toNat hp]

theorem decode_set_len (hb : b ≠ BitVec.ofNat 8 p.length) :
    Frame.decode ((Frame.encode d o c p).set 4 b) false st = .error .badLenField := by
  refine decode_badLen (by simp) fun hlen => hb (BitVec.eq_of_toNat_eq ?_)
  rw [length_set_encode hp] at hlen
  exact (Nat.add_left_cancel hlen).symm

theorem decode_set_dest_refused (hb : Frame.accepts st b = false) :
    Frame.decode ((Frame.encode d o c p).set 1 b) false st = .error .wrongDestStation :=
  decode_wrongDest (length_set_encode hp 1) hb

theorem decode_set_dest_accepted (hb : Frame.accepts st b = true) (hne : b ≠ d) :
    Frame.decode ((Frame.encode d o c p).set 1 b) false st = .error .badChecksum :=
  decode_ofFields_badChecksum (len_toNat hp) hb (by simpa [checksum_eq_sum] using hne)

variable (hd : Frame.accepts st d = true)
include hd

theorem decode_set_soh (hb : b ≠ Frame.soh) :
    Frame.decode ((Frame.encode d o c p).set 0 b) false st = .error .missingSoh :=
  decode_missingSoh (length_set_encode hp 0) hd hb

theorem decode_set_orig (hne : b ≠ o) :
    Frame.decode ((Frame.encode d o c p).set 2 b) false st = .error .badChecksum :=
  decode_ofFields_badChecksum (len_toNat hp) hd (by simpa [checksum_eq_sum] using hne)

theorem decode_set_cmd (hne : b ≠ c) :
    Frame.decode ((Frame.encode d o c p).set 3 b) false st = .error .badChecksum :=
  decode_ofFields_badChecksum (len_toNat hp) hd (by simpa [checksum_eq_sum] using hne)

theorem decode_set_stx (hb : b ≠ Frame.stx) :
    Frame.decode ((Frame.encode d o c p).set 5 b) false st = .error .missingStx :=
  decode_missingStx (length_set_encode hp 5) hd rfl hb

theorem decode_set_payload {j : Nat} (hj : j < p.length) (hne : b ≠ p[j]) :
    Frame.decode ((Frame.encode d o c p).set (6 + j) b) false st = .error .badChecksum := by
  have hl : (BitVec.ofNat 8 p.length).toNat = (p.set j b).length := (len_toNat hp).trans List.length_set.symm
  rw [set_encode_payload hj]
  exact decode_ofFields_badChecksum hl hd (checksum_set_ne hj hne _ _ _ _)

theorem decode_set_etx (hb : b ≠ Frame.etx) :
    Frame.decode ((Frame.encode d o c p).set (6 + p.length) b) false st = .error .missingEtx := by
  have hl := len_toNat hp
  rw [set_encode_tail (j := 0) (by omega)]
  exact decode_missingEtx (ofFields_length hl) hd rfl rfl ((byteAt_ofFields_etx hl).trans_ne hb)

theorem decode_set_chk (hne : b ≠ checksum d o c (BitVec.ofNat 8 p.length) p) :
    Frame.decode ((Frame.encode d o c p).set (7 + p.length) b) false st = .error .badChecksum := by
  rw [set_encode_tail (j := 1) (by omega)]
  exact decode_ofFields_badChecksum (len_toNat hp) hd hne.symm

theorem decode_set_eot (hb : b ≠ Frame.eot) :
    Frame.decode ((Frame.encode d o c p).set (8 + p.length) b) false st = .error .missingEot := by
  have hl := len_toNat hp
  rw [set_encode_tail (j := 2) (by omega)]
  exact decode_missingEot (ofFields_length hl) hd rfl rfl (byteAt_ofFields_etx hl)
    ((byteAt_ofFields_eot hl).trans_ne hb)

end

/-- Every station refuses some DEST. -/
theorem exists_accepts_eq_false (st : Byte) : ∃ d, Frame.accepts st d = false := by
  by_cases hst : st = 0x01
  · subst hst
    exact ⟨0x02, rfl⟩
  · exact ⟨0x01, (accepts_eq_false_iff st 0x01).mpr ⟨Ne.symm hst, by decide⟩⟩

end Sys2Proof

namespace Sys2Proof.Machine

/-- Settles O9: the witness of each code but TOO_SHORT_MSG is an empty broadcast frame with one byte replaced. -/
theorem decodeReturnsOnlyItsCodes : Obligations.DecodeReturnsOnlyItsCodes := by
  unfold Obligations.DecodeReturnsOnlyItsCodes
  have hp : ([] : List Byte).length ≤ 255 := by decide
  have hd (st : Byte) : Frame.accepts st Frame.broadcast = true := rfl
  refine ⟨fun _ _ _ _ => decode_error_mem, fun st e he => ?_,
    fun st => ⟨_, _, decode_encode 0x00 0x00 hp (hd st)⟩⟩
  simp only [decodeErrors, List.mem_cons, List.not_mem_nil, or_false] at he
  rcases he with rfl | rfl | rfl | rfl | rfl | rfl | rfl | rfl
  · exact ⟨[], decode_tooShort (by decide)⟩
  · exact ⟨_, decode_set_len (d := 0x00) (o := 0x00) (c := 0x00) (b := 0x01) hp (by decide)⟩
  · obtain ⟨d, hrefused⟩ := exists_accepts_eq_false st
    exact ⟨_, decode_set_dest_refused (d := 0x00) (o := 0x00) (c := 0x00) hp hrefused⟩
  · exact ⟨_, decode_set_soh (o := 0x00) (c := 0x00) (b := 0x00) hp (hd st) (by decide)⟩
  · exact ⟨_, decode_set_stx (o := 0x00) (c := 0x00) (b := 0x00) hp (hd st) (by decide)⟩
  · exact ⟨_, decode_set_etx (o := 0x00) (c := 0x00) (b := 0x00) hp (hd st) (by decide)⟩
  · exact ⟨_, decode_set_eot (o := 0x00) (c := 0x00) (b := 0x00) hp (hd st) (by decide)⟩
  · exact ⟨_, decode_set_chk (o := 0x00) (c := 0x00) (b := 0x01) hp (hd st) (by decide)⟩

theorem flipBit_ne (b : Byte) {k : Nat} (hk : k < 8) : flipBit b k ≠ b := by
  intro hflip
  have hbit : (flipBit b k).getLsbD k = b.getLsbD k := by rw [hflip]
  simp [flipBit, hk] at hbit

/-- Settles O5: a flipped bit replaces its byte by another one, and the field of that byte says which check fails. -/
theorem singleBitFlipOutcome : Obligations.SingleBitFlipOutcome := by
  unfold Obligations.SingleBitFlipOutcome
  intro st d o c p i k hp hdest hi hk
  have hd : Frame.accepts st d = true := (accepts_iff st d).mpr hdest
  have hflip := flipBit_ne (byteAt (Frame.encode d o c p) i) hk
  split_ifs with hsoh hdst hother hlen hstx hetx heot
  · subst hsoh
    exact decode_set_soh hp hd hflip
  · subst hdst
    exact decode_set_dest_refused hp ((accepts_eq_false_iff _ _).mpr hother)
  · subst hdst
    exact decode_set_dest_accepted hp (Bool.of_not_eq_false (hother ∘ (accepts_eq_false_iff _ _).mp)) hflip
  · subst hlen
    exact decode_set_len hp hflip
  · subst hstx
    exact decode_set_stx hp hd hflip
  · subst hetx
    exact decode_set_etx hp hd (hflip.trans_eq (byteAt_ofFields_etx rfl))
  · subst heot
    exact decode_set_eot hp hd (hflip.trans_eq (byteAt_ofFields_eot rfl))
  · have hrest : i = 2 ∨ i = 3 ∨ i = 7 + p.length ∨ (6 ≤ i ∧ i - 6 < p.length) := by omega
    rcases hrest with rfl | rfl | rfl | ⟨h6, hj⟩
    · exact decode_set_orig hp hd hflip
    · exact decode_set_cmd hp hd hflip
    · exact decode_set_chk hp hd (hflip.trans_eq (byteAt_ofFields_chk rfl))
    · obtain ⟨j, rfl⟩ := Nat.exists_eq_add_of_le h6
      rw [Nat.add_sub_cancel_left] at hj
      exact decode_set_payload hp hd hj (hflip.trans_eq (byteAt_encode_payload hj))

end Sys2Proof.Machine

namespace Sys2Proof.Machine

/-! ### What Evaluate does, by what the buffer decodes to (R153) -/

section
variable {s : State}

/-- The instruction of a whole frame is run in the step that evaluates it (R153, R173). -/
theorem evaluate_of_decode {i : Instr} (hover : s.rxOver = false)
    (h : decode s.station (.frame s.rxBuf) = .ok i) : evaluate s = exec i s := by
  unfold evaluate
  rw [hover]
  cases hd : Frame.decode s.rxBuf false s.station <;> rw [decode, hd] at h <;> cases h
  rfl

theorem evaluate_message {m : Message} (hr : rxReading s.rxState = true)
    (h : Frame.decode s.rxBuf s.rxOver s.station = .ok m) : evaluate s = .next (dispatch m s) := by
  rw [evaluate, h]
  exact (exec_ofMessage m s).trans (congrArg _ (receiveMessage_of_decode hr h))

variable {e : FlowError} (h : Frame.decode s.rxBuf s.rxOver s.station = .error e)
include h

theorem evaluate_retry (hretry : retryNeeded e s.rxLast = true) :
    evaluate s = .next { s with rxPendErr := e, rxNew := false, rxState := .readCont } := by
  rw [evaluate, h]
  exact if_pos hretry

theorem evaluate_report (hretry : retryNeeded e s.rxLast = false) :
    evaluate s = .next (loopTop (reportError e s)) := by
  rw [evaluate, h]
  exact if_neg (by simp [hretry])

end

/-- A buffer that decodes to a Message ends in an EOT (R127, R130). -/
theorem getLast_of_decode {buf : List Byte} {ov : Bool} {st : Byte} {m : Message}
    (h : Frame.decode buf ov st = .ok m) : buf.getLast? = some Frame.eot := by
  obtain ⟨-, hlen, -, -, -, -, heot, -, -⟩ := decode_ok h
  have hindex : buf.length - 1 = 8 + (byteAt buf 4).toNat := by omega
  have hlast : buf.length - 1 < buf.length := by omega
  rw [← hindex] at heot
  simpa [List.getLast?_eq_getElem?, byteAt, hlast] using heot

/-- A cycle whose last byte is no EOT can only be reported (R154, R156). -/
theorem evaluate_reports {s : State} (hlast : s.rxLast ≠ Frame.eot)
    (hbuf : s.rxOver = true ∨ s.rxBuf.getLast? = some s.rxLast) :
    ∃ e, evaluate s = .next (loopTop (reportError e s)) := by
  rcases evaluate_cases s with ⟨m, hd, -⟩ | ⟨e, -, hretry, -⟩ | ⟨e, -, -, heval⟩
  · obtain ⟨hover, -⟩ := decode_ok hd
    have heot := getLast_of_decode hd
    simp_all
  · exact absurd (retryNeeded_iff.mp hretry).2 hlast
  · exact ⟨e, heval⟩

/-! ### What a transport outcome does (R143, R151, R155) -/

/-- The state in which a received byte is evaluated, or the read goes on: the byte appended, and the continuation read
marked (R143, R155). -/
def receiveByte (b : Byte) (s : State) : State :=
  appendByte b { s with rxNew := if s.rxState = .readCont then true else s.rxNew }

theorem receiveByte_of_room {s : State} (b : Byte) (h : s.rxBuf.length < 264) : receiveByte b s = { s with
    rxBuf := s.rxBuf ++ [b], rxLast := b, rxNew := if s.rxState = .readCont then true else s.rxNew } := by
  simp only [receiveByte, appendByte, if_pos h]

theorem receiveByte_of_full {s : State} (b : Byte) (h : 264 ≤ s.rxBuf.length) : receiveByte b s = { s with
    rxOver := true, rxLast := b, rxNew := if s.rxState = .readCont then true else s.rxNew } := by
  simp only [receiveByte, appendByte, if_neg h.not_gt]

/-- The mark of a continuation read, as one update of the state (R155). -/
theorem readCont_mark (s : State) : (if s.rxState = .readCont then { s with rxNew := true } else s)
    = { s with rxNew := if s.rxState = .readCont then true else s.rxNew } := by
  split <;> rfl

/-- A received byte ends the bounded read when it is an EOT (R142). -/
theorem readOutcome_byte (b : Byte) (s : State) : readOutcome (.byte b) s =
    if b = Frame.eot then evaluate (receiveByte b s) else .next (receiveByte b s) := by
  rw [readOutcome, readCont_mark]
  rfl

/-- Timeout and EndOfStream have the one effect of R144. -/
theorem readOutcome_ended {o : RxOutcome} (ho : o = .timeout ∨ o = .endOfStream) (s : State) :
    readOutcome o s = readEnded s := by
  rcases ho with rfl | rfl <;> rfl

/-- An empty first read is idle (R152). -/
theorem readEnded_idle {s : State} (hx : s.rxState = .readFirst) (hbuf : s.rxBuf = []) (hover : s.rxOver = false) :
    readEnded s = .next (loopTop s) := by
  simp [readEnded, hx, hbuf, hover]

theorem readEnded_cont {s : State} (hx : s.rxState = .readCont) :
    readEnded s = if s.rxNew then evaluate s else .next (loopTop (reportError s.rxPendErr s)) :=
  if_pos hx

/-- The step of a reading engine whose turn it is, with the bookkeeping around it (log 5, log 6, log 26). -/
theorem step_reading {s t : State} (hturn : nextTurn s = .receive) (hr : rxReading s.rxState = true)
    (h : readOutcome (nextRx s) (popRx (beginStep s)) = .next t) : step s = .next (endStep t) := by
  apply step_of_turn
  rw [hturn]
  exact (if_pos hr).trans h

/-- The end of a read leaves the loop running while no cancel is pending (R144, R150). -/
theorem running_of_readUpdate {s t : State} (h : ReadUpdate s t) (hr : rxReading s.rxState = true)
    (hc : s.cancelReq = false) : rxRunning t.rxState = true ∧ t.fatal = s.fatal := by
  have hrun : rxRunning s.rxState = true := by
    rcases (rxReading_iff _).mp hr with hx | hx <;> rw [hx] <;> rfl
  rcases h with rfl | ⟨e, rfl⟩ | rfl | ⟨m, hid, rfl⟩ | ⟨m, rfl⟩ | ⟨e, rfl⟩
  · exact ⟨hrun, rfl⟩
  · simp [hc, rxRunning]
  · simp [hc, rxRunning]
  · exact ⟨rfl, rfl⟩
  · exact ⟨rfl, rfl⟩
  · exact ⟨rfl, rfl⟩

/-! ### The read cycle's statements -/

/-- Settles O30: the two outcomes end the read alike, and no update of a read's end stops the loop but a cancel. -/
theorem endOfStreamActsAsTimeout : Obligations.EndOfStreamActsAsTimeout := by
  unfold Obligations.EndOfStreamActsAsTimeout
  refine ⟨fun s => rfl, fun s hr hc => ?_⟩
  obtain ⟨t, ht⟩ := readEnded_next s
  exact ⟨t, ht, running_of_readUpdate (readEnded_update ht) hr hc⟩

/-- Settles O26: the retry condition is R154's. -/
theorem evaluateFollowsTheDecode : Obligations.EvaluateFollowsTheDecode := by
  unfold Obligations.EvaluateFollowsTheDecode
  refine fun s hr => ⟨fun m hd => evaluate_message hr hd, fun e hd => ?_⟩
  have hiff : retryNeeded e s.rxLast = true ↔ (e = .badLenField ∨ e = .tooShortMsg) ∧ s.rxLast = 0x04 := by
    rw [retryNeeded_iff, or_comm]
  rw [← hiff]
  exact ⟨evaluate_retry hd, fun hno => evaluate_report hd (Bool.eq_false_of_not_eq_true hno)⟩

/-- Settles O27: the state named is that of the received byte. -/
theorem byteIsAppendedAndEotEvaluates : Obligations.ByteIsAppendedAndEotEvaluates := by
  unfold Obligations.ByteIsAppendedAndEotEvaluates
  intro s u b _ hu
  have hbyte : receiveByte b s = u := hu.symm
  rw [readOutcome_byte, hbyte]
  exact ⟨fun hb => if_neg hb, fun hb => if_pos hb⟩

/-- Settles O29: the idle read is LoopTop alone, which writes none of these fields. -/
theorem idleReadReportsNothing : Obligations.IdleReadReportsNothing := by
  unfold Obligations.IdleReadReportsNothing
  intro s hturn ho hx hbuf hover
  have hidle : readEnded (popRx (beginStep s)) = .next (loopTop (popRx (beginStep s))) :=
    readEnded_idle hx hbuf hover
  refine ⟨_, step_reading hturn (by rw [hx]; rfl) ((readOutcome_ended ho _).trans hidle), ?_⟩
  simp +contextual

/-- Settles O31: new bytes without an EOT leave Evaluate its report only; by the invariant that is every end of a
continuation read with new bytes. -/
theorem exhaustedContinuationReportsPendingError : Obligations.ExhaustedContinuationReportsPendingError := by
  unfold Obligations.ExhaustedContinuationReportsPendingError
  intro s o ho hx
  rw [readOutcome_ended ho, readEnded_cont hx]
  refine ⟨fun hold => by simp [hold], fun hnew => if_pos hnew, fun hnew hlast hbuf => ?_, fun hinv hnew => ?_⟩
  · rw [if_pos hnew]
    exact evaluate_reports hlast hbuf
  · obtain ⟨hiff, htwo⟩ := hinv.cont_new hx
    have hlast : s.rxLast ≠ 0x04 := hiff.mp hnew
    have hbuf : s.rxOver = true ∨ s.rxBuf.getLast? = some s.rxLast := by
      cases hover : s.rxOver with
      | true => exact .inl rfl
      | false =>
        refine .inr (hinv.last_byte hover fun hnil => ?_)
        simpa [hover, hnil] using htwo hnew
    rw [if_pos hnew]
    exact ⟨hlast, evaluate_reports hlast hbuf⟩

/-- Settles O32: the state Fatal leaves, and the one flag and the state code STATUS then holds. -/
theorem readFaultEntersFatal : Obligations.ReadFaultEntersFatal := by
  unfold Obligations.ReadFaultEntersFatal
  refine fun s _ => ⟨rfl, fun t ht => ?_⟩
  cases ht
  simp [csrValue, statusWord, rxFaultEntry, rxStateCode, rxRunning]

/-- Settles O50: the byte completes the buffer that Evaluate decodes. -/
theorem stepRunsTheReceivedFrame : Obligations.StepRunsTheReceivedFrame := by
  unfold Obligations.StepRunsTheReceivedFrame
  intro s i t hturn hr hrx hover hlen hdecode hexec
  refine step_reading hturn hr ?_
  rw [hrx, readOutcome_byte, receiveByte_of_room (s := popRx (beginStep s)) _ hlen]
  refine (if_pos rfl).trans ((evaluate_of_decode ?_ ?_).trans hexec)
  · exact hover
  · exact hdecode

/-- The three frame classes are the receiving of a message for the frame's DEST. -/
theorem exec_frame {i : Instr} {d o c : Byte} {p : List Byte}
    (hi : i = .rxPing d o p ∨ i = .rxPong d o p ∨ i = .rxApp d o c p) (s : State) :
    ∃ m : Message, m.dest = d ∧ exec i s = .next (receiveMessage m s) := by
  rcases hi with rfl | rfl | rfl <;> exact ⟨_, rfl, rfl⟩

/-- Settles O24: receiving a message outside its rule is nothing, or the report. -/
theorem frameNotForThisMoment : Obligations.FrameNotForThisMoment := by
  unfold Obligations.FrameNotForThisMoment
  intro s d o c p i hi
  obtain ⟨m, hdest, hexec⟩ := exec_frame hi s
  refine ⟨fun hr => ?_, fun hr hstation hbroadcast => ?_⟩
  · rw [hexec, receiveMessage, hr]
    rfl
  · have haccepts : Frame.accepts s.station m.dest = false :=
      hdest ▸ (accepts_eq_false_iff _ _).mpr ⟨hstation, hbroadcast⟩
    have hreport : exec i s = .next (loopTop (reportError .wrongDestStation s)) := by
      simp [hexec, receiveMessage, hr, haccepts]
    exact ⟨_, hreport, by simp, by simp, by simp, by simp, loopTop_rxState _⟩

end Sys2Proof.Machine

namespace Sys2Proof

/-! ### The length checks of Decode on more than a frame, and on less (R121, R122) -/

/-- More than 264 bytes are BAD_LEN_FIELD whether they are all kept or counted by the overlong flag (R38, R122). -/
theorem decode_take_overlong (buf : List Byte) (st : Byte) :
    Frame.decode (buf.take 264) (decide (264 < buf.length)) st = Frame.decode buf false st := by
  by_cases hlong : 264 < buf.length
  · have hlen : buf.length ≠ 9 + (byteAt buf 4).toNat := by
      have := (byteAt buf 4).isLt
      omega
    rw [decide_eq_true hlong, decode_overlong, decode_badLen (by omega) hlen]
  · rw [decide_eq_false hlong, List.take_of_length_le (by omega)]

theorem length_lt_of_append_eq_encode {buf more : List Byte} {d o c : Byte} {p : List Byte} (hmore : more ≠ [])
    (h : buf ++ more = Frame.encode d o c p) : buf.length < 9 + p.length := by
  rw [← encode_length d o c p, ← h, List.length_append]
  exact Nat.lt_add_of_pos_right (List.length_pos_of_ne_nil hmore)

/-- A frame that has not arrived whole fails a length check (R160). -/
theorem decode_unfinished {buf more : List Byte} {d o c : Byte} {p : List Byte} (st : Byte) (hp : p.length ≤ 255)
    (hmore : more ≠ []) (h : buf ++ more = Frame.encode d o c p) :
    ∃ e, (e = .tooShortMsg ∨ e = .badLenField) ∧ Frame.decode buf false st = .error e := by
  rcases Nat.lt_or_ge buf.length 9 with hshort | h9
  · exact ⟨_, .inl rfl, decode_tooShort hshort⟩
  · have hbyte : byteAt buf 4 = byteAt (buf ++ more) 4 := by rw [byteAt_append, if_pos (by omega)]
    have hlen : (byteAt buf 4).toNat = p.length := by rw [hbyte, h, byteAt_encode_len, len_toNat hp]
    have hlt := length_lt_of_append_eq_encode hmore h
    exact ⟨_, .inr rfl, decode_badLen h9 (by omega)⟩

theorem encode_ne_nil (d o c : Byte) (p : List Byte) : Frame.encode d o c p ≠ [] := List.cons_ne_nil _ _

end Sys2Proof

namespace Sys2Proof.Machine

/-! ### The block beside the source's unbounded buffer (R159) -/

/-- The block's state for a state of the source's engine: the first 264 bytes of the buffer, and the overlong flag for
the rest (R38, R143). -/
def State.bounded (s : State) : State :=
  { s with rxBuf := s.rxBuf.take 264, rxOver := decide (264 < s.rxBuf.length) }

theorem bounded_self {s : State} (hover : s.rxOver = false) (hlen : s.rxBuf.length ≤ 264) : s.bounded = s := by
  rw [State.bounded, List.take_of_length_le hlen, decide_eq_false hlen.not_gt, ← hover]

@[simp] theorem bounded_cancelReq (s : State) : s.bounded.cancelReq = s.cancelReq := rfl
@[simp] theorem bounded_rxNew (s : State) : s.bounded.rxNew = s.rxNew := rfl
@[simp] theorem bounded_rxPendErr (s : State) : s.bounded.rxPendErr = s.rxPendErr := rfl

theorem reportError_bounded (e : FlowError) (s : State) : reportError e s.bounded = (reportError e s).bounded := rfl

theorem loopTop_bounded (s : State) : loopTop s.bounded = (loopTop s).bounded := by
  unfold loopTop
  rw [bounded_cancelReq]
  split <;> rfl

theorem dispatch_bounded (m : Message) (s : State) : dispatch m s.bounded = (dispatch m s).bounded := by
  rcases dispatch_cases m s with ⟨hkind, hd⟩ | ⟨hkind, hd⟩ | ⟨hkind, hd⟩ <;> rw [hd]
  · exact (dispatch_absent (s := s.bounded) hkind).trans (loopTop_bounded s)
  · exact dispatch_external hkind
  · exact dispatch_builtin hkind

theorem evaluate_bounded {s : State} (hr : rxReading s.rxState = true) :
    evaluate s.bounded = .next (unboundedEvaluate s).bounded := by
  have hdecode : Frame.decode s.bounded.rxBuf s.bounded.rxOver s.bounded.station
      = Frame.decode s.rxBuf false s.station := decode_take_overlong s.rxBuf s.station
  unfold unboundedEvaluate
  split
  · next m hd =>
    have hmessage := evaluate_message (s := s.bounded) hr (hdecode.trans hd)
    exact hmessage.trans (congrArg _ (dispatch_bounded m s))
  · next e hd =>
    split
    · next hretry => exact evaluate_retry (s := s.bounded) (hdecode.trans hd) hretry
    · next hretry =>
      have hreport := evaluate_report (s := s.bounded) (hdecode.trans hd) (Bool.eq_false_of_not_eq_true hretry)
      exact hreport.trans (congrArg _ (loopTop_bounded (reportError e s)))

/-- Past 264 bytes both keep what they have kept (R143). -/
theorem receiveByte_bounded (b : Byte) (s : State) : receiveByte b s.bounded
    = (unboundedAppend b { s with rxNew := if s.rxState = .readCont then true else s.rxNew }).bounded := by
  rcases Nat.lt_or_ge s.rxBuf.length 264 with hroom | hfull
  · have hkept : s.bounded.rxBuf = s.rxBuf := List.take_of_length_le hroom.le
    have hfits : (s.rxBuf ++ [b]).length ≤ 264 := by simp; omega
    rw [receiveByte_of_room b (by rw [hkept]; exact hroom), hkept]
    unfold unboundedAppend State.bounded
    dsimp only
    rw [List.take_of_length_le hfits, decide_eq_false hroom.le.not_gt, decide_eq_false hfits.not_gt]
  · have hkept : s.bounded.rxBuf.length = 264 := List.length_take_of_le hfull
    have hlong : 264 < (s.rxBuf ++ [b]).length := by simp; omega
    rw [receiveByte_of_full b hkept.ge]
    unfold unboundedAppend State.bounded
    dsimp only
    rw [List.take_append_of_le_length hfull, decide_eq_true hlong]

theorem readEnded_bounded {s : State} (hr : rxReading s.rxState = true) :
    readEnded s.bounded = .next (unboundedReadEnded s).bounded := by
  have hempty : (decide (s.bounded.rxBuf.length = 0) && !s.bounded.rxOver) = decide (s.rxBuf.length = 0) := by
    cases hbuf : s.rxBuf <;> simp [State.bounded, hbuf]
  unfold unboundedReadEnded
  by_cases hx : s.rxState = .readCont
  · rw [readEnded_cont (s := s.bounded) hx, if_pos hx, evaluate_bounded hr, bounded_rxNew, bounded_rxPendErr,
      reportError_bounded, loopTop_bounded]
    split <;> rfl
  · rw [readEnded, if_neg (by exact hx), if_neg hx, hempty, evaluate_bounded hr, loopTop_bounded]
    simp only [decide_eq_true_eq]
    split <;> rfl

theorem readOutcome_bounded {s : State} (hr : rxReading s.rxState = true) (o : RxOutcome) :
    readOutcome o s.bounded = .next (unboundedRead s o).bounded := by
  unfold unboundedRead
  rw [if_pos hr]
  cases o with
  | byte b =>
    dsimp only
    rw [readOutcome_byte, receiveByte_bounded, readCont_mark]
    split
    · exact evaluate_bounded hr
    · rfl
  | timeout => exact readEnded_bounded hr
  | endOfStream => exact readEnded_bounded hr
  | fault => rfl

theorem boundedRead_bounded (s : State) (o : RxOutcome) : boundedRead s.bounded o = (unboundedRead s o).bounded := by
  by_cases hr : rxReading s.rxState = true
  · exact (if_pos hr).trans (by rw [readOutcome_bounded hr])
  · exact (if_neg hr).trans (congrArg _ (if_neg hr).symm)

/-- Settles O35: each outcome keeps the two engines beside one another. -/
theorem boundedBufferKeepsEveryOutcome : Obligations.BoundedBufferKeepsEveryOutcome := by
  unfold Obligations.BoundedBufferKeepsEveryOutcome
  intro s os hover hlen
  have hfold := List.foldl_hom State.bounded boundedRead_bounded (l := os) (init := s)
  rw [bounded_self hover hlen] at hfold
  exact hfold

/-! ### The receive engine takes a frame byte by byte (R160) -/

/-- Of a frame that is arriving in the read cycle of s, `got` has been received and `left` is to come, then `rest`; the
turns to come are the receive engine's for each byte left, then `turns`; the rest of what a dispatch reads and the traces
are those of s. -/
structure FrameProgress (s : State) (got left : List Byte) (rest : List RxOutcome) (turns : List Turn) (t : State) :
    Prop where
  reading : rxReading t.rxState = true
  rxBuf : t.rxBuf = got
  rxOver : t.rxOver = false
  rxIn : t.rxIn = stimRx left ++ rest
  schedule : t.schedule = List.replicate left.length .receive ++ turns
  station : t.station = s.station
  regs : t.regs = s.regs
  cancelReq : t.cancelReq = s.cancelReq
  errTrace : t.errTrace = s.errTrace
  errCount : t.errCount = s.errCount
  dispatchTrace : t.dispatchTrace = s.dispatchTrace

section
variable {s t : State} {got left : List Byte} {b : Byte} {rest : List RxOutcome} {turns : List Turn}

/-- A byte of the frame is the next outcome, and the turn is the receive engine's. -/
theorem step_frameByte {u : State} (h : FrameProgress s got (b :: left) rest turns t)
    (hread : readOutcome (.byte b) (popRx (beginStep t)) = .next u) : step t = .next (endStep u) := by
  have hturn : nextTurn t = .receive := by rw [nextTurn, h.schedule]; rfl
  have hrx : nextRx (beginStep t) = .byte b := by rw [nextRx, beginStep_rxIn, h.rxIn]; rfl
  exact step_reading hturn h.reading (hrx ▸ hread)

theorem frameProgress_receiveByte (hlen : got.length < 264) (h : FrameProgress s got (b :: left) rest turns t) :
    FrameProgress s (got ++ [b]) left rest turns (receiveByte b (popRx (beginStep t))) := by
  have hroom : (popRx (beginStep t)).rxBuf.length < 264 := by rw [← h.rxBuf] at hlen; exact hlen
  rw [receiveByte_of_room b hroom]
  exact { h with
    rxBuf := congrArg (· ++ [b]) h.rxBuf
    rxIn := congrArg List.tail h.rxIn
    schedule := congrArg List.tail h.schedule }

variable {d o c : Byte} {p : List Byte}

/-- A byte that leaves the frame unfinished leaves the engine reading, whatever its value (R154, R160). -/
theorem frameProgress_step (hp : p.length ≤ 255) (hleft : left ≠ []) (hframe : got ++ b :: left = Frame.encode d o c p)
    (h : FrameProgress s got (b :: left) rest turns t) :
    ∃ u, step t = .next u ∧ FrameProgress s (got ++ [b]) left rest turns u := by
  have hbyte : got ++ [b] ++ left = Frame.encode d o c p := by simpa using hframe
  have hlt := length_lt_of_append_eq_encode (List.cons_ne_nil _ _) hframe
  have hu := frameProgress_receiveByte (by omega) h
  have hread := readOutcome_byte b (popRx (beginStep t))
  split at hread
  · next heot =>
    obtain ⟨e, he, hd⟩ := decode_unfinished t.station hp hleft hbyte
    rw [← hu.rxBuf, ← hu.rxOver] at hd
    have hretry := retryNeeded_iff.mpr ⟨he, heot⟩
    exact ⟨_, step_frameByte h (hread.trans (evaluate_retry hd hretry)), { hu with reading := rfl }⟩
  · exact ⟨_, step_frameByte h hread, { hu with }⟩

/-- The last byte of a frame for this station dispatches its message (R153, R174). -/
theorem step_frameLastByte (hp : p.length ≤ 255) (hdest : Frame.accepts s.station d = true)
    (hframe : got ++ [b] = Frame.encode d o c p) (h : FrameProgress s got [b] rest turns t) :
    ∃ u, step t = .next (endStep (dispatch (Message.of d o c p) u)) ∧ FrameProgress s (got ++ [b]) [] rest turns u := by
  have hlt := length_lt_of_append_eq_encode (List.cons_ne_nil _ _) hframe
  have hu := frameProgress_receiveByte (by omega) h
  have heot : b = Frame.eot := by
    have hlast := congrArg List.getLast? hframe
    rw [Frame.encode, List.getLast?_append, List.getLast?_append] at hlast
    exact Option.some.inj hlast
  have hd := decode_encode o c hp hdest
  rw [← hframe, ← hu.rxBuf, ← hu.rxOver, ← hu.station] at hd
  have hread := (readOutcome_byte b (popRx (beginStep t))).trans (if_pos heot)
  exact ⟨_, step_frameByte h (hread.trans (evaluate_message hu.reading hd)), hu⟩

/-- The receive turns that take what is left of a frame for this station end in the dispatch of its message. -/
theorem run_frame (hp : p.length ≤ 255) (hdest : Frame.accepts s.station d = true) (hleft : left ≠ [])
    (hframe : got ++ left = Frame.encode d o c p) (h : FrameProgress s got left rest turns t) :
    ∃ u, core.run left.length t = .next (endStep (dispatch (Message.of d o c p) u)) ∧
      FrameProgress s (got ++ left) [] rest turns u := by
  induction left generalizing got t with
  | nil => exact absurd rfl hleft
  | cons b left ih =>
    by_cases hlast : left = []
    · subst hlast
      obtain ⟨u, hstep, hu⟩ := step_frameLastByte hp hdest hframe h
      exact ⟨u, run_succ (M := core) 0 hstep, hu⟩
    · obtain ⟨t', hstep, ht'⟩ := frameProgress_step hp hlast hframe h
      obtain ⟨u, hrun, hu⟩ := ih hlast (by simpa using hframe) ht'
      exact ⟨u, (run_succ (M := core) _ hstep).trans hrun, by simpa using hu⟩

end

/-- Settles O34: the bytes one by one, then the dispatch of the message by its registry entry. -/
theorem truncationRecovery : Obligations.TruncationRecovery := by
  unfold Obligations.TruncationRecovery
  intro s d o c p rest turns hp hdest hx hbuf hover hrx hsched
  have hstart : FrameProgress s [] (Frame.encode d o c p) rest turns s := {
    reading := by rw [hx]; rfl
    rxBuf := hbuf
    rxOver := hover
    rxIn := hrx
    schedule := by rw [encode_length]; exact hsched
    station := rfl
    regs := rfl
    cancelReq := rfl
    errTrace := rfl
    errCount := rfl
    dispatchTrace := rfl }
  obtain ⟨u, hrun, hu⟩ := run_frame hp ((accepts_iff _ _).mpr hdest) (encode_ne_nil d o c p) (List.nil_append _) hstart
  rw [encode_length] at hrun
  have hentry : regEntry u (Message.of d o c p).cmd = regEntry s c := regEntry_congr hu.regs c
  have hin : u.rxIn = rest := hu.rxIn
  have hturns : u.schedule = turns := hu.schedule
  refine ⟨_, hrun, ?_⟩
  rcases dispatch_cases (Message.of d o c p) u with ⟨hkind, hd⟩ | ⟨hkind, hd⟩ | ⟨hkind, hd⟩ <;>
    simp only [hentry] at hkind hd <;> rw [hd]
  · simp [hkind, hin, hturns, hu.errTrace, hu.errCount, hu.dispatchTrace, hu.cancelReq]
  · simp [hkind, hin, hturns, hu.errTrace, hu.errCount, hu.dispatchTrace]
  · simp [hkind, hin, hturns, hu.errTrace, hu.errCount, hu.dispatchTrace, Message.of]

/-! ### Steps of an engine that is not reading (R140) -/

/-- A turn that does not read the transport's answers leaves them, and is the same whatever they are. -/
theorem next_withTransport {f : State → Host.Outcome State Fault Refusal} {s t : State}
    (hf : ∀ rx tx, f (s.withTransport rx tx) = afterNext (State.withTransport rx tx) (f s)) (h : f s = .next t)
    (rx : List RxOutcome) : f (s.withTransport rx s.txIn) = .next (t.withTransport rx t.txIn) := by
  have hself := hf s.rxIn s.txIn
  rw [withTransport_self, h, afterNext_next] at hself
  have htx : t.txIn = s.txIn := (congrArg State.txIn (Host.Outcome.next.inj hself) :)
  rw [hf, h, htx]
  rfl

/-- Outside the reading states no turn reads what the transport has received: the agents make no read, and a reset keeps
the environment (log 21). -/
theorem runTurn_withRx {turn : Turn} {s t : State} (hr : rxReading s.rxState = false) (h : runTurn turn s = .next t)
    (rx : List RxOutcome) : runTurn turn (s.withTransport rx s.txIn) = .next (t.withTransport rx t.txIn) := by
  cases turn with
  | host => exact next_withTransport (fun rx tx => hostTurn_withTransport rx tx s) h rx
  | receive => exact next_withTransport (fun rx tx => receiveTurn_withTransport rx tx hr) h rx
  | transmit first => cases h; exact congrArg _ (transmitTurn_withRx rx first s)
  | reset p =>
    obtain ⟨hp, rfl⟩ := runTurn_reset h
    exact if_neg hp

/-- Settles O33: what the turn does is done whatever the transport holds, so also where it holds what it held. -/
theorem noReadOutsideReadingStates : Obligations.NoReadOutsideReadingStates := by
  unfold Obligations.NoReadOutsideReadingStates
  intro s t hr h
  obtain ⟨u, hu, rfl⟩ := step_next h
  have hkeep := runTurn_withRx (s := beginStep s) hr hu
  have hsame : u = u.withTransport s.rxIn u.txIn := Host.Outcome.next.inj (hu.symm.trans (hkeep s.rxIn))
  have hin : u.rxIn = s.rxIn := (congrArg State.rxIn hsame :)
  exact ⟨hin, fun rx => step_of_turn (s := { s with rxIn := rx }) (hkeep rx)⟩

end Sys2Proof.Machine

namespace Sys2Proof.Machine

/-! ### LoopTop's two branches (R150) -/

theorem loopTop_continues {s : State} (h : s.cancelReq = false) : loopTop s = { s with
    rxBuf := [], rxOver := false, rxNew := false, rxState := .readFirst } :=
  if_neg (ne_true_of_eq_false h)

theorem loopTop_stops {s : State} (h : s.cancelReq = true) :
    loopTop s = { s with cancelReq := false, rxState := .stopped } :=
  if_pos h

/-! ### The host commands (R180 to R186) -/

/-- In FATAL every command of a legal OP is refused (R244). -/
theorem exec_fatal {i : Instr} {s : State} (hi : isHostCommand i = true) (hlegal : ∀ op, i ≠ .reservedOp op)
    (hf : s.fatal = true) : exec i s = .next (setResult .fatal s) := by
  cases i with
  | start => exact if_pos hf
  | cancel => exact if_pos hf
  | register code hid kind => exact if_pos hf
  | send cmd dest => exact if_pos hf
  | broadcast cmd => exact if_pos hf
  | msgDone => exact if_pos hf
  | reservedOp op => exact absurd rfl (hlegal op)
  | _ => cases hi

/-! Out of FATAL each command is the choice its rule makes. -/

section
variable {s : State} (hf : s.fatal = false)
include hf

theorem exec_start : exec .start s = .next
    (if s.rxState ≠ .stopped then setResult .busy s else setResult .ok (loopTop s)) :=
  if_neg (ne_true_of_eq_false hf)

theorem exec_cancel : exec .cancel s = .next
    (if s.rxState = .stopped then setResult .ok s else setResult .ok { s with cancelReq := true }) :=
  if_neg (ne_true_of_eq_false hf)

theorem exec_register (code hid : Byte) (kind : BitVec 2) : exec (.register code hid kind) s = .next
    (if kind = 1 then setResult .ok (setRegEntry code { kind := .external, hid := hid } s)
    else if kind = 2 then setResult .ok (setRegEntry code { kind := .builtinPing, hid := 0 } s)
    else setResult .illegal s) :=
  if_neg (ne_true_of_eq_false hf)

theorem exec_send (cmd dest : Byte) : exec (.send cmd dest) s = .next
    (if s.hostTxPend then setResult .busy s
    else setResult .ok { s with hostTxPend := true, hostTxDest := dest, hostTxCmd := cmd }) :=
  if_neg (ne_true_of_eq_false hf)

theorem exec_msgDone : exec .msgDone s = .next
    (if s.msgPending then setResult .ok (returnFromHandler s) else setResult .illegal s) :=
  if_neg (ne_true_of_eq_false hf)

end

/-- BROADCAST and SEND to 0x00 are one request (R184). -/
theorem exec_broadcast (cmd : Byte) (s : State) : exec (.broadcast cmd) s = exec (.send cmd 0x00) s := rfl

/-- What a host command does, by the command: its result alone, or the effect of its own rule with result OK. -/
theorem exec_hostCommand_cases {i : Instr} {s t : State} (hi : isHostCommand i = true) (h : exec i s = .next t) :
    (∃ r, t = setResult r s) ∨ (i = .start ∧ t = setResult .ok (loopTop s)) ∨
    (i = .cancel ∧ t = setResult .ok { s with cancelReq := true }) ∨
    (∃ c b k e, i = .register c b k ∧ t = setResult .ok (setRegEntry c e s)) ∨
    (∃ c d, (i = .send c d ∨ i = .broadcast c) ∧
      t = setResult .ok { s with hostTxPend := true, hostTxDest := d, hostTxCmd := c }) ∨
    (i = .msgDone ∧ t = setResult .ok (returnFromHandler s)) := by
  by_cases hop : ∃ op, i = .reservedOp op
  · obtain ⟨op, rfl⟩ := hop
    cases h
    exact .inl ⟨_, rfl⟩
  rcases Bool.eq_false_or_eq_true s.fatal with hf | hf
  · rw [exec_fatal hi (not_exists.mp hop) hf] at h
    cases h
    exact .inl ⟨_, rfl⟩
  · cases i with
    | start =>
      rw [exec_start hf] at h
      cases h
      split
      · exact .inl ⟨_, rfl⟩
      · exact .inr (.inl ⟨rfl, rfl⟩)
    | cancel =>
      rw [exec_cancel hf] at h
      cases h
      split
      · exact .inl ⟨_, rfl⟩
      · exact .inr (.inr (.inl ⟨rfl, rfl⟩))
    | register c b k =>
      rw [exec_register hf] at h
      cases h
      split
      · exact .inr (.inr (.inr (.inl ⟨c, b, k, _, rfl, rfl⟩)))
      · split
        · exact .inr (.inr (.inr (.inl ⟨c, b, k, _, rfl, rfl⟩)))
        · exact .inl ⟨_, rfl⟩
    | send c d =>
      rw [exec_send hf] at h
      cases h
      split
      · exact .inl ⟨_, rfl⟩
      · exact .inr (.inr (.inr (.inr (.inl ⟨c, d, .inl rfl, rfl⟩))))
    | broadcast c =>
      rw [exec_broadcast, exec_send hf] at h
      cases h
      split
      · exact .inl ⟨_, rfl⟩
      · exact .inr (.inr (.inr (.inr (.inl ⟨c, _, .inr rfl, rfl⟩))))
    | msgDone =>
      rw [exec_msgDone hf] at h
      cases h
      split
      · exact .inr (.inr (.inr (.inr (.inr ⟨rfl, rfl⟩))))
      · exact .inl ⟨_, rfl⟩
    | reservedOp op => exact absurd ⟨op, rfl⟩ hop
    | _ => cases hi

/-! ### The host commands' statements -/

/-- Settles O20: each command's update writes only the fields of its rule. -/
theorem hostCommandFrame : Obligations.HostCommandFrame := by
  unfold Obligations.HostCommandFrame
  intro i s t hi h
  rcases exec_hostCommand_cases hi h with
    ⟨r, rfl⟩ | ⟨rfl, rfl⟩ | ⟨rfl, rfl⟩ | ⟨c, b, k, e, rfl, rfl⟩ | ⟨c, d, rfl | rfl, rfl⟩ | ⟨rfl, rfl⟩ <;>
    simp [returnFromHandler]

/-- Settles O11: the rule's branches, LoopTop's among them; a reset block is stopped and not fatal. -/
theorem startOutcome : Obligations.StartOutcome := by
  unfold Obligations.StartOutcome
  refine ⟨fun s => ⟨exec_fatal rfl nofun, fun hf hx => ?_, fun hf hx hc => ?_, fun hf hx hc => ?_⟩, fun p => ?_⟩
  · rw [exec_start hf, if_pos hx]
    rfl
  · rw [exec_start hf, if_neg (not_not_intro hx), loopTop_continues hc]
    rfl
  · rw [exec_start hf, if_neg (not_not_intro hx), loopTop_stops hc, ← hx]
    rfl
  · exact ⟨_, exec_start rfl, rfl, by simp [csrValue, statusWord, State.resetWith, loopTop, rxStateCode, rxRunning]⟩

/-- Settles O12: the rule's branches; LoopTop takes the request back. -/
theorem cancelOutcome : Obligations.CancelOutcome := by
  unfold Obligations.CancelOutcome
  refine fun s => ⟨exec_fatal rfl nofun, fun hf hx => ?_, fun hf hx => ⟨?_, loopTop_rxState _, loopTop_cancelReq _⟩⟩
  · rw [exec_cancel hf, if_pos hx]
    rfl
  · rw [exec_cancel hf, if_neg hx]
    rfl

/-- The word of an entry, KIND above HID (R35). -/
theorem csrValue_reg_of_entry {s : State} {c : Byte} {e : RegEntry} (h : regEntry s c = e) :
    csrValue (.reg c) s = (regKindCode e.kind).setWidth 32 <<< 8 ||| e.hid.setWidth 32 := by
  apply BitVec.eq_of_getLsbD_eq
  intro i hi
  simp only [csrValue, h, BitVec.getLsbD_setWidth, BitVec.getLsbD_append, BitVec.getLsbD_or, BitVec.getLsbD_shiftLeft]
  by_cases h8 : i < 8
  · simp [h8, hi]
  · simp [h8, hi, BitVec.getLsbD_of_ge e.hid i (by omega), show i - 8 < 32 by omega]

/-- Settles O13: the entry is read where it was written, and every other one is kept. -/
theorem registerOutcome : Obligations.RegisterOutcome := by
  unfold Obligations.RegisterOutcome
  refine fun s a b k => ⟨exec_fatal rfl nofun, fun hf h1 h2 => ?_, fun hf hk => ?_⟩
  · rw [exec_register hf, if_neg h1, if_neg h2]
    rfl
  · rcases hk with rfl | rfl
    · have hentry := regEntry_setRegEntry_same a { kind := .external, hid := b } s
      exact ⟨_, exec_register hf a b 1, rfl, fun _ => ⟨hentry, csrValue_reg_of_entry hentry⟩, nofun,
        fun c hc => regEntry_setRegEntry_other hc _ s⟩
    · have hentry := regEntry_setRegEntry_same a { kind := .builtinPing, hid := 0 } s
      exact ⟨_, exec_register hf a b 2, rfl, nofun, fun _ => ⟨hentry, csrValue_reg_of_entry hentry⟩,
        fun c hc => regEntry_setRegEntry_other hc _ s⟩

/-- SEND with no host frame pending (R183). -/
theorem exec_send_free {s : State} (hf : s.fatal = false) (hp : s.hostTxPend = false) (cmd dest : Byte) :
    exec (.send cmd dest) s = .next { s with
      hostTxPend := true, hostTxDest := dest, hostTxCmd := cmd, cmdResult := .ok } :=
  (exec_send hf cmd dest).trans (congrArg _ (if_neg (ne_true_of_eq_false hp)))

/-- With TX_LEN 0 the frame it leads to has no payload (R28, R201). -/
theorem exec_send_frame {s : State} (hf : s.fatal = false) (hp : s.hostTxPend = false) (hlen : s.txLen = 0)
    (cmd dest : Byte) :
    ∃ t, exec (.send cmd dest) s = .next t ∧ frameOf .host t = Frame.encode dest s.station cmd [] :=
  ⟨_, exec_send_free hf hp cmd dest, by simp [frameOf, hostPayload, hlen]⟩

/-- Settles O14: the rule's branches; the word is SEND 0x42, 0x05. -/
theorem sendOutcome : Obligations.SendOutcome := by
  unfold Obligations.SendOutcome
  refine ⟨fun s cmd dest => ⟨exec_fatal rfl nofun, fun hf hp => ?_, fun hf hp => exec_send_free hf hp cmd dest⟩,
    fun s hf hp hst hlen => ?_⟩
  · rw [exec_send hf, if_pos hp]
    rfl
  · have hword : decodeCommand 0x00420504 = .send 0x05 0x42 := decodeCommand_send rfl
    obtain ⟨t, hexec, hframe⟩ := exec_send_frame hf hp hlen 0x05 0x42
    rw [hst] at hframe
    exact ⟨t, hword ▸ hexec, hframe⟩

/-- Settles O15: the two commands are one request; the word is BROADCAST 0x41. -/
theorem broadcastIsSendToZero : Obligations.BroadcastIsSendToZero := by
  unfold Obligations.BroadcastIsSendToZero
  refine ⟨fun s cmd => exec_broadcast cmd s, fun s cmd hf hp => exec_send_free hf hp cmd 0x00, fun s hf hp hst hlen => ?_⟩
  have hword : decodeCommand 0x00004105 = .broadcast 0x41 := decodeCommand_broadcast rfl
  obtain ⟨t, hexec, hframe⟩ := exec_send_frame hf hp hlen 0x41 0x00
  rw [hst] at hframe
  exact ⟨t, hword ▸ hexec, hframe⟩

/-- With no message pending the message registers read 0 (R31, R32, R34). -/
theorem messageRegisters_of_not_pending {s : State} (h : s.msgPending = false) :
    csrValue .msgInfo s = 0 ∧ csrValue .msgHid s = 0 ∧ ∀ k, csrValue (.msgBuf k) s = 0 := by
  have hbyte : ∀ i, msgByte s i = 0 := fun i => by simp [msgByte, h]
  have hn : ¬ s.msgPending = true := ne_true_of_eq_false h
  refine ⟨if_neg hn, if_neg hn, fun k => ?_⟩
  simp only [csrValue, hbyte]
  rfl

/-- Settles O16: the rule's branches, LoopTop's among them; the message is no longer pending. -/
theorem msgDoneOutcome : Obligations.MsgDoneOutcome := by
  unfold Obligations.MsgDoneOutcome
  refine fun s => ⟨exec_fatal rfl nofun, fun hf hm => ?_, fun hf hm => ?_⟩
  · rw [exec_msgDone hf, if_neg (ne_true_of_eq_false hm)]
    rfl
  · rw [exec_msgDone hf, if_pos hm]
    refine ⟨_, rfl, fun hc => ?_, fun hc => ?_, messageRegisters_of_not_pending (loopTop_msgPending _)⟩
    · rw [returnFromHandler, loopTop_continues (s := { s with msgPending := false }) hc]
      rfl
    · rw [returnFromHandler, loopTop_stops (s := { s with msgPending := false }) hc]
      rfl

/-- Settles O17: such a word decodes to the reserved command, whose rule asks nothing of the state. -/
theorem reservedOpIsIllegal : Obligations.ReservedOpIsIllegal := by
  unfold Obligations.ReservedOpIsIllegal
  intro s w hop
  have hdecode := decodeCommand_reserved (decide_eq_true hop)
  exact ⟨hdecode, by rw [hdecode]; rfl⟩

/-- Settles O49: the host's access performs the command of the word. -/
theorem stepRunsTheHostCommand : Obligations.StepRunsTheHostCommand := by
  unfold Obligations.StepRunsTheHostCommand
  intro s w t hturn haccess hexec
  have hstmt : nextHost (beginStep s) = .access (.write 0x004 .w32 w) := haccess
  apply step_of_turn (u := respond (.write true) t)
  rw [hturn, runTurn, hostTurn, hstmt]
  exact hostAccess_write_cmd hexec

/-! ### A frame for this station, while the engine reads (R173, R174) -/

/-- The three classes of frame are the receiving of the message of their operands (R95). -/
theorem exec_frame_message {i : Instr} {d o c : Byte} {p : List Byte}
    (hi : (i = .rxPing d o p ∧ c = 0x05) ∨ (i = .rxPong d o p ∧ c = 0x06) ∨ i = .rxApp d o c p) (s : State) :
    exec i s = .next (receiveMessage (Message.of d o c p) s) := by
  rcases hi with ⟨rfl, rfl⟩ | ⟨rfl, rfl⟩ | rfl <;> rfl

/-- Such a frame is dispatched by the entry of its code. -/
theorem exec_frame_dispatch {i : Instr} {d o c : Byte} {p : List Byte} {s : State}
    (hr : rxReading s.rxState = true) (hd : d = s.station ∨ d = 0x00)
    (hi : (i = .rxPing d o p ∧ c = 0x05) ∨ (i = .rxPong d o p ∧ c = 0x06) ∨ i = .rxApp d o c p) :
    exec i s = .next (dispatch (Message.of d o c p) s) := by
  rw [exec_frame_message hi, receiveMessage, if_pos hr]
  exact congrArg _ (if_pos ((accepts_iff _ _).mpr hd))

/-- While a message is pending the engine's turn does nothing (R178, log 7). -/
theorem receiveTurn_dispatchExt {s : State} (h : s.rxState = .dispatchExt) : receiveTurn s = .next s := by
  simp [receiveTurn, h, rxReading]

/-- Settles O22: the dispatch to an external handler, and the message read back from the registers. -/
theorem externalFrameIsHandedToHost : Obligations.ExternalFrameIsHandedToHost := by
  unfold Obligations.ExternalFrameIsHandedToHost
  intro s d o c p i hr hd hkind hi
  have hexec := exec_frame_dispatch hr hd hi
  rw [dispatch_external hkind] at hexec
  obtain ⟨-, -, hpending, -⟩ := statusWord_flags (dispatchExternal (Message.of d o c p) (regEntry s c).hid s)
  refine ⟨_, hexec, rfl, by simp [csrValue, Message.of], by simp [csrValue, Message.of], fun k => rfl, fun hp j hj => ?_,
    hpending, rfl, receiveTurn_dispatchExt rfl⟩
  have hlen : j < (BitVec.ofNat 8 p.length).toNat := by rwa [len_toNat hp]
  rw [msgByte_eq_ite]
  exact if_pos ⟨rfl, hlen⟩

/-- Settles O23: the dispatch of a code without a handler is LoopTop; the reset registry by its entries. -/
theorem unregisteredFrameIsDropped : Obligations.UnregisteredFrameIsDropped := by
  unfold Obligations.UnregisteredFrameIsDropped
  refine ⟨fun s d o c p i hr hd hkind hi => ?_, fun p c hc => ?_⟩
  · rw [exec_frame_dispatch hr hd hi, dispatch_absent hkind]
    exact ⟨fun hc => congrArg _ (loopTop_continues hc), fun hc => congrArg _ (loopTop_stops hc)⟩
  · rw [regEntry_resetWith, if_neg hc]

/-- Settles O25: a whole frame is nothing, a report, or a dispatch by one of the three kinds of entry; a reading engine
was in no dispatch before. -/
theorem receivedFrameFrame : Obligations.ReceivedFrameFrame := by
  unfold Obligations.ReceivedFrameFrame
  intro i s t hi h
  obtain ⟨m, rfl⟩ : ∃ m, t = receiveMessage m s := by
    cases i with
    | rxPing d o p => cases h; exact ⟨_, rfl⟩
    | rxPong d o p => cases h; exact ⟨_, rfl⟩
    | rxApp d o c p => cases h; exact ⟨_, rfl⟩
    | _ => cases hi
  rcases receiveMessage_cases m s with ⟨-, e⟩ | ⟨-, -, e⟩ | ⟨hr, -, e⟩ <;> rw [e]
  · simp
  · simp
  · have hx : s.rxState ≠ .dispatchExt ∧ s.rxState ≠ .dispatchPing := by
      rcases (rxReading_iff _).mp hr with hx | hx <;> simp [hx]
    rcases dispatch_cases m s with ⟨-, e⟩ | ⟨-, e⟩ | ⟨-, e⟩ <;> rw [e]
    · simp
    · simp [hx]
    · simp [hx]

/-! ### A flow error (R172, R236) -/

/-- Settles O28: the report's fields, and LoopTop's two branches. -/
theorem flowErrorIsReportedAndLoopGoesOn : Obligations.FlowErrorIsReportedAndLoopGoesOn := by
  unfold Obligations.FlowErrorIsReportedAndLoopGoesOn
  refine ⟨by decide, fun s e hd hno => ?_⟩
  have hretry : retryNeeded e s.rxLast = false := by
    rw [or_comm, ← retryNeeded_iff] at hno
    exact Bool.eq_false_of_not_eq_true hno
  refine ⟨_, evaluate_report hd hretry, ?_⟩
  simp +contextual [csrValue, errValidO, errCodeO]

/-! ### The transmit engine (R201, R202) -/

/-- A pending host frame is written when it is named first or alone. -/
theorem chooseSource_host {first : TxSource} {s : State} (hf : s.fatal = false) (hp : s.hostTxPend = true)
    (h : first = .host ∨ s.pongReq = false) : chooseSource first s = some .host := by
  rcases h with rfl | h
  · simp [chooseSource, hf, hp]
  · simp [chooseSource, hf, hp, h]

/-- A pending PONG is written when it is named first or alone. -/
theorem chooseSource_pong {first : TxSource} {s : State} (hf : s.fatal = false) (hp : s.pongReq = true)
    (h : first = .pong ∨ s.hostTxPend = false) : chooseSource first s = some .pong := by
  rcases h with rfl | h
  · simp [chooseSource, hf, hp]
  · simp [chooseSource, hf, hp, h]

/-- An enabled transmit step is one write of the chosen frame, with the bookkeeping around it (log 5, log 6, log 26). -/
theorem step_transmit {first src : TxSource} {s : State} (hturn : nextTurn s = .transmit first)
    (hsrc : chooseSource first s = some src) :
    step s = .next (endStep (writeFrame src (nextTx s) (popTx (beginStep s)))) := by
  have hchoice : chooseSource first (beginStep s) = some src := hsrc
  apply step_of_turn
  rw [hturn, runTurn, transmitTurn, hchoice]
  rfl

/-- Settles O36: the chosen frame and its two outcomes. -/
theorem transmitStepWritesOneFrame : Obligations.TransmitStepWritesOneFrame := by
  unfold Obligations.TransmitStepWritesOneFrame
  intro s u first src f hf hsrc hturn hu
  obtain ⟨hchoice, rfl⟩ : chooseSource first s = some src ∧ f = frameOf src s := by
    rcases hsrc with ⟨rfl, hp, hfirst, hframe⟩ | ⟨rfl, hp, hfirst, hframe⟩
    · exact ⟨chooseSource_host hf hp hfirst, hframe⟩
    · exact ⟨chooseSource_pong hf hp hfirst, hframe⟩
  have hstep := step_transmit hturn hchoice
  subst hu
  refine ⟨fun hr hs => ?_, fun hr hs => ?_, fun hr => ?_⟩
  · subst hs
    rw [hstep, hr]
    rfl
  · subst hs
    rw [hstep, hr]
    rfl
  · rw [hstep, hr]
    cases src <;> rfl

/-- The step of a receive turn in DISPATCH_PING once the PONG has been written (R222). -/
theorem step_resumes {s : State} (hturn : nextTurn s = .receive) (hx : s.rxState = .dispatchPing)
    (hp : s.pongReq = false) (hf : s.fatal = false) : step s = .next (endStep (loopTop (beginStep s))) := by
  apply step_of_turn
  rw [hturn]
  simp [runTurn, receiveTurn, hx, hp, hf, rxReading]

/-- Settles O39: the write of the PONG, then the resumption. -/
theorem pongIsWrittenThenLoopResumes : Obligations.PongIsWrittenThenLoopResumes := by
  unfold Obligations.PongIsWrittenThenLoopResumes
  intro s turns txs hx hpong hf hc hsched htx
  have hturn : nextTurn s = .transmit .pong := by rw [nextTurn, hsched]; rfl
  have hok : nextTx s = .ok := by rw [nextTx, htx]; rfl
  obtain ⟨-, hwrite, -⟩ := transmitStepWritesOneFrame s _ .pong .pong _ hf (.inr ⟨rfl, hpong, .inl rfl, rfl⟩) hturn rfl
  obtain ⟨u, hstep, hsched', htrace, hpong', hx', hf', hc', hhost⟩ : ∃ u, step s = .next u ∧
      u.schedule = .receive :: turns ∧ u.txTrace = s.txTrace ++ [(Frame.encode s.pongDest s.station 0x06 [], .ok)] ∧
      u.pongReq = false ∧ u.rxState = .dispatchPing ∧ u.fatal = false ∧ u.cancelReq = false ∧
      u.hostTxPend = s.hostTxPend :=
    ⟨_, hwrite hok rfl, congrArg List.tail hsched, by rw [hok], rfl, hx, hf, hc, rfl⟩
  have hturn' : nextTurn u = .receive := by rw [nextTurn, hsched']; rfl
  have hrun : core.run 2 s = .next (endStep (loopTop (beginStep u))) :=
    (run_succ (M := core) 1 hstep).trans (run_succ (M := core) 0 (step_resumes hturn' hx' hpong' hf'))
  exact ⟨_, hrun, by simp [htrace, hpong', hc', hhost]⟩

/-! ### Steps that make no write, and steps in a dispatch (R178, R203, R239) -/

/-- No host command writes a trace or the error counter. -/
theorem traces_command {i : Instr} {s t : State} (h : CommandUpdate i s t) : t.txTrace = s.txTrace ∧
    t.errTrace = s.errTrace ∧ t.errCount = s.errCount ∧ t.dispatchTrace = s.dispatchTrace := by
  rcases h with ⟨r, rfl⟩ | ⟨rfl, -⟩ | ⟨rfl, -⟩ | ⟨c, -, -, e, -, rfl, -⟩ | ⟨c, d, rfl, -⟩ | ⟨rfl, -⟩ <;>
    simp [returnFromHandler]

/-- The host's access writes neither: it reads the block, stores to a register, or performs a command. -/
theorem traces_hostTurn {s t : State} (h : hostTurn s = .next t) : t.txTrace = s.txTrace ∧
    t.errTrace = s.errTrace ∧ t.errCount = s.errCount ∧ t.dispatchTrace = s.dispatchTrace := by
  rcases hostTurn_update h with ⟨r, p, rfl⟩ | ⟨r, w, u, -, hu, rfl⟩ | ⟨r, c, v, rfl⟩
  · simp
  · exact (traces_command hu :)
  · simp

theorem txTrace_read {s t : State} (h : ReadUpdate s t) : t.txTrace = s.txTrace := by
  rcases h with rfl | ⟨e, rfl⟩ | rfl | ⟨m, hid, rfl⟩ | ⟨m, rfl⟩ | ⟨e, rfl⟩ <;> simp

theorem txTrace_receiveTurn {s t : State} (h : receiveTurn s = .next t) : t.txTrace = s.txTrace := by
  rcases receiveTurn_update h with rfl | ⟨rfl, -⟩ | ⟨-, rfl | hu | ⟨b, n, hu⟩⟩
  · rfl
  · exact loopTop_txTrace s
  · rfl
  · exact (txTrace_read hu :)
  · exact (txTrace_read hu :)

/-- A transmit step reports nothing and dispatches nothing. -/
theorem transmitTurn_keeps_reports (first : TxSource) (s : State) :
    (transmitTurn first s).errTrace = s.errTrace ∧ (transmitTurn first s).errCount = s.errCount ∧
    (transmitTurn first s).dispatchTrace = s.dispatchTrace := by
  rcases transmitTurn_cases first s with ⟨-, e⟩ | ⟨src, -, -, -, -, ⟨-, e⟩ | ⟨-, e⟩⟩ <;> rw [e]
  · simp
  · cases src <;> simp [clearSource]
  · simp

/-- Settles O59: no read is made (R140); the host and the transmit engine report and dispatch nothing, and the receive
engine's turn is at most the return from the Ping Responder. -/
theorem dispatchIsSerialised : Obligations.DispatchIsSerialised := by
  unfold Obligations.DispatchIsSerialised
  intro s t hx hr h
  have hreading : rxReading s.rxState = false := by rcases hx with hx | hx <;> rw [hx] <;> rfl
  obtain ⟨hrx, hsame⟩ := noReadOutsideReadingStates s t hreading h
  have hkeep : t.errTrace = s.errTrace ∧ t.errCount = s.errCount ∧ t.dispatchTrace = s.dispatchTrace := by
    cases step_running (running_not_reset hr) h with
    | host _ run =>
      obtain ⟨-, hreports⟩ := traces_hostTurn run
      exact (hreports :)
    | receive _ run =>
      rcases receiveTurn_cases (beginStep s) with ⟨hr', -⟩ | ⟨-, -, e⟩ | ⟨-, -, e⟩
      · rw [beginStep_rxState, hreading] at hr'
        cases hr'
      · rw [e] at run
        cases run
        simp
      · rw [e] at run
        cases run
        simp
    | transmit first _ => exact (transmitTurn_keeps_reports first (beginStep s) :)
  obtain ⟨herr, hcount, hdispatch⟩ := hkeep
  exact ⟨hrx, herr, hcount, hdispatch, hsame⟩

/-- A turn that is the same whatever the transport would answer to a write takes none of its answers, and so does its
step. -/
theorem step_withTx {turn : Turn} {s u : State} (hturn : nextTurn s = turn) (hu : runTurn turn (beginStep s) = .next u)
    (h : ∀ tx, runTurn turn ((beginStep s).withTransport s.rxIn tx) = .next (u.withTransport u.rxIn tx)) :
    (endStep u).txIn = s.txIn ∧ ∀ tx, step { s with txIn := tx } = .next { endStep u with txIn := tx } := by
  subst hturn
  have hsame : u = u.withTransport u.rxIn s.txIn := Host.Outcome.next.inj (hu.symm.trans (h s.txIn))
  have htx : u.txIn = s.txIn := (congrArg State.txIn hsame :)
  exact ⟨htx, fun tx => step_of_turn (s := { s with txIn := tx }) (h tx)⟩

theorem hostTurn_withTx (tx : List TxOutcome) {s t : State} (h : hostTurn s = .next t) :
    hostTurn (s.withTransport s.rxIn tx) = .next (t.withTransport t.rxIn tx) := by
  have hself := hostTurn_withTransport s.rxIn s.txIn s
  rw [withTransport_self, h, afterNext_next] at hself
  have hrx : t.rxIn = s.rxIn := (congrArg State.rxIn (Host.Outcome.next.inj hself) :)
  rw [hostTurn_withTransport, h, hrx]
  rfl

/-- An enabled transmit step appends the frame with the transport's outcome, which it takes (R201). -/
theorem transmitTurn_writes {first src : TxSource} {s : State} (h : chooseSource first s = some src) :
    (transmitTurn first s).txTrace = s.txTrace ++ [(frameOf src s, nextTx s)] ∧
    (transmitTurn first s).txIn = s.txIn.tail := by
  rw [transmitTurn, h]
  cases src <;> cases nextTx s <;> exact ⟨rfl, rfl⟩

/-- Settles O37: the host and the receive engine write nothing, and the transmit engine only when it is enabled. -/
theorem onlyTransmitStepsWrite : Obligations.OnlyTransmitStepsWrite := by
  unfold Obligations.OnlyTransmitStepsWrite
  intro s t hr h
  cases step_running (running_not_reset hr) h with
  | host turn run =>
    obtain ⟨htrace, -⟩ := traces_hostTurn run
    exact .inl ⟨htrace, step_withTx turn run fun tx => hostTurn_withTx tx run⟩
  | receive turn run =>
    have htrace := txTrace_receiveTurn run
    exact .inl ⟨htrace, step_withTx turn run fun tx => receiveTurn_withTx tx run⟩
  | transmit first turn =>
    rcases transmitTurn_cases first (beginStep s) with ⟨hnone, e⟩ | ⟨src, hsome, hf, hhost, hpong, -⟩
    · rw [e]
      have hsame : ∀ tx, transmitTurn first ((beginStep s).withTransport s.rxIn tx)
          = (beginStep s).withTransport s.rxIn tx := fun tx => by rw [transmitTurn_withTransport _ _ hnone, e]
      exact .inl ⟨rfl, step_withTx turn (congrArg _ e) fun tx => congrArg _ (hsame tx)⟩
    · obtain ⟨htrace, htx⟩ := transmitTurn_writes hsome
      have hframe : frameOf src (beginStep s) = frameOf src s := by cases src <;> rfl
      rw [hframe] at htrace
      exact .inr ⟨first, src, turn, hf, hhost, hpong, htrace, htx⟩

end Sys2Proof.Machine

namespace Sys2Proof.Machine

/-! ### The Ping Responder (R220 to R222) -/

/-- Any class of frame whose code has the Ping Responder for its handler asks for a PONG to its origin (R220, R224). -/
theorem exec_frame_builtinPing {i : Instr} {d o c : Byte} {p : List Byte} {s : State}
    (hr : rxReading s.rxState = true) (hd : d = s.station ∨ d = 0x00) (hkind : (regEntry s c).kind = .builtinPing)
    (hi : (i = .rxPing d o p ∧ c = 0x05) ∨ (i = .rxPong d o p ∧ c = 0x06) ∨ i = .rxApp d o c p) :
    exec i s = .next { s with pongReq := true, pongDest := o, rxState := .dispatchPing } := by
  rw [exec_frame_dispatch hr hd hi, dispatch_builtin hkind]
  rfl

/-- The PONG's nine bytes: an empty payload, and the checksum as a sum of bytes (R111, R221). -/
theorem frameOf_pong (s : State) : frameOf .pong s
    = [0x01, s.pongDest, s.station, 0x06, 0x00, 0x02, 0x03, s.pongDest + s.station + 0x06, 0x04] := by
  have hsum : checksum s.pongDest s.station 0x06 0x00 [] = s.pongDest + s.station + 0x06 := by
    simp [checksum_eq_sum]
  rw [← hsum]
  rfl

/-- Settles O21: the three classes by their code, and the frame of the request. -/
theorem pingIsAnsweredWithPong : Obligations.PingIsAnsweredWithPong := by
  unfold Obligations.PingIsAnsweredWithPong
  intro s d o c p hr hd
  refine ⟨fun hkind => ?ping, fun hkind => ?pong, fun hkind => ?app, fun t ht => ?frame⟩
  case ping => exact exec_frame_builtinPing hr hd hkind (.inl ⟨rfl, rfl⟩)
  case pong => exact exec_frame_builtinPing hr hd hkind (.inr (.inl ⟨rfl, rfl⟩))
  case app => exact exec_frame_builtinPing hr hd hkind (.inr (.inr rfl))
  case frame => rw [frameOf_pong, ht]

/-- In DISPATCH_PING the engine's turn waits for the PONG, and for ever in FATAL (R222, R244, log 7). -/
theorem receiveTurn_dispatchPing {s : State} (h : s.rxState = .dispatchPing) :
    receiveTurn s = .next (if s.pongReq = false ∧ s.fatal = false then loopTop s else s) := by
  rcases receiveTurn_cases s with ⟨hr, -⟩ | ⟨-, ⟨-, hdone⟩, e⟩ | ⟨-, hwait, e⟩
  · rw [h] at hr
    cases hr
  · rw [e, if_pos hdone]
  · rw [e, if_neg fun hdone => hwait ⟨h, hdone⟩]

/-- Settles O38: the turn's condition in each of the three cases. -/
theorem loopResumesAfterPong : Obligations.LoopResumesAfterPong := by
  unfold Obligations.LoopResumesAfterPong
  intro s hx
  rw [receiveTurn_dispatchPing hx]
  refine ⟨fun hpong hfatal => ?written, fun hpong => ?pending, fun hfatal => ?fatal⟩
  case written => rw [if_pos ⟨hpong, hfatal⟩]
  case pending => simp [hpong]
  case fatal => simp [hfatal]

end Sys2Proof.Machine

namespace Sys2Proof.Machine

/-! ### CMD_RESULT as every CMD write leaves it (R26, R245) -/

/-- What a host writes to CMD is one of the seven host commands (R95). -/
theorem isHostCommand_decodeCommand (w : Word) : isHostCommand (decodeCommand w) = true := by
  unfold decodeCommand
  split <;> rfl

theorem legalCommand_setResult {body : State → State} (r : CmdResult) (h : ∀ s, body (setResult r s) = body s)
    (s : State) : legalCommand body (setResult r s) = legalCommand body s := by
  unfold legalCommand
  rw [setResult_fatal, h]
  rfl

theorem loopTop_setResult (r : CmdResult) (s : State) : loopTop (setResult r s) = setResult r (loopTop s) := by
  unfold loopTop
  rw [setResult_cancelReq]
  split <;> rfl

/-- A host command does not read the result of the command before it: it writes its own over it. -/
theorem exec_setResult {i : Instr} (hi : isHostCommand i = true) (r : CmdResult) (s : State) :
    exec i (setResult r s) = exec i s := by
  cases i with
  | start =>
    simp only [exec, execStart]
    refine legalCommand_setResult r (fun s => ?_) s
    rw [loopTop_setResult]
    rfl
  | cancel =>
    simp only [exec, execCancel]
    exact legalCommand_setResult r (fun _ => rfl) s
  | register code hid kind =>
    simp only [exec, execRegister]
    exact legalCommand_setResult r (fun _ => rfl) s
  | send cmd dest => exact legalCommand_setResult r (fun _ => rfl) s
  | broadcast cmd => exact legalCommand_setResult r (fun _ => rfl) s
  | msgDone =>
    simp only [exec, execMsgDone]
    refine legalCommand_setResult r (fun s => ?_) s
    have hreturn : returnFromHandler (setResult r s) = setResult r (returnFromHandler s) :=
      loopTop_setResult r { s with msgPending := false }
    rw [hreturn]
    rfl
  | reservedOp op => rfl
  | _ => cases hi

/-- A command completes with OK, or writes its result alone (R245). -/
theorem commandUpdate_result {i : Instr} {s t : State} (h : CommandUpdate i s t) :
    t.cmdResult = .ok ∨ t = setResult t.cmdResult s := by
  rcases h with ⟨r, rfl⟩ | ⟨rfl, -⟩ | ⟨rfl, -⟩ | ⟨_, _, _, _, -, rfl, -⟩ | ⟨_, _, rfl, -⟩ | ⟨rfl, -⟩
  · exact .inr rfl
  all_goals exact .inl rfl

/-- The four values of CMD_RESULT and what it reads as for each (R26). -/
theorem csrValue_cmdResult_cases (s : State) :
    (s.cmdResult = .ok ∧ csrValue .cmdResult s = 0) ∨ (s.cmdResult = .busy ∧ csrValue .cmdResult s = 1) ∨
    (s.cmdResult = .illegal ∧ csrValue .cmdResult s = 2) ∨ (s.cmdResult = .fatal ∧ csrValue .cmdResult s = 3) := by
  have hread : csrValue .cmdResult s = (cmdResultCode s.cmdResult).setWidth 32 := rfl
  rw [hread]
  cases s.cmdResult with
  | ok => exact .inl ⟨rfl, rfl⟩
  | busy => exact .inr (.inl ⟨rfl, rfl⟩)
  | illegal => exact .inr (.inr (.inl ⟨rfl, rfl⟩))
  | fatal => exact .inr (.inr (.inr ⟨rfl, rfl⟩))

/-- Settles O18: a command overwrites the result it finds, and any update but its result comes with OK. -/
theorem refusedCommandOnlyWritesResult : Obligations.RefusedCommandOnlyWritesResult := by
  unfold Obligations.RefusedCommandOnlyWritesResult
  intro w s
  obtain ⟨t, ht⟩ := exec_next (decodeCommand w) s
  refine ⟨t, ht, fun r => ?_, csrValue_cmdResult_cases t, fun hrefused => ?_⟩
  · exact (exec_setResult (isHostCommand_decodeCommand w) r s).trans ht
  · exact (commandUpdate_result (exec_command_update ht)).resolve_left hrefused

/-! ### FATAL, from its entry to reset (R244) -/

/-- An OP in 1..6 is no reserved one (R91). -/
theorem decodeCommand_ne_reservedOp {w : Word} (h1 : 1 ≤ (Cmd.op w).toNat) (h6 : (Cmd.op w).toNat ≤ 6) (op : Byte) :
    decodeCommand w ≠ .reservedOp op := by
  interval_cases hop : (Cmd.op w).toNat <;> simp [decodeCommand, hop]

/-- A store neither reads nor writes `fatal` (R66, R244). -/
theorem csrStore_withFatal (r : Csr) (v : Word) (s : State) (f : Bool) :
    csrStore r v { s with fatal := f } = { csrStore r v s with fatal := f } := by
  cases r with
  | txLen =>
    simp only [csrStore]
    split <;> rfl
  | txBuf k =>
    simp only [csrStore]
    split <;> rfl
  | _ => rfl

/-- STATUS is the one register that shows `fatal` (R25). -/
theorem csrValue_withFatal {r : Csr} (hr : r ≠ .status) (s : State) (f : Bool) :
    csrValue r { s with fatal := f } = csrValue r s := by
  cases r with
  | status => exact absurd rfl hr
  | _ => rfl

/-- The end of a read leaves `fatal`: only a transport Fault enters FATAL (R240). -/
theorem fatal_read {s t : State} (h : ReadUpdate s t) : t.fatal = s.fatal := by
  rcases h with rfl | ⟨e, rfl⟩ | rfl | ⟨m, hid, rfl⟩ | ⟨m, rfl⟩ | ⟨e, rfl⟩
  · rfl
  · exact loopTop_fatal (reportError e s)
  · exact loopTop_fatal s
  · rfl
  · rfl
  · rfl

theorem fatal_command {i : Instr} {s t : State} (h : CommandUpdate i s t) : t.fatal = s.fatal := by
  rcases h with ⟨r, rfl⟩ | ⟨rfl, -⟩ | ⟨rfl, -⟩ | ⟨_, _, _, _, -, rfl, -⟩ | ⟨_, _, rfl, -⟩ | ⟨rfl, -⟩
  · rfl
  · exact loopTop_fatal s
  · rfl
  · rfl
  · rfl
  · exact loopTop_fatal { s with msgPending := false }

theorem fatal_hostTurn {s t : State} (h : hostTurn s = .next t) : t.fatal = s.fatal := by
  rcases hostTurn_update h with ⟨r, p, rfl⟩ | ⟨r, w, u, -, hu, rfl⟩ | ⟨r, c, v, rfl⟩
  · rfl
  · exact (fatal_command hu :)
  · exact csrStore_fatal c v (popHost s)

/-- The receive engine enters FATAL on a read Fault and never leaves it (R145, R244). -/
theorem fatal_receiveTurn {s t : State} (hf : s.fatal = true) (h : receiveTurn s = .next t) : t.fatal = true := by
  rcases receiveTurn_update h with rfl | ⟨rfl, -⟩ | ⟨-, rfl | hu | ⟨b, n, hu⟩⟩
  · exact hf
  · rwa [loopTop_fatal]
  · rfl
  · exact (fatal_read hu).trans hf
  · exact (fatal_read hu).trans hf

/-- The transmit engine is not enabled in FATAL (R201). -/
theorem transmitTurn_fatal {s : State} (hf : s.fatal = true) (first : TxSource) : transmitTurn first s = s := by
  rcases transmitTurn_cases first s with ⟨-, e⟩ | ⟨src, -, hnot, -⟩
  · exact e
  · rw [hf] at hnot
    cases hnot

theorem fatal_step {s t : State} (hf : s.fatal = true) (hr : (nextTurn s).running = true) (h : step s = .next t) :
    t.fatal = true := by
  cases step_running (running_not_reset hr) h with
  | host _ run => exact (fatal_hostTurn run).trans hf
  | receive _ run => exact (fatal_receiveTurn (s := beginStep s) hf run :)
  | transmit first _ =>
    rw [transmitTurn_fatal (s := beginStep s) hf]
    exact hf

/-- Settles O19: the refusals of the command's head, the registers that do not show `fatal`, and the agents' turns. -/
theorem fatalRefusesCommandsUntilReset : Obligations.FatalRefusesCommandsUntilReset := by
  unfold Obligations.FatalRefusesCommandsUntilReset
  refine ⟨fun w s hf h1 h6 => ?legal, fun w s _ hop => ?reserved, fun r v s f => ?registers, fun s t hf hr h => ?step⟩
  case legal => exact exec_fatal (isHostCommand_decodeCommand w) (decodeCommand_ne_reservedOp h1 h6) hf
  case reserved =>
    obtain ⟨-, hexec⟩ := reservedOpIsIllegal s w hop
    exact hexec
  case registers => exact ⟨csrStore_withFatal r v s f, fun hr => csrValue_withFatal hr s f⟩
  case step => exact fatal_step hf hr h

/-! ### Every turn goes on, but a reset with the strap at 0 (R10, R230) -/

theorem runTurn_reset_of_station {p : ResetParams} (hp : p.station ≠ 0) (s : State) :
    runTurn (.reset p) s = .next (resetBlock p s) :=
  if_neg hp

/-- Settles O60: an agent's turn always answers a next state, and a reset does with any other strap. -/
theorem everyStepGoesOn : Obligations.EveryStepGoesOn := by
  unfold Obligations.EveryStepGoesOn
  intro s hstrap
  have hturn : ∃ u, runTurn (nextTurn s) (beginStep s) = .next u := by
    by_cases hreset : ∃ p, nextTurn s = .reset p
    · obtain ⟨p, hp⟩ := hreset
      rw [hp]
      exact ⟨_, runTurn_reset_of_station (hstrap p hp) _⟩
    · exact runTurn_next _ _ (not_exists.mp hreset)
  obtain ⟨u, hu⟩ := hturn
  exact ⟨endStep u, step_of_turn hu⟩

end Sys2Proof.Machine

namespace Sys2Proof.Machine

/-! ### Reset (R270) -/

/-- A reset turn gives every entry of the registry its reset value, whatever was registered (R35, R270). -/
theorem regEntry_resetBlock (p : ResetParams) (s : State) (c : Byte) :
    regEntry (resetBlock p s) c
      = if c = 0x05 then { kind := .builtinPing, hid := 0 } else { kind := .absent, hid := 0 } :=
  (regEntry_congr (s := State.resetWith p) rfl c).trans (regEntry_resetWith p c)

/-- Settles O51: the strap decides between the refusal and the reset of the block, whose registry is stated entry by
entry. -/
theorem resetTurn : Obligations.ResetTurn := by
  unfold Obligations.ResetTurn
  intro s p hturn
  constructor
  · intro hstrap
    have hrefused : runTurn (nextTurn s) (beginStep s) = .refused .stationZero := by
      rw [hturn]
      exact if_pos hstrap
    rw [step, stepTurn, hrefused]
    rfl
  · intro hstrap
    have hreset : runTurn (nextTurn s) (beginStep s) = .next (resetBlock p (beginStep s)) := by
      rw [hturn]
      exact runTurn_reset_of_station hstrap _
    have hentry := regEntry_resetBlock p (beginStep s)
    refine ⟨_, step_of_turn hreset, rfl, rfl, rfl, rfl, rfl, rfl, rfl, (hentry 0x05).trans (if_pos rfl),
      fun c hc => (hentry c).trans (if_neg hc), ?_⟩
    simp [resetBlock, State.resetWith, flowErrorCode]

/-! ### A stopped block with nothing pending (R271) -/

/-- As reset leaves it: the receive loop is stopped, and no frame, PONG or message is pending. -/
structure State.Idle (s : State) : Prop where
  rxState : s.rxState = .stopped
  hostTxPend : s.hostTxPend = false
  pongReq : s.pongReq = false
  msgPending : s.msgPending = false

/-- The commands that start the loop or ask for a frame to be written. -/
def EndsIdle (i : Instr) : Prop := i = .start ∨ (∃ c d, i = .send c d) ∨ ∃ c, i = .broadcast c

theorem idle_resetWith (p : ResetParams) : (State.resetWith p).Idle := ⟨rfl, rfl, rfl, rfl⟩

section
variable {s t : State}

theorem receiveTurn_stopped (hx : s.rxState = .stopped) : receiveTurn s = .next s := by
  simp [receiveTurn, hx, rxReading]

/-- With no frame and no PONG pending the transmit engine is not enabled (R201). -/
theorem transmitTurn_nothing_pending (first : TxSource) (hhost : s.hostTxPend = false) (hpong : s.pongReq = false) :
    transmitTurn first s = s := by
  simp [transmitTurn, chooseSource, hhost, hpong]

/-- With no message pending MSG_DONE is refused, in FATAL or out of it (R185, R244). -/
theorem exec_msgDone_refused (hm : s.msgPending = false) : ∃ r, exec .msgDone s = .next (setResult r s) := by
  obtain ⟨hfatal, hidle, -⟩ := msgDoneOutcome s
  rcases Bool.eq_false_or_eq_true s.fatal with hf | hf
  · exact ⟨_, hfatal hf⟩
  · exact ⟨_, hidle hf hm⟩

/-- A host command leaves the block idle, or is one of the three that end it; neither a PONG nor a message comes of it. -/
theorem idle_exec {i : Instr} (hi : isHostCommand i = true) (hs : s.Idle) (h : exec i s = .next t) :
    t.Idle ∨ (t.pongReq = false ∧ t.msgPending = false ∧ EndsIdle i) := by
  have hpong := hs.pongReq
  have hmsg := hs.msgPending
  rcases exec_hostCommand_cases hi h with
    ⟨r, rfl⟩ | ⟨rfl, rfl⟩ | ⟨rfl, rfl⟩ | ⟨c, b, k, e, rfl, rfl⟩ | ⟨c, d, hsend, rfl⟩ | ⟨rfl, -⟩
  · exact .inl { hs with }
  · exact .inr ⟨(loopTop_pongReq s).trans hpong, (loopTop_msgPending s).trans hmsg, .inl rfl⟩
  · exact .inl { hs with }
  · exact .inl { hs with }
  · exact .inr ⟨hpong, hmsg, .inr (hsend.imp (fun e => ⟨c, d, e⟩) (fun e => ⟨c, e⟩))⟩
  · obtain ⟨r, hrefused⟩ := exec_msgDone_refused hmsg
    rw [hrefused] at h
    cases h
    exact .inl { hs with }

/-- The host's write to CMD is the command of its word, with the response recorded (R66, R179). -/
theorem hostTurn_command {w : Word} (hw : nextHost s = .access (.write 0x004 .w32 w)) (h : hostTurn s = .next t) :
    ∃ u, exec (decodeCommand w) (popHost s) = .next u ∧ t = respond (.write true) u := by
  obtain ⟨u, hu⟩ := exec_next (decodeCommand w) (popHost s)
  rw [hostTurn, hw] at h
  exact ⟨u, hu, Host.Outcome.next.inj (h.symm.trans (hostAccess_write_cmd hu))⟩

/-- Only the write of one of the three commands ends an idle block's rest. -/
theorem idle_hostTurn (hs : s.Idle) (h : hostTurn s = .next t) :
    t.Idle ∨ (t.pongReq = false ∧ t.msgPending = false ∧
      ∃ w, nextHost s = .access (.write 0x004 .w32 w) ∧ EndsIdle (decodeCommand w)) := by
  rcases hostTurn_update h with ⟨r, p, rfl⟩ | ⟨-, w, -, hw, -⟩ | ⟨r, c, v, rfl⟩
  · exact .inl { hs with }
  · obtain ⟨u, hu, rfl⟩ := hostTurn_command hw h
    have hpop : (popHost s).Idle := { hs with }
    rcases idle_exec (isHostCommand_decodeCommand w) hpop hu with hidle | ⟨hpong, hmsg, hends⟩
    · exact .inl { hidle with }
    · exact .inr ⟨hpong, hmsg, w, hw, hends⟩
  · exact .inl ⟨by simp [hs.rxState], by simp [hs.hostTxPend], by simp [hs.pongReq], by simp [hs.msgPending]⟩

/-- The two engines are not enabled in an idle block, so its step is the host's or changes nothing. -/
theorem idle_step (hs : s.Idle) (hr : (nextTurn s).running = true) (h : step s = .next t) :
    t.Idle ∨ (t.pongReq = false ∧ t.msgPending = false ∧ nextTurn s = .host ∧
      ∃ w, nextHost s = .access (.write 0x004 .w32 w) ∧ EndsIdle (decodeCommand w)) := by
  have hbegin : (beginStep s).Idle := { hs with }
  cases step_running (running_not_reset hr) h with
  | host turn run =>
    rcases idle_hostTurn hbegin run with hidle | ⟨hpong, hmsg, hcommand⟩
    · exact .inl { hidle with }
    · exact .inr ⟨hpong, hmsg, turn, hcommand⟩
  | receive _ run =>
    rw [receiveTurn_stopped hbegin.rxState] at run
    cases run
    exact .inl { hbegin with }
  | transmit first _ =>
    rw [transmitTurn_nothing_pending first hbegin.hostTxPend hbegin.pongReq]
    exact .inl { hbegin with }

/-- With no frame and no PONG pending a running step makes no write (R201). -/
theorem noWrite_step (hhost : s.hostTxPend = false) (hpong : s.pongReq = false) (hr : (nextTurn s).running = true)
    (h : step s = .next t) :
    t.txTrace = s.txTrace ∧ t.txIn = s.txIn ∧ ∀ tx, step { s with txIn := tx } = .next { t with txIn := tx } := by
  rcases onlyTransmitStepsWrite s t hr h with hkeep | ⟨-, src, -, -, hhost', hpong', -⟩
  · exact hkeep
  · cases src with
    | host => exact absurd (hhost' rfl) (ne_true_of_eq_false hhost)
    | pong => exact absurd (hpong' rfl) (ne_true_of_eq_false hpong)

end

/-- Settles O52: an engine that is not reading makes no read and one with nothing pending no write, which together is no
transport access; and the block stays idle but for the host's three commands. -/
theorem noTransportAccessAfterReset : Obligations.NoTransportAccessAfterReset := by
  unfold Obligations.NoTransportAccessAfterReset
  refine ⟨fun p => ?reset, fun s t hx hhost hpong hmsg hr h => ?step⟩
  case reset =>
    obtain ⟨hx, hhost, hpong, hmsg⟩ := idle_resetWith p
    exact ⟨hx, hhost, hpong, hmsg⟩
  case step =>
    obtain ⟨hrxIn, hnoRead⟩ := noReadOutsideReadingStates s t (by rw [hx]; rfl) h
    obtain ⟨htrace, htxIn, -⟩ := noWrite_step hhost hpong hr h
    have hsame : ∀ rx tx, step (s.withTransport rx tx) = .next (t.withTransport rx tx) := by
      intro rx tx
      obtain ⟨-, -, hnoWrite⟩ := noWrite_step (s := { s with rxIn := rx }) hhost hpong hr (hnoRead rx)
      exact hnoWrite tx
    rcases idle_step ⟨hx, hhost, hpong, hmsg⟩ hr h with hidle | ⟨hpong', hmsg', hcommand⟩
    · have hrest : ¬ (t.rxState ≠ .stopped ∨ t.hostTxPend = true) := by simp [hidle.rxState, hidle.hostTxPend]
      exact ⟨hrxIn, htxIn, htrace, hidle.pongReq, hidle.msgPending, hsame, fun hends => absurd hends hrest⟩
    · exact ⟨hrxIn, htxIn, htrace, hpong', hmsg', hsame, fun _ => hcommand⟩

end Sys2Proof.Machine
